-- ==== Sys2Proof/Word.lean ====
section
/-! DEFINITION. The bit-vector types of RSAX: a bus word, a byte, an integer register, a register index (rules R7, R11, R12, R19). -/

namespace Sys2Proof

/-- A control register, a command word, or the data lanes of the host bus (rules R23, R41, R52). -/
abbrev Word := BitVec 32

/-- One byte of a byte string or of a slot (rule R12). -/
abbrev Byte := BitVec 8

/-- The contents of one integer slot: RBITS = 8192 bits (rules R7, R19). -/
abbrev IntReg := BitVec 8192

/-- The index of an integer register OP[0..15] or of a KEY slot 0..15 (rules R22, R54). -/
abbrev RegIx := BitVec 4

end Sys2Proof
end

