-- ==== Sys2Proof/Syntax.lean ====
section
/-! DEFINITION. The eleven commands of spec/opcode_table.json, the raw fields of a command word (rule R52), and the
names a decoder rejects a word by. -/

namespace Sys2Proof

/-- A legal command, one constructor per row of the opcode table (rules R53, R58). A register operand is the 4-bit field
itself, so no command of this type names a register that does not exist (rule R54). -/
inductive Instr where
  /-- No operation (rule R91). -/
  | nop
  /-- Modular reduction (rule R68). -/
  | modred (rd ra rm : RegIx)
  /-- Modular multiplication (rule R69). -/
  | modmul (rd ra rb rm : RegIx)
  /-- Montgomery multiplication (rule R70). -/
  | montmul (rd ra rb rm : RegIx)
  /-- Modular exponentiation (rule R71). -/
  | modexp (rd ra rb rm : RegIx)
  /-- RSAEP, also written RSASP1 (rule R74). -/
  | rsaep (rd ra : RegIx)
  /-- RSADP, also written RSAVP1 (rule R75). -/
  | rsadp (rd ra : RegIx)
  /-- Integer to octet string (rule R81). -/
  | i2osp (ra : RegIx)
  /-- Octet string to integer (rule R82). -/
  | os2ip (rd : RegIx)
  /-- Constant-time comparison (rule R84). -/
  | cmp
  /-- Mask generation; `x` is FLAGS[0], set (false) or xor (true) (rules R55, R88). -/
  | mgf1 (x : Bool)
  deriving DecidableEq, Repr

/-- The eight fields of a command word, before any check (rule R52). -/
structure Fields where
  opc : BitVec 6
  res0 : BitVec 2
  rd : RegIx
  ra : RegIx
  rb : RegIx
  rm : RegIx
  flags : BitVec 4
  res1 : BitVec 4
  deriving DecidableEq, Repr

/-- Why a word is no legal command (rules R56, R61). -/
inductive Reject where
  /-- RES0 or RES1 is not 0. -/
  | reservedBits
  /-- OPC is none of the eleven opcodes. -/
  | reservedOpcode
  /-- A field the opcode does not use, or a flag it does not define, is not 0. -/
  | unusedField
  deriving DecidableEq, Repr

end Sys2Proof
end

