-- ==== Sys2Proof/WellFormed.lean ====
section
/-! DEFINITION. The zero-field rule R56 as a check on the raw fields of a command word, read off the table of rule R53.
Every term of Instr is well formed by its type; what can be ill formed is a word's fields, so the check is on them. -/

namespace Sys2Proof

/-- Which fields a row of rule R53 uses, and which FLAGS bits it defines. -/
structure FieldUse where
  rd : Bool
  ra : Bool
  rb : Bool
  rm : Bool
  flags : BitVec 4
  deriving DecidableEq, Repr

/-- The opcode map of rule R53; every opcode it does not list is reserved (rule R61). -/
def fieldUse? (opc : BitVec 6) : Option FieldUse :=
  match opc.toNat with
  | 0x00 => some ⟨false, false, false, false, 0#4⟩
  | 0x01 => some ⟨true, true, false, true, 0#4⟩
  | 0x02 => some ⟨true, true, true, true, 0#4⟩
  | 0x03 => some ⟨true, true, true, true, 0#4⟩
  | 0x04 => some ⟨true, true, true, true, 0#4⟩
  | 0x08 => some ⟨true, true, false, false, 0#4⟩
  | 0x09 => some ⟨true, true, false, false, 0#4⟩
  | 0x10 => some ⟨false, true, false, false, 0#4⟩
  | 0x11 => some ⟨true, false, false, false, 0#4⟩
  | 0x18 => some ⟨false, false, false, false, 0#4⟩
  | 0x20 => some ⟨false, false, false, false, 1#4⟩
  | _ => none

/-- RES0 and RES1 are 0 (rule R56). -/
def Fields.reservedZero (f : Fields) : Bool := f.res0 == 0#2 && f.res1 == 0#4

/-- Every field the row does not use is 0, and FLAGS has no bit beyond those it defines (rule R56). -/
def FieldUse.admits (u : FieldUse) (f : Fields) : Bool :=
  (u.rd || f.rd == 0#4) && (u.ra || f.ra == 0#4) && (u.rb || f.rb == 0#4) && (u.rm || f.rm == 0#4) &&
    (f.flags &&& ~~~u.flags == 0#4)

/-- The word with these fields is a legal command (rule R56). -/
def Fields.wellFormed (f : Fields) : Bool :=
  f.reservedZero &&
    match fieldUse? f.opc with
    | none => false
    | some u => u.admits f

end Sys2Proof
end

