-- ==== Sys2Proof/Decode.lean ====
section
/-! DEFINITION. Taking a command word apart, the total decoder of rule R58, and the encoder of rule R52. -/

namespace Sys2Proof

/-- The fields of a word (rule R52). -/
def fieldsOf (w : Word) : Fields where
  opc := w.extractLsb' 0 6
  res0 := w.extractLsb' 6 2
  rd := w.extractLsb' 8 4
  ra := w.extractLsb' 12 4
  rb := w.extractLsb' 16 4
  rm := w.extractLsb' 20 4
  flags := w.extractLsb' 24 4
  res1 := w.extractLsb' 28 4

/-- The word with these fields: RES1, FLAGS, RM, RB, RA, RD, RES0, OPC from the left (rule R52). -/
def packFields (f : Fields) : Word :=
  f.res1 ++ f.flags ++ f.rm ++ f.rb ++ f.ra ++ f.rd ++ f.res0 ++ f.opc

/-- One case of rule R58: the command if its "ok if" condition holds, otherwise a rejection. -/
def okIf (c : Bool) (i : Instr) : Except Reject Instr :=
  if c then .ok i else .error .unusedField

/-- The case analysis of rule R58 on the fields of a word. -/
def decodeFields (f : Fields) : Except Reject Instr :=
  if f.res0 != 0#2 || f.res1 != 0#4 then .error .reservedBits
  else
    match f.opc.toNat with
    | 0x00 => okIf (f.rd == 0#4 && f.ra == 0#4 && f.rb == 0#4 && f.rm == 0#4 && f.flags == 0#4) .nop
    | 0x01 => okIf (f.rb == 0#4 && f.flags == 0#4) (.modred f.rd f.ra f.rm)
    | 0x02 => okIf (f.flags == 0#4) (.modmul f.rd f.ra f.rb f.rm)
    | 0x03 => okIf (f.flags == 0#4) (.montmul f.rd f.ra f.rb f.rm)
    | 0x04 => okIf (f.flags == 0#4) (.modexp f.rd f.ra f.rb f.rm)
    | 0x08 => okIf (f.rb == 0#4 && f.rm == 0#4 && f.flags == 0#4) (.rsaep f.rd f.ra)
    | 0x09 => okIf (f.rb == 0#4 && f.rm == 0#4 && f.flags == 0#4) (.rsadp f.rd f.ra)
    | 0x10 => okIf (f.rd == 0#4 && f.rb == 0#4 && f.rm == 0#4 && f.flags == 0#4) (.i2osp f.ra)
    | 0x11 => okIf (f.ra == 0#4 && f.rb == 0#4 && f.rm == 0#4 && f.flags == 0#4) (.os2ip f.rd)
    | 0x18 => okIf (f.rd == 0#4 && f.ra == 0#4 && f.rb == 0#4 && f.rm == 0#4 && f.flags == 0#4) .cmp
    | 0x20 =>
      okIf (f.rd == 0#4 && f.ra == 0#4 && f.rb == 0#4 && f.rm == 0#4 && f.flags.extractLsb' 1 3 == 0#3)
        (.mgf1 (f.flags.getLsbD 0))
    | _ => .error .reservedOpcode

/-- Decoding, total on every word: exactly one command, or a rejection by name (rule R58). -/
def decode (w : Word) : Except Reject Instr := decodeFields (fieldsOf w)

/-- The fields of a command, written as rules R53 and R63 give them; unused fields are 0. -/
def instrFields : Instr → Fields
  | .nop => ⟨0x00#6, 0#2, 0#4, 0#4, 0#4, 0#4, 0#4, 0#4⟩
  | .modred rd ra rm => ⟨0x01#6, 0#2, rd, ra, 0#4, rm, 0#4, 0#4⟩
  | .modmul rd ra rb rm => ⟨0x02#6, 0#2, rd, ra, rb, rm, 0#4, 0#4⟩
  | .montmul rd ra rb rm => ⟨0x03#6, 0#2, rd, ra, rb, rm, 0#4, 0#4⟩
  | .modexp rd ra rb rm => ⟨0x04#6, 0#2, rd, ra, rb, rm, 0#4, 0#4⟩
  | .rsaep rd ra => ⟨0x08#6, 0#2, rd, ra, 0#4, 0#4, 0#4, 0#4⟩
  | .rsadp rd ra => ⟨0x09#6, 0#2, rd, ra, 0#4, 0#4, 0#4, 0#4⟩
  | .i2osp ra => ⟨0x10#6, 0#2, 0#4, ra, 0#4, 0#4, 0#4, 0#4⟩
  | .os2ip rd => ⟨0x11#6, 0#2, rd, 0#4, 0#4, 0#4, 0#4, 0#4⟩
  | .cmp => ⟨0x18#6, 0#2, 0#4, 0#4, 0#4, 0#4, 0#4, 0#4⟩
  | .mgf1 x => ⟨0x20#6, 0#2, 0#4, 0#4, 0#4, 0#4, if x then 1#4 else 0#4, 0#4⟩

/-- The command word of a command (rule R52). -/
def encode (i : Instr) : Word := packFields (instrFields i)

/-- The word as the opcode table numbers its bits: bit 0 is the least significant; a command is one 32-bit word written to
CMD whole (rules R52, R62), so no byte order enters. -/
def tableWord (nbits w : Nat) : Word := BitVec.ofNat 32 (w % 2 ^ nbits)

/-- The command the decoder reads from a table word, none where it rejects it. -/
def decodeTableWord (nbits w : Nat) : Option Instr :=
  match decode (tableWord nbits w) with
  | .ok i => some i
  | .error _ => none

end Sys2Proof
end

