-- ==== Sys2Proof/Config.lean ====
section
/-! DEFINITION. The fixed parameters of rule R7, the constant registers of rules R24 and R25, and the parameters
rule R8 leaves open. -/

namespace Sys2Proof.Config

/-- Bytes per integer slot (rule R7). -/
def maxBytes : Nat := 1024

/-- Width in bits of every integer register; the Montgomery radix is 2 to this power (rules R7, R67). -/
def rbits : Nat := 8192

/-- Bytes in the byte buffer BUF (rule R7). -/
def bufSize : Nat := 4096

/-- The constant register ID (rule R24). -/
def idValue : Word := 0x52534158#32

/-- The constant register PARAM (rule R25). -/
def paramValue : Word := 0x10104080#32

/-- The digest lengths MGF1 accepts (rule R87). -/
def hashLengths : List Nat := [16, 20, 28, 32, 48, 64]

/-- HASHFN, the function the external hash core computes (rules R8, R85). It has no body: nothing can be proved of its
values, so a claim holds for every hash core (log entry 3). -/
opaque hashFn : List Byte → List Byte

/-- BASE, the platform address of the block's 64 KiB window (rule R8). It has no body (log entry 10). -/
opaque base : Nat

end Sys2Proof.Config
end

