-- ==== Sys2Proof/Machine/Arith.lean ====
section
/-! DEFINITION. The exact integer arithmetic of the commands: powers and inverses modulo m, the Montgomery constant, and the
conversions between integers and byte strings (rules R10, R13, R67). -/

namespace Sys2Proof.Machine

/-- Square and multiply over the bits of the exponent `e`, lowest first, for at most the given number of bits. -/
def powLoop (m : Nat) : Nat → Nat → Nat → Nat → Nat
  | 0, _, _, acc => acc
  | k + 1, b, e, acc =>
    if e = 0 then acc else powLoop m k (b * b % m) (e / 2) (if e % 2 = 1 then acc * b % m else acc)

/-- x^y mod m with x^0 = 1 (rules R10, R71), by square and multiply so that it runs on 8192-bit exponents; it is the exact
value x^y mod m (`modPow_eq` in Laws/Arith.lean). -/
def modPow (x y m : Nat) : Nat := powLoop m (y.log2 + 1) (x % m) y (1 % m)

/-- Euclid's algorithm on (r0, r1), carrying for each remainder its coefficient of the first argument. -/
def bezoutLoop : Nat → Nat → Int → Nat → Int → Int
  | 0, _, s0, _, _ => s0
  | k + 1, r0, s0, r1, s1 =>
    if r1 = 0 then s0 else bezoutLoop k r1 s1 (r0 % r1) (s0 - ((r0 / r1 : Nat) : Int) * s1)

/-- inv(a, m) of rule R10: the y in [1, m) with a·y mod m = 1 when gcd(a, m) = 1 and m > 1 (`inv_spec` in Laws/Arith.lean).
Elsewhere rule R10 gives no value and no command asks for one (log entry 13). -/
def inv (a m : Nat) : Nat := (bezoutLoop (m + 1) (a % m) 1 m 0 % (m : Int)).toNat

/-- Rinv_m of rule R67: the inverse of R = 2^8192 modulo m, and 0 for m = 1. -/
def montRinv (m : Nat) : Nat := if m = 1 then 0 else inv (2 ^ Config.rbits % m) m

/-- OS2IP, the big-endian value of a byte string (rule R13). -/
def os2ip (bs : List Byte) : Nat := bs.foldl (fun v b => v * 256 + b.toNat) 0

/-- I2OSP, the l big-endian bytes of x, for x < 256^l (rule R13). -/
def i2osp (x : Nat) : Nat → List Byte
  | 0 => []
  | l + 1 => BitVec.ofNat 8 (x / 256 ^ l) :: i2osp x l

/-- Bytewise exclusive-or (rule R12). -/
def xorBytes (s t : List Byte) : List Byte := List.zipWith (· ^^^ ·) s t

/-- ⌈a / b⌉ (rule R10). -/
def ceilDiv (a b : Nat) : Nat := (a + b - 1) / b

end Sys2Proof.Machine
end

