-- ==== Sys2Proof/Machine/State.lean ====
section
/-! DEFINITION. Everything rule R18 calls the state of RSAX, as plain data, the moves of its agents, and the state after
reset (rule R109). -/

namespace Sys2Proof.Machine

/-- Error codes of STATUS.ERRCODE (rule R96). -/
inductive ErrCode where
  | noError
  | illegalCmd
  | outOfRange
  | length
  | evenModulus
  | keyConfig
  | bufBounds
  | bufOverlap
  | hashConfig
  | maskTooLong
  | keyInvalid
  | aborted
  deriving DecidableEq, Repr

/-- STATUS (rule R27). The register is read-only and its other bits are reserved, so its fields are all it holds. -/
structure Status where
  busy : Bool
  done : Bool
  err : Bool
  eq : Bool
  errcode : ErrCode
  deriving DecidableEq, Repr

/-- KEYCFG (rule R31); its other bits are RAZ/WI. -/
structure KeyCfg where
  u : BitVec 3
  pubeV : Bool
  noBlind : Bool
  deriving DecidableEq, Repr

/-- The argument registers, bits 15:0 (rule R33); bits 31:16 are RAZ/WI. -/
structure ArgRegs where
  addrA : BitVec 16
  lenA : BitVec 16
  addrB : BitVec 16
  lenB : BitVec 16
  addrD : BitVec 16
  lenD : BitVec 16
  deriving DecidableEq, Repr

/-- The sequencer state (rule R35): `cmd` is the latched command word, `j` the MGF1 block counter of rule R89. -/
inductive Seq where
  | idle
  | run (cmd : Word)
  | waitHash (cmd : Word) (j : Nat)
  | waitRng (cmd : Word)
  deriving DecidableEq, Repr

/-- The size of a host access in bytes (rule R15). -/
inductive Size where
  | one
  | two
  | four
  deriving DecidableEq, Repr

/-- What a host access does; a write uses the low bytes of `v` (rules R15, R41). -/
inductive Direction where
  | read
  | write (v : Word)
  deriving DecidableEq, Repr

/-- One host access at a block offset: MemRead or MemWrite of rule R15. -/
structure Access where
  offset : BitVec 16
  size : Size
  dir : Direction
  deriving DecidableEq, Repr

/-- The response of the bus (rule R40). -/
inductive Resp where
  | okay
  | slverr
  deriving DecidableEq, Repr

/-- What the host gets back: a response, and the data of a read (rule R15). -/
structure Reply where
  resp : Resp
  data : Option Word
  deriving DecidableEq, Repr

/-- One atomic step of one agent (rules R9, R44). An execution is a total order of these (log entry 1). -/
inductive Move where
  /-- The sequencer takes its next step. -/
  | sequencer
  /-- A bus master accesses the block at an offset of its window. -/
  | host (a : Access)
  /-- A bus master accesses a platform address; outside the window at BASE the access is not the block's (rule R8). -/
  | platform (addr : Nat) (size : Size) (dir : Direction)
  /-- A host write of `v` to INT_STATUS in the same step as a sequencer step (rule R28: set beats clear; log entry 9). -/
  | ackWithSequencer (v : Word)
  /-- The hash core answers its oldest request (rule R85). -/
  | hashCore
  /-- The RNG offers the value `r` for its oldest request (rule R73). -/
  | rng (r : Nat)
  /-- Power-on, or assertion of rst_n (rule R107). -/
  | reset
  deriving DecidableEq, Repr

/-- The byte buffer as cells: addresses strictly rising, no byte 0x00 listed, since an unlisted byte reads 0x00
(rules R21, R108). -/
abbrev Memory := List Host.Cell

/-- Why a step stops the machine: never. A command of RSAX completes with an error code and a bad access is answered with
SLVERR (rules R40, R101), so no reason exists. -/
inductive Fault where
  deriving DecidableEq, Repr

/-- Why a step has no meaning in the model. -/
inductive Refusal where
  /-- Raised by `exec` alone, for a command without a meaning; no arm raises it any more. Safe. -/
  | notModelled (mnemonic : String)
  /-- Raised by the hash core's move when its digest has not MGFCFG.HLEN bytes: the model refuses such a platform
  (rule R85(b), behaviour A9 of 93_implementation_defined.md; log entry 3). Safe. -/
  | hashContract
  deriving DecidableEq, Repr

/-- The state of RSAX (rule R18), and the model's own fields `hashStale`, `rngStale`, `reply` and `moves`. -/
structure State where
  /-- OP[0..15] (rule R19). -/
  op : Vector IntReg 16
  /-- KEY slots 0..15 (rule R22); slot 15 is never written. -/
  key : Vector IntReg 16
  /-- BUF (rule R21). -/
  buf : Memory
  /-- STATUS (rule R27). -/
  status : Status
  /-- INT_STATUS[3:0] (rule R28). -/
  intStatus : BitVec 4
  /-- INT_EN[3:0] (rule R29). -/
  intEn : BitVec 4
  /-- CMD_LAST (rule R30). -/
  cmdLast : Word
  /-- KEYCFG (rule R31). -/
  keycfg : KeyCfg
  /-- MGFCFG.HLEN (rule R32). -/
  hlen : BitVec 7
  /-- ADDR_A, LEN_A, ADDR_B, LEN_B, ADDR_D, LEN_D (rule R33). -/
  args : ArgRegs
  /-- seq (rule R35). -/
  seq : Seq
  /-- abort_pending (rule R35). -/
  abortPending : Bool
  /-- The number of MGF1 blocks written so far, the next value of j (rule R89; log entry 6). -/
  mgfBlock : Nat
  /-- The request M of the hash transaction in flight; hash_outstanding is 1 exactly when there is one (rules R35, R85). -/
  hashReq : Option (List Byte)
  /-- The digest received and not yet used (rule R88). -/
  digest : Option (List Byte)
  /-- The largest value the draw in flight may have; rng_outstanding is 1 exactly when there is one (rules R35, R73). -/
  rngReq : Option Nat
  /-- The blinding factor r, from the RNG's answer to completion (rules R35, R73). -/
  blind : Option Nat
  /-- Hash responses still to come for requests made before a reset; each is discarded (rules R85(e), R107; log entry 8). -/
  hashStale : Nat
  /-- RNG responses still to come for requests made before a reset; each is discarded (rule R107; log entry 8). -/
  rngStale : Nat
  /-- The answer to the last host access, none before the first (rule R15; log entry 2). -/
  reply : Option Reply
  /-- The agents' moves to come, the next first (rule R44; log entry 1). -/
  moves : List Move
  deriving DecidableEq, Repr

/-- The state after reset (rule R109). -/
def State.reset : State where
  op := Vector.replicate 16 0#8192
  key := Vector.replicate 16 0#8192
  buf := []
  status := ⟨false, false, false, false, .noError⟩
  intStatus := 0#4
  intEn := 0#4
  cmdLast := 0#32
  keycfg := ⟨0#3, false, false⟩
  hlen := 20#7
  args := ⟨0#16, 0#16, 0#16, 0#16, 0#16, 0#16⟩
  seq := .idle
  abortPending := false
  mgfBlock := 0
  hashReq := none
  digest := none
  rngReq := none
  blind := none
  hashStale := 0
  rngStale := 0
  reply := none
  moves := []

end Sys2Proof.Machine
end

