-- ==== Sys2Proof/Machine/Flags.lean ====
section
/-! DEFINITION. What sets and clears STATUS and INT_STATUS, how STATUS reads as a word, and the interrupt output
(rules R27, R28, R34, R36, R96). -/

namespace Sys2Proof.Machine

/-- The 4-bit code of an error (rule R96). -/
def ErrCode.code : ErrCode → BitVec 4
  | .noError => 0x0#4
  | .illegalCmd => 0x1#4
  | .outOfRange => 0x2#4
  | .length => 0x3#4
  | .evenModulus => 0x4#4
  | .keyConfig => 0x5#4
  | .bufBounds => 0x6#4
  | .bufOverlap => 0x7#4
  | .hashConfig => 0x8#4
  | .maskTooLong => 0x9#4
  | .keyInvalid => 0xA#4
  | .aborted => 0xB#4

/-- STATUS as the host reads it; reserved bits read 0 (rule R27). -/
def Status.word (t : Status) : Word :=
  0#20 ++ t.errcode.code ++ 0#4 ++ BitVec.ofBool t.eq ++ BitVec.ofBool t.err ++ BitVec.ofBool t.done ++
    BitVec.ofBool t.busy

/-- STATUS at the issue of a command; `isCmp` says that its OPC is CMP's, which clears EQ (rules R27, R59). -/
def Status.issued (t : Status) (isCmp : Bool) : Status where
  busy := true
  done := false
  err := false
  eq := if isCmp then false else t.eq
  errcode := .noError

/-- STATUS at completion with code `c` (rules R27, R101). -/
def Status.completed (t : Status) (c : ErrCode) : Status where
  busy := false
  done := true
  err := c != .noError
  eq := t.eq
  errcode := c

/-- INT_STATUS bit DONE_I (rule R28). -/
def doneBit : BitVec 4 := 0x1#4

/-- INT_STATUS bit ERR_I (rule R28). -/
def errBit : BitVec 4 := 0x2#4

/-- INT_STATUS bit OVR_I (rule R28). -/
def ovrBit : BitVec 4 := 0x4#4

/-- INT_STATUS bit ACC_I (rule R28). -/
def accBit : BitVec 4 := 0x8#4

/-- What completion with code `c` sets in INT_STATUS (rules R28, R101). -/
def completionBits (c : ErrCode) : BitVec 4 := if c = .noError then doneBit else doneBit ||| errBit

/-- Set bits of INT_STATUS; they are sticky (rule R28). -/
def State.setInt (s : State) (bits : BitVec 4) : State := { s with intStatus := s.intStatus ||| bits }

/-- Write-1-to-clear of INT_STATUS, the host's acknowledgement (rules R28, R102). -/
def State.clearInt (s : State) (bits : BitVec 4) : State := { s with intStatus := s.intStatus &&& ~~~bits }

/-- The result of a comparison in STATUS.EQ (rules R27, R84). -/
def State.setEq (s : State) (e : Bool) : State := { s with status := { s.status with eq := e } }

/-- The interrupt output: some pending source is enabled (rule R36). -/
def State.irq (s : State) : Bool := s.intStatus &&& s.intEn != 0#4

end Sys2Proof.Machine
end

