-- ==== Sys2Proof/Machine/Ops.lean ====
section
/-! DEFINITION. The named operations: the byte buffer, the bytes of a slot, issue, completion (the block's only exception
entry, rule R101), reset, abort, and the transactions of the hash and RNG ports. -/

namespace Sys2Proof.Machine

/-! ### The byte buffer (rules R14, R21) -/

/-- BUF[a]: an unlisted byte reads 0x00, its value after reset (rule R108). -/
def Memory.read : Memory → Nat → Byte
  | [], _ => 0#8
  | (a', v) :: t, a => if a' = a then v else Memory.read t a

/-- Replace one byte, keeping addresses rising and no 0x00 listed. -/
def Memory.put : Memory → Nat → Byte → Memory
  | [], a, v => if v = 0#8 then [] else [(a, v)]
  | (a', v') :: t, a, v =>
    if a < a' then (if v = 0#8 then (a', v') :: t else (a, v) :: (a', v') :: t)
    else if a = a' then (if v = 0#8 then t else (a, v) :: t)
    else (a', v') :: Memory.put t a v

/-- BUF[a] <- v. No rule writes at an address from 4096 up, where BUF has no byte; such a write would do nothing
(log entry 12). -/
def Memory.write (m : Memory) (a : Nat) (v : Byte) : Memory := if a < Config.bufSize then m.put a v else m

/-- BufRead(a, l) (rule R14). -/
def Memory.readBytes (m : Memory) (a : Nat) : Nat → List Byte
  | 0 => []
  | l + 1 => m.read a :: Memory.readBytes m (a + 1) l

/-- BufWrite(a, S) (rule R14). -/
def Memory.writeBytes (m : Memory) (a : Nat) : List Byte → Memory
  | [] => m
  | b :: bs => Memory.writeBytes (m.write a b) (a + 1) bs

/-- The cells lie at addresses from `lo` up, strictly rising, inside BUF, and none is 0x00. -/
def Memory.wfFrom : Nat → Memory → Bool
  | _, [] => true
  | lo, (a, v) :: t => decide (lo ≤ a) && decide (a < Config.bufSize) && v != 0#8 && Memory.wfFrom (a + 1) t

/-- The canonical form of the byte buffer. -/
def Memory.wf (m : Memory) : Bool := Memory.wfFrom 0 m

/-- BufWrite on the state (rule R14). -/
def State.bufWrite (s : State) (a : Nat) (bs : List Byte) : State := { s with buf := s.buf.writeBytes a bs }

/-! ### Slots and registers (rules R14, R19, R22) -/

/-- How far byte `b` of a slot lies from bit 0: byte 0 is the most significant (rule R19). -/
def slotShift (b : Nat) : Nat := 8 * (Config.maxBytes - 1 - b)

/-- Byte `b` of a slot, b < 1024 (rule R19). -/
def slotByte (v : IntReg) (b : Nat) : Byte := v.extractLsb' (slotShift b) 8

/-- The slot with byte `b` replaced, b < 1024 (rule R19). -/
def setSlotByte (v : IntReg) (b : Nat) (x : Byte) : IntReg :=
  (v &&& ~~~(0xFF#8192 <<< slotShift b)) ||| (x.setWidth 8192 <<< slotShift b)

/-- The slot of OP[i] (rule R19). -/
def State.opReg (s : State) (i : RegIx) : IntReg := s.op[i.toNat]'i.isLt

/-- KEY slot k (rule R22). -/
def State.keyReg (s : State) (k : RegIx) : IntReg := s.key[k.toNat]'k.isLt

/-- Replace the slot of OP[i]. -/
def State.setOpReg (s : State) (i : RegIx) (v : IntReg) : State := { s with op := s.op.set i.toNat v i.isLt }

/-- Replace KEY slot k. -/
def State.setKeyReg (s : State) (k : RegIx) (v : IntReg) : State := { s with key := s.key.set k.toNat v k.isLt }

/-! ### Issue and completion (rules R59, R60, R101) -/

/-- OPC of a command word, w[5:0] (rule R52). -/
def opcOf (w : Word) : BitVec 6 := w.extractLsb' 0 6

/-- The idle branch of rule R59: accept the command word `w`. -/
def State.accept (s : State) (w : Word) : State :=
  { s with
    cmdLast := w
    status := s.status.issued (opcOf w == 0x18#6)
    abortPending := false
    seq := .run w
    mgfBlock := 0 }

/-- A write of CMD: issue while idle, dropped with OVR_I otherwise (rule R59). -/
def State.issue (s : State) (w : Word) : State :=
  match s.seq with
  | .idle => s.accept w
  | .run _ => s.setInt ovrBit
  | .waitHash _ _ => s.setInt ovrBit
  | .waitRng _ => s.setInt ovrBit

/-- The completion step with code `c`, after the command's commits (rule R101). It also clears what lives only while a
command runs (rule R35). -/
def State.complete (s : State) (c : ErrCode) : State :=
  { s with
    status := s.status.completed c
    intStatus := s.intStatus ||| completionBits c
    abortPending := false
    seq := .idle
    mgfBlock := 0
    hashReq := none
    digest := none
    rngReq := none
    blind := none }

/-- The completion step of a command whose checks all passed: ABORTED if an abort is pending, its commit suppressed;
otherwise the commit takes effect and the command completes without error (rules R60, R92). -/
def State.finish (s : State) (commit : State → State) : State :=
  if s.abortPending then s.complete .aborted else (commit s).complete .noError

/-- The word of the running command (rule R35); between commands, the last one issued. -/
def State.cmdWord (s : State) : Word :=
  match s.seq with
  | .idle => s.cmdLast
  | .run w => w
  | .waitHash w _ => w
  | .waitRng w => w

/-! ### Reset and abort (rules R92, R93, R107) -/

/-- Reset from either source (rule R107): every register of the block at its reset value; a response owed for a request in
flight becomes one to discard. The moves to come and the last bus answer are the environment's and stay. -/
def State.resetBlock (s : State) : State :=
  { State.reset with
    hashStale := s.hashStale + (if s.hashReq.isSome then 1 else 0)
    rngStale := s.rngStale + (if s.rngReq.isSome then 1 else 0)
    reply := s.reply
    moves := s.moves }

/-- A write of CTRL.ABORT: latched while a command runs, no effect while idle (rule R92). -/
def State.abort (s : State) : State :=
  match s.seq with
  | .idle => s
  | .run _ => { s with abortPending := true }
  | .waitHash _ _ => { s with abortPending := true }
  | .waitRng _ => { s with abortPending := true }

/-- A write of CTRL: SOFTRST wins over ABORT (rules R26, R92, R93). -/
def State.writeCtrl (s : State) (v : Word) : State :=
  if v.getLsbD 0 then s.resetBlock else if v.getLsbD 1 then s.abort else s

/-! ### The hash port and the RNG port (rules R73, R85) -/

/-- Send hash request j carrying `m` and wait (rules R85, R88). -/
def State.sendHash (s : State) (j : Nat) (m : List Byte) : State :=
  { s with seq := .waitHash s.cmdWord j, hashReq := some m, digest := none }

/-- Ask the RNG for a draw in [1, hi] and wait (rule R73). -/
def State.requestDraw (s : State) (hi : Nat) : State :=
  { s with seq := .waitRng s.cmdWord, rngReq := some hi, blind := none }

/-- The hash core answers its oldest request. An answer owed from before a reset is discarded; otherwise the sequencer
receives D = HASHFN(M), which must have HLEN bytes (rules R85, R107). With nothing to answer, nothing happens. -/
def hashAnswer (s : State) : Host.Outcome State Fault Refusal :=
  if 0 < s.hashStale then .next { s with hashStale := s.hashStale - 1 }
  else
    match s.hashReq with
    | none => .next s
    | some m =>
      if (Config.hashFn m).length = s.hlen.toNat then
        .next { s with hashReq := none, digest := some (Config.hashFn m) }
      else .refused .hashContract

/-- The RNG offers `r` for its oldest request. An answer owed from before a reset is discarded. A value outside [1, hi] is
no answer to the draw and the request stays (rule R73, decision D21; log entry 4). An abort pending ends nothing here: it is
taken at completion, after the checks that need r (rule R100; log entry 7). -/
def rngAnswer (r : Nat) (s : State) : State :=
  if 0 < s.rngStale then { s with rngStale := s.rngStale - 1 }
  else
    match s.rngReq with
    | none => s
    | some hi =>
      if 1 ≤ r ∧ r ≤ hi then { s with rngReq := none, blind := some r } else s

end Sys2Proof.Machine
end

