-- ==== Sys2Proof/Machine/Operands.lean ====
section
/-! DEFINITION. The operand forms of the commands: an integer register, a range of BUF named by two argument registers, a KEY
slot, and the CRT material (rules R22, R54, R57, R98). -/

namespace Sys2Proof.Machine

/-- OP[i] as an integer (rules R14, R54). -/
def State.opNat (s : State) (i : RegIx) : Nat := (s.opReg i).toNat

/-- OP[i] <- v, for v < 2^8192 (rules R14, R54). -/
def State.setOp (s : State) (i : RegIx) (v : Nat) : State := s.setOpReg i (BitVec.ofNat 8192 v)

/-- A KEY slot as an integer (rules R14, R22). -/
def State.keyNat (s : State) (k : RegIx) : Nat := (s.keyReg k).toNat

/-- KEY.N, slot 0. -/
def State.keyN (s : State) : Nat := s.keyNat 0#4

/-- KEY.EXP, slot 1. -/
def State.keyExp (s : State) : Nat := s.keyNat 1#4

/-- KEY.PUBE, slot 2. -/
def State.keyPube (s : State) : Nat := s.keyNat 2#4

/-- KEY.P[i], slot 2 + i, for i in 1..4. -/
def State.keyP (s : State) (i : Nat) : Nat := s.keyNat (BitVec.ofNat 4 (2 + i))

/-- KEY.DX[i], slot 6 + i, for i in 1..4. -/
def State.keyDx (s : State) (i : Nat) : Nat := s.keyNat (BitVec.ofNat 4 (6 + i))

/-- KEY.CF[i], slot 10 + i, for i in 1..4. -/
def State.keyCf (s : State) (i : Nat) : Nat := s.keyNat (BitVec.ofNat 4 (10 + i))

/-- The CRT material of one prime (rule R22). -/
structure CrtPrime where
  p : Nat
  dx : Nat
  cf : Nat
  deriving DecidableEq, Repr

/-- P[i], DX[i] and CF[i] for i in 1..U, in prime order (rules R22, R75). -/
def State.crtPrimes (s : State) : List CrtPrime :=
  (List.range s.keycfg.u.toNat).map fun i => ⟨s.keyP (i + 1), s.keyDx (i + 1), s.keyCf (i + 1)⟩

/-- A range (addr, len) of BUF (rule R98). -/
structure BufRange where
  addr : Nat
  len : Nat
  deriving DecidableEq, Repr

/-- ADDR_A and LEN_A, zero-extended (rule R57). -/
def State.rangeA (s : State) : BufRange := ⟨s.args.addrA.toNat, s.args.lenA.toNat⟩

/-- ADDR_B and LEN_B, zero-extended (rule R57). -/
def State.rangeB (s : State) : BufRange := ⟨s.args.addrB.toNat, s.args.lenB.toNat⟩

/-- ADDR_D and LEN_D, zero-extended (rule R57). -/
def State.rangeD (s : State) : BufRange := ⟨s.args.addrD.toNat, s.args.lenD.toNat⟩

/-- The range lies inside BUF, without wrap-around (rule R98). -/
def BufRange.inBounds (r : BufRange) : Bool := decide (r.addr + r.len ≤ Config.bufSize)

/-- The two ranges share a byte; an empty range overlaps nothing (rule R98). -/
def BufRange.overlaps (r t : BufRange) : Bool :=
  decide (0 < r.len) && decide (0 < t.len) && decide (r.addr < t.addr + t.len) && decide (t.addr < r.addr + r.len)

/-- The bytes of a range of BUF (rule R14). -/
def State.bytesOf (s : State) (r : BufRange) : List Byte := s.buf.readBytes r.addr r.len

end Sys2Proof.Machine
end

