-- ==== Sys2Proof/Machine/Bus.lean ====
section
/-! DEFINITION. The host bus: the address map, which accesses are legal, the control registers, the data windows, and what an
access does while a command runs (20_memory.md, rules R38 to R43; the registers of rules R23 to R33). -/

namespace Sys2Proof.Machine

/-- The number of bytes of an access (rule R15). -/
def Size.bytes : Size → Nat
  | .one => 1
  | .two => 2
  | .four => 4

/-- The control registers (rule R23). -/
inductive CtrlReg where
  | id
  | param
  | ctrl
  | status
  | intStatus
  | intEn
  | cmd
  | keycfg
  | mgfcfg
  | addrA
  | lenA
  | addrB
  | lenB
  | addrD
  | lenD
  deriving DecidableEq, Repr

/-- The register at an offset of the control region; none where the offset is reserved (rules R23, R39). -/
def ctrlRegAt? (off : Nat) : Option CtrlReg :=
  match off with
  | 0x000 => some .id
  | 0x004 => some .param
  | 0x008 => some .ctrl
  | 0x00C => some .status
  | 0x010 => some .intStatus
  | 0x014 => some .intEn
  | 0x018 => some .cmd
  | 0x01C => some .keycfg
  | 0x020 => some .mgfcfg
  | 0x024 => some .addrA
  | 0x028 => some .lenA
  | 0x02C => some .addrB
  | 0x030 => some .lenB
  | 0x034 => some .addrD
  | 0x038 => some .lenD
  | _ => none

/-- What an offset of the window names (rules R38, R39). -/
inductive Region where
  /-- The control region 0x0000 to 0x0FFF. -/
  | control
  /-- BUF[a]. -/
  | buf (a : Nat)
  /-- Byte `b` of the slot of OP[i]. -/
  | op (i : RegIx) (b : Nat)
  /-- Byte `b` of KEY slot `k`, for k below 15. -/
  | key (k : RegIx) (b : Nat)
  /-- A reserved offset of the data class, KEY slot 15 among them. -/
  | reserved
  deriving DecidableEq, Repr

/-- The host window map (rule R38). -/
def regionOf (off : Nat) : Region :=
  if off < 0x1000 then .control
  else if off < 0x2000 then .buf (off - 0x1000)
  else if off < 0x4000 then .reserved
  else if off < 0x8000 then .op (BitVec.ofNat 4 ((off - 0x4000) / 0x400)) ((off - 0x4000) % 0x400)
  else if off < 0xBC00 then .key (BitVec.ofNat 4 ((off - 0x8000) / 0x400)) ((off - 0x8000) % 0x400)
  else .reserved

/-- A legal access: 4 bytes, aligned, in the control class; 1, 2 or 4 bytes, naturally aligned, in the data class
(rule R40). -/
def Access.legal (a : Access) : Bool :=
  if a.offset.toNat < 0x1000 then a.size == .four && a.offset.toNat % 4 == 0
  else a.offset.toNat % a.size.bytes == 0

/-- A control register as the host reads it; reserved bits read 0 (rules R23 to R33). -/
def State.readReg (s : State) : CtrlReg → Word
  | .id => Config.idValue
  | .param => Config.paramValue
  | .ctrl => 0#32
  | .status => s.status.word
  | .intStatus => s.intStatus.setWidth 32
  | .intEn => s.intEn.setWidth 32
  | .cmd => s.cmdLast
  | .keycfg => 0#22 ++ BitVec.ofBool s.keycfg.noBlind ++ BitVec.ofBool s.keycfg.pubeV ++ 0#5 ++ s.keycfg.u
  | .mgfcfg => s.hlen.setWidth 32
  | .addrA => s.args.addrA.setWidth 32
  | .lenA => s.args.lenA.setWidth 32
  | .addrB => s.args.addrB.setWidth 32
  | .lenB => s.args.lenB.setWidth 32
  | .addrD => s.args.addrD.setWidth 32
  | .lenD => s.args.lenD.setWidth 32

/-- A write of a protected configuration register: dropped with ACC_I while BUSY = 1 (rule R43(c)). -/
def State.protectedWrite (s : State) (t : State) : State := if s.status.busy then s.setInt accBit else t

/-- A write of a control register; read-only registers and reserved bits ignore it (rules R23 to R33, R43). -/
def State.writeReg (s : State) (r : CtrlReg) (v : Word) : State :=
  match r with
  | .id => s
  | .param => s
  | .ctrl => s.writeCtrl v
  | .status => s
  | .intStatus => s.clearInt (v.setWidth 4)
  | .intEn => { s with intEn := v.setWidth 4 }
  | .cmd => s.issue v
  | .keycfg => s.protectedWrite { s with keycfg := ⟨v.setWidth 3, v.getLsbD 8, v.getLsbD 9⟩ }
  | .mgfcfg => s.protectedWrite { s with hlen := v.setWidth 7 }
  | .addrA => s.protectedWrite { s with args := { s.args with addrA := v.setWidth 16 } }
  | .lenA => s.protectedWrite { s with args := { s.args with lenA := v.setWidth 16 } }
  | .addrB => s.protectedWrite { s with args := { s.args with addrB := v.setWidth 16 } }
  | .lenB => s.protectedWrite { s with args := { s.args with lenB := v.setWidth 16 } }
  | .addrD => s.protectedWrite { s with args := { s.args with addrD := v.setWidth 16 } }
  | .lenD => s.protectedWrite { s with args := { s.args with lenD := v.setWidth 16 } }

/-- One byte of the data class, as an idle block holds it; a reserved offset reads 0 (rules R38, R39). -/
def State.readByteAt (s : State) (off : Nat) : Byte :=
  match regionOf off with
  | .control => 0#8
  | .buf a => s.buf.read a
  | .op i b => slotByte (s.opReg i) b
  | .key k b => slotByte (s.keyReg k) b
  | .reserved => 0#8

/-- Write one byte of the data class; a reserved offset ignores it (rules R38, R39). -/
def State.writeByteAt (s : State) (off : Nat) (x : Byte) : State :=
  match regionOf off with
  | .control => s
  | .buf a => { s with buf := s.buf.write a x }
  | .op i b => s.setOpReg i (setSlotByte (s.opReg i) b x)
  | .key k b => s.setKeyReg k (setSlotByte (s.keyReg k) b x)
  | .reserved => s

/-- n bytes from `off` as the bus carries them, the byte at off + j in bits 8j+7 to 8j (rule R41). -/
def State.readLanes (s : State) (off : Nat) : Nat → Word
  | 0 => 0#32
  | n + 1 => s.readLanes off n ||| ((s.readByteAt (off + n)).setWidth 32 <<< (8 * n))

/-- Write n bytes from `off`, bits 8j+7 to 8j of the data at off + j (rule R41). -/
def State.writeLanes (s : State) (off : Nat) (v : Word) : Nat → State
  | 0 => s
  | n + 1 => (s.writeLanes off v n).writeByteAt (off + n) (v.extractLsb' (8 * n) 8)

/-- The offset lies in the BUF, OP or KEY window and is not reserved (rules R39, R43). -/
def isWindow (off : Nat) : Bool :=
  match regionOf off with
  | .control => false
  | .buf _ => true
  | .op _ _ => true
  | .key _ _ => true
  | .reserved => false

/-- A legal read: a window read while BUSY = 1 returns 0 and sets ACC_I (rule R43(b)); no other read changes state
(rule R42). -/
def State.legalRead (s : State) (off : Nat) (n : Nat) : State × Word :=
  if off < 0x1000 then
    match ctrlRegAt? off with
    | none => (s, 0#32)
    | some r => (s, s.readReg r)
  else if isWindow off && s.status.busy then (s.setInt accBit, 0#32)
  else (s, s.readLanes off n)

/-- A legal write: a window write while BUSY = 1 is dropped with ACC_I (rule R43(a)). -/
def State.legalWrite (s : State) (off : Nat) (n : Nat) (v : Word) : State :=
  if off < 0x1000 then
    match ctrlRegAt? off with
    | none => s
    | some r => s.writeReg r v
  else if isWindow off && s.status.busy then s.setInt accBit
  else s.writeLanes off v n

/-- The state with the bus's answer recorded for the host. -/
def State.answer (s : State) (resp : Resp) (data : Option Word) : State := { s with reply := some ⟨resp, data⟩ }

/-- One host access. An illegal one is answered with SLVERR, a read with data 0, and changes nothing else (rule R40); every
legal one is answered with OKAY (rules R39, R43). -/
def hostAccess (a : Access) (s : State) : State :=
  match a.dir with
  | .read =>
    if a.legal then
      (s.legalRead a.offset.toNat a.size.bytes).1.answer .okay (some (s.legalRead a.offset.toNat a.size.bytes).2)
    else s.answer .slverr (some 0#32)
  | .write v =>
    if a.legal then (s.legalWrite a.offset.toNat a.size.bytes v).answer .okay none else s.answer .slverr none

/-- An access at a platform address: the block's own if it falls in the 64 KiB window at BASE, otherwise none of the block's
(rules R8, R37; decision D7). -/
def platformAccess (addr : Nat) (size : Size) (dir : Direction) (s : State) : State :=
  if Config.base ≤ addr ∧ addr < Config.base + 0x10000 then
    hostAccess ⟨BitVec.ofNat 16 (addr - Config.base), size, dir⟩ s
  else s

end Sys2Proof.Machine
end

