-- ==== Sys2Proof/Machine/Compare.lean ====
section
/-! DEFINITION. CMP (43_compare.md, rule R84). -/

namespace Sys2Proof.Machine

/-- The accumulator of rule R84: the OR over all byte pairs of their XOR. -/
def diffAcc (bs ts : List Byte) : Byte := (xorBytes bs ts).foldl (· ||| ·) 0#8

/-- The result e of rule R84: false if the lengths differ, otherwise whether the accumulator stayed 0x00. -/
def State.equalRanges (s : State) : Bool :=
  if s.rangeA.len ≠ s.rangeB.len then false else diffAcc (s.bytesOf s.rangeA) (s.bytesOf s.rangeB) == 0#8

/-- CMP (rule R84). EQ is 0 since issue; an error or an abort leaves it 0 (rules R27, R84; log entry 11). -/
def execCmp (s : State) : Host.Outcome State Fault Refusal :=
  .next <|
    if !s.rangeA.inBounds || !s.rangeB.inBounds then (s.setEq false).complete .bufBounds
    else (s.setEq false).finish (·.setEq s.equalRanges)

end Sys2Proof.Machine
end

