-- ==== Sys2Proof/Machine/Mgf1.lean ====
section
/-! DEFINITION. MGF1 over the hash port (44_mgf1.md, rules R85 to R89). One block takes the sequencer two steps, one that sends
the request and one that writes the block, with the hash core's step between them (log entry 6). -/

namespace Sys2Proof.Machine

/-- The checks of rule R88 in their order; none if all pass. MASK_TOO_LONG cannot occur (rule R88, decision D54). -/
def State.mgfCheck (s : State) : Option ErrCode :=
  if !Config.hashLengths.contains s.hlen.toNat then some .hashConfig
  else if !s.rangeA.inBounds || !s.rangeD.inBounds then some .bufBounds
  else if s.rangeA.overlaps s.rangeD then some .bufOverlap
  else if 2 ^ 32 * s.hlen.toNat < s.rangeD.len then some .maskTooLong
  else none

/-- nb, the number of blocks (rule R88). -/
def State.mgfBlocks (s : State) : Nat := ceilDiv s.rangeD.len s.hlen.toNat

/-- The j-th request, S ‖ I2OSP(j, 4) (rule R86). -/
def State.mgfRequest (s : State) (j : Nat) : List Byte := s.bytesOf s.rangeA ++ i2osp j 4

/-- The top of the loop of rule R88 for the next block: with no block left the command completes; otherwise the check point
before the request, then the request. -/
def State.mgfAdvance (s : State) : State :=
  match s.mgfCheck with
  | some c => s.complete c
  | none =>
    if s.mgfBlock < s.mgfBlocks then
      if s.abortPending then s.complete .aborted else s.sendHash s.mgfBlock (s.mgfRequest s.mgfBlock)
    else s.complete .noError

/-- The address of block j in BUF (rule R89). -/
def State.mgfAddr (s : State) (j : Nat) : Nat := s.rangeD.addr + j * s.hlen.toNat

/-- w, the number of bytes of block j: a digest, or what is left of the mask (rule R88). -/
def State.mgfWidth (s : State) (j : Nat) : Nat := min s.hlen.toNat (s.rangeD.len - j * s.hlen.toNat)

/-- T, what block j of the destination becomes for the digest `d` (rule R88). -/
def State.mgfBlockBytes (s : State) (x : Bool) (j : Nat) (d : List Byte) : List Byte :=
  if x then xorBytes (d.take (s.mgfWidth j)) (s.buf.readBytes (s.mgfAddr j) (s.mgfWidth j)) else d.take (s.mgfWidth j)

/-- Write block j for the digest `d` in one step and go on to the next block (rule R89). -/
def State.storeBlock (s : State) (x : Bool) (j : Nat) (d : List Byte) : State :=
  { s.bufWrite (s.mgfAddr j) (s.mgfBlockBytes x j d) with seq := .run s.cmdWord, mgfBlock := j + 1, digest := none }

/-- After a response: the check point, then block j is written in one step (rules R88, R89). Unchanged while the hash core
has not answered (rule R112). -/
def State.mgfResume (s : State) (x : Bool) (j : Nat) : State :=
  match s.digest with
  | none => s
  | some d =>
    if s.abortPending then s.complete .aborted else s.storeBlock x j d

/-- MGF1, with x = FLAGS[0] (rule R88). -/
def execMgf1 (x : Bool) (s : State) : Host.Outcome State Fault Refusal :=
  match s.seq with
  | .idle => .next s.mgfAdvance
  | .run _ => .next s.mgfAdvance
  | .waitHash _ j => .next (s.mgfResume x j)
  | .waitRng _ => .next s.mgfAdvance

end Sys2Proof.Machine
end

