-- ==== Sys2Proof/Machine/Modarith.lean ====
section
/-! DEFINITION. MODRED, MODMUL, MONTMUL, MODEXP (40_modarith.md, rules R65 to R71). -/

namespace Sys2Proof.Machine

/-- The shared shape of the family: EVEN_MODULUS for an even modulus OP[rm], 0 included (rule R66); otherwise commit
`f m` to OP[rd]. -/
def State.modular (s : State) (rd rm : RegIx) (f : Nat → Nat) : State :=
  if s.opNat rm % 2 = 0 then s.complete .evenModulus else s.finish (·.setOp rd (f (s.opNat rm)))

/-- MODRED rd, ra, rm (rule R68). -/
def execModred (rd ra rm : RegIx) (s : State) : Host.Outcome State Fault Refusal :=
  .next (s.modular rd rm fun m => s.opNat ra % m)

/-- MODMUL rd, ra, rb, rm (rule R69). -/
def execModmul (rd ra rb rm : RegIx) (s : State) : Host.Outcome State Fault Refusal :=
  .next (s.modular rd rm fun m => s.opNat ra * s.opNat rb % m)

/-- MONTMUL rd, ra, rb, rm (rule R70). -/
def execMontmul (rd ra rb rm : RegIx) (s : State) : Host.Outcome State Fault Refusal :=
  .next (s.modular rd rm fun m => s.opNat ra * s.opNat rb * montRinv m % m)

/-- MODEXP rd, ra, rb, rm (rule R71). -/
def execModexp (rd ra rb rm : RegIx) (s : State) : Host.Outcome State Fault Refusal :=
  .next (s.modular rd rm fun m => modPow (s.opNat ra) (s.opNat rb) m)

end Sys2Proof.Machine
end

