-- ==== Sys2Proof/Machine/Octet.lean ====
section
/-! DEFINITION. I2OSP and OS2IP (42_octet.md, rules R81, R82). -/

namespace Sys2Proof.Machine

/-- I2OSP ra (rule R81). -/
def execI2osp (ra : RegIx) (s : State) : Host.Outcome State Fault Refusal :=
  .next <|
    if !s.rangeD.inBounds then s.complete .bufBounds
    else if 256 ^ s.rangeD.len ≤ s.opNat ra then s.complete .length
    else s.finish (·.bufWrite s.rangeD.addr (i2osp (s.opNat ra) s.rangeD.len))

/-- OS2IP rd (rule R82). -/
def execOs2ip (rd : RegIx) (s : State) : Host.Outcome State Fault Refusal :=
  .next <|
    if !s.rangeA.inBounds then s.complete .bufBounds
    else if Config.maxBytes < s.rangeA.len then s.complete .length
    else s.finish (·.setOp rd (os2ip (s.bytesOf s.rangeA)))

end Sys2Proof.Machine
end

