-- ==== Sys2Proof/Machine/Rsa.lean ====
section
/-! DEFINITION. RSAEP and RSADP (41_rsa.md, rules R72 to R79). -/

namespace Sys2Proof.Machine

/-- RSAEP rd, ra (rule R74). -/
def execRsaep (rd ra : RegIx) (s : State) : Host.Outcome State Fault Refusal :=
  .next <|
    if s.keyN % 2 = 0 then s.complete .evenModulus
    else if s.keyN ≤ s.opNat ra then s.complete .outOfRange
    else s.finish (·.setOp rd (modPow (s.opNat ra) s.keyExp s.keyN))

/-- Blinding is applied: the public exponent is present and CRT_DISABLE_BLINDING is not signalled (rule R78). -/
def State.blinds (s : State) : Bool := s.keycfg.pubeV && !s.keycfg.noBlind

/-- KEYCFG.U is none of 0, 2, 3, 4 (rule R76). -/
def State.crtConfigBad (s : State) : Bool := [1, 5, 6, 7].contains s.keycfg.u.toNat

/-- A prime is odd and at least 3 (rule R77). -/
def CrtPrime.valid (c : CrtPrime) : Bool := decide (c.p % 2 = 1) && decide (3 ≤ c.p)

/-- pmin, the least of the primes (rule R73). -/
def minPrime : List CrtPrime → Nat
  | [] => 0
  | [c] => c.p
  | c :: cs => min c.p (minPrime cs)

/-- m_i for one prime; with blinding, `blind` holds r and the public exponent, and a factor r with no inverse modulo the
prime gives none (rule R78). -/
def perPrime (x : Nat) (blind : Option (Nat × Nat)) (c : CrtPrime) : Option Nat :=
  match blind with
  | none => some (modPow x c.dx c.p)
  | some (r, e) =>
    if Nat.gcd r c.p = 1 then some (modPow (x * modPow r e c.p % c.p) c.dx c.p * inv r c.p % c.p) else none

/-- The m_i of all primes in prime order, each with its prime; none at the first factor without an inverse (rule R78). -/
def perPrimes (x : Nat) (blind : Option (Nat × Nat)) : List CrtPrime → Option (List (Nat × CrtPrime))
  | [] => some []
  | c :: cs =>
    match perPrime x blind c with
    | none => none
    | some m => (perPrimes x blind cs).map ((m, c) :: ·)

/-- The steps i = 3..u of rule R79: `m` so far, the running product `rc`, and the previous prime. `%` on integers is the floor
remainder for a positive modulus (rule R10). -/
def garnerTail (m rc : Int) (prev : Nat) : List (Nat × CrtPrime) → Int
  | [] => m
  | (mi, c) :: ts => garnerTail (m + rc * prev * (((mi - m) * c.cf) % c.p)) (rc * prev) c.p ts

/-- Garner recombination (rule R79). It is asked for two primes or more only. -/
def garner : List (Nat × CrtPrime) → Int
  | (m1, c1) :: (m2, c2) :: ts => garnerTail (m2 + (((m1 : Int) - m2) * c2.cf % c1.p) * c2.p) c1.p c2.p ts
  | _ => 0

/-- The rest of RSADP once the draw, if any, is there: the m_i, Garner, the width check and the commit
(rules R75, R78, R79). -/
def State.crtFinish (s : State) (rd ra : RegIx) (blind : Option (Nat × Nat)) : State :=
  match perPrimes (s.opNat ra) blind s.crtPrimes with
  | none => s.complete .keyInvalid
  | some ts =>
    if (2 : Int) ^ Config.rbits ≤ garner ts then s.complete .keyInvalid
    else s.finish (·.setOp rd (garner ts).toNat)

/-- RSADP from its start: the checks of rule R75 in their order, then the non-CRT power, the request of a draw, or the CRT
path without blinding. -/
def State.rsadpStart (s : State) (rd ra : RegIx) : State :=
  if s.crtConfigBad then s.complete .keyConfig
  else if s.keyN % 2 = 0 then s.complete .evenModulus
  else if s.keyN ≤ s.opNat ra then s.complete .outOfRange
  else if s.keycfg.u = 0#3 then s.finish (·.setOp rd (modPow (s.opNat ra) s.keyExp s.keyN))
  else if !s.crtPrimes.all CrtPrime.valid then s.complete .keyInvalid
  else if s.blinds then s.requestDraw (minPrime s.crtPrimes - 1)
  else s.crtFinish rd ra none

/-- RSADP while it waits for the RNG: unchanged until the answer, then the blinded CRT path, whose completion step is the
check point for an abort (rules R73, R78, R92, R100; log entry 7). -/
def State.rsadpResume (s : State) (rd ra : RegIx) : State :=
  match s.blind with
  | none => s
  | some r => s.crtFinish rd ra (some (r, s.keyPube))

/-- RSADP rd, ra (rule R75). -/
def execRsadp (rd ra : RegIx) (s : State) : Host.Outcome State Fault Refusal :=
  match s.seq with
  | .idle => .next (s.rsadpStart rd ra)
  | .run _ => .next (s.rsadpStart rd ra)
  | .waitHash _ _ => .next (s.rsadpStart rd ra)
  | .waitRng _ => .next (s.rsadpResume rd ra)

end Sys2Proof.Machine
end

