-- ==== Sys2Proof/Machine/System.lean ====
section
/-! DEFINITION. NOP (45_system.md, rule R91). ABORT and SOFTRST are host writes of CTRL: `State.writeCtrl` in Ops.lean. -/

namespace Sys2Proof.Machine

/-- NOP (rule R91): completion without a commit. -/
def execNop (s : State) : Host.Outcome State Fault Refusal := .next (s.finish fun t => t)

end Sys2Proof.Machine
end

