-- ==== Sys2Proof/Machine/Dispatch.lean ====
section
/-! DEFINITION. The meaning of each command: one sequencer step of it (rules R58, R59). -/

namespace Sys2Proof.Machine

def exec (i : Instr) (s : State) : Host.Outcome State Fault Refusal :=
  match i with
  | .nop => Sys2Proof.Machine.execNop s
  | .modred rd ra rm => Sys2Proof.Machine.execModred rd ra rm s
  | .modmul rd ra rb rm => Sys2Proof.Machine.execModmul rd ra rb rm s
  | .montmul rd ra rb rm => Sys2Proof.Machine.execMontmul rd ra rb rm s
  | .modexp rd ra rb rm => Sys2Proof.Machine.execModexp rd ra rb rm s
  | .rsaep rd ra => Sys2Proof.Machine.execRsaep rd ra s
  | .rsadp rd ra => Sys2Proof.Machine.execRsadp rd ra s
  | .i2osp ra => Sys2Proof.Machine.execI2osp ra s
  | .os2ip rd => Sys2Proof.Machine.execOs2ip rd s
  | .cmp => Sys2Proof.Machine.execCmp s
  | .mgf1 x => Sys2Proof.Machine.execMgf1 x s

end Sys2Proof.Machine
end

