-- ==== Sys2Proof/Machine/Sequencer.lean ====
section
/-! DEFINITION. The sequencer's step, and one move of each agent (rules R9, R35, R44, R97). -/

namespace Sys2Proof.Machine

/-- Run the latched word: a legal command by its meaning, any other word completes with ILLEGAL_CMD
(rules R58, R59, R97). -/
def runWord (w : Word) (s : State) : Host.Outcome State Fault Refusal :=
  match Sys2Proof.decode w with
  | .ok i => exec i s
  | .error _ => .next (s.complete .illegalCmd)

/-- The sequencer's next step: none while idle, otherwise a step of the latched command (rules R35, R59). -/
def sequencerStep (s : State) : Host.Outcome State Fault Refusal :=
  match s.seq with
  | .idle => .next s
  | .run w => runWord w s
  | .waitHash w _ => runWord w s
  | .waitRng w => runWord w s

/-- The write of `v` to INT_STATUS (rule R28). -/
def ackAccess (v : Word) : Access := ⟨0x010#16, .four, .write v⟩

/-- One move of one agent (rules R9, R44). -/
def moveStep (m : Move) (s : State) : Host.Outcome State Fault Refusal :=
  match m with
  | .sequencer => sequencerStep s
  | .host a => .next (hostAccess a s)
  | .platform addr size dir => .next (platformAccess addr size dir s)
  | .ackWithSequencer v => sequencerStep (hostAccess (ackAccess v) s)
  | .hashCore => hashAnswer s
  | .rng r => .next (rngAnswer r s)
  | .reset => .next s.resetBlock

/-- The next move of `moves`, taken off the list; with no move listed the sequencer moves (log entry 1). -/
def nextMove (s : State) : Host.Outcome State Fault Refusal :=
  match s.moves with
  | [] => sequencerStep s
  | m :: ms => moveStep m { s with moves := ms }

/-- The state just after a host wrote `w` to CMD of an idle block, with the sequencer's step next (rule R59; log entry 14). -/
def issueNext (s : State) (w : Word) : State := { s.accept w with moves := .sequencer :: s.moves }

end Sys2Proof.Machine
end

