-- ==== Sys2Proof/Machine/Step.lean ====
section
/-! DEFINITION. One step of the machine, and the placing of a command as the next one to run. -/

namespace Sys2Proof.Machine

/-- One atomic step of one agent (rule R44). -/
def step (s : State) : Host.Outcome State Fault Refusal := nextMove s

/-- `s` with the command word `w` of the opcode table issued, so that the next step runs it (log entry 14). -/
def State.withFetchWord (s : State) (nbits w : Nat) : State := issueNext s (Sys2Proof.tableWord nbits w)

end Sys2Proof.Machine
end

