-- ==== Sys2Proof/Safety.lean ====
section
/-! DEFINITION. The terms claims are stated in: the invariants of RSAX, what a step leaves unchanged, how a command ends, what a
consistent key is, and the end of a run. -/

namespace Sys2Proof.Machine

/-! ### Invariants -/

/-- STATUS says what the sequencer does: BUSY is 1 exactly when seq is not IDLE (rule R35); while busy DONE and ERRCODE are 0;
ERR is 1 exactly when ERRCODE is not NONE (rules R27, R59, R101). -/
def State.StatusCoherent (s : State) : Prop :=
  (s.status.busy = true ↔ s.seq ≠ .idle) ∧
    (s.status.busy = true → s.status.done = false ∧ s.status.errcode = .noError) ∧
      (s.status.err = true ↔ s.status.errcode ≠ .noError)

/-- The hidden state is what the sequencer state allows (rules R35, R85, R89, R101): nothing is left over while idle; a request
is in flight only in its WAIT state; the latched word is CMD_LAST and, in a WAIT state, a command that waits there. -/
def State.SequencerCoherent (s : State) : Prop :=
  match s.seq with
  | .idle =>
    s.abortPending = false ∧ s.mgfBlock = 0 ∧ s.hashReq = none ∧ s.digest = none ∧ s.rngReq = none ∧ s.blind = none
  | .run w => s.cmdLast = w ∧ s.hashReq = none ∧ s.digest = none ∧ s.rngReq = none ∧ s.blind = none
  | .waitHash w j =>
    s.cmdLast = w ∧ (∃ x, Sys2Proof.decode w = .ok (.mgf1 x)) ∧ s.mgfBlock = j ∧
      (s.hashReq.isSome = true ↔ s.digest = none) ∧ s.rngReq = none ∧ s.blind = none
  | .waitRng w =>
    s.cmdLast = w ∧ (∃ rd ra, Sys2Proof.decode w = .ok (.rsadp rd ra)) ∧ s.hashReq = none ∧ s.digest = none ∧
      (s.rngReq.isSome = true ↔ s.blind = none)

/-- The draw in flight asks for a value in [1, pmin − 1], and the blinding factor held is one (rule R73). -/
def State.DrawInRange (s : State) : Prop :=
  (∀ hi, s.rngReq = some hi → hi = minPrime s.crtPrimes - 1) ∧
    (∀ r, s.blind = some r → 1 ≤ r ∧ r ≤ minPrime s.crtPrimes - 1)

/-! ### Frames -/

/-- Every OP register is unchanged. -/
def OpSame (s t : State) : Prop := ∀ k, t.opReg k = s.opReg k

/-- Every OP register but OP[rd] is unchanged. -/
def OpSameBut (rd : RegIx) (s t : State) : Prop := ∀ k, k ≠ rd → t.opReg k = s.opReg k

/-- Every byte of BUF is unchanged. -/
def BufSame (s t : State) : Prop := ∀ a, t.buf.read a = s.buf.read a

/-- Every byte of BUF outside [addr, addr + len) is unchanged. -/
def BufSameOutside (addr len : Nat) (s t : State) : Prop :=
  ∀ a, a < addr ∨ addr + len ≤ a → t.buf.read a = s.buf.read a

/-- Everything no command writes is unchanged: KEY, INT_EN, CMD, KEYCFG, MGFCFG, the argument registers, and the fields of the
environment. -/
def RestSame (s t : State) : Prop :=
  (∀ k, t.keyReg k = s.keyReg k) ∧ t.intEn = s.intEn ∧ t.cmdLast = s.cmdLast ∧ t.keycfg = s.keycfg ∧ t.hlen = s.hlen ∧
    t.args = s.args ∧ t.hashStale = s.hashStale ∧ t.rngStale = s.rngStale ∧ t.reply = s.reply ∧ t.moves = s.moves

/-- The running command goes on: STATUS, INT_STATUS and abort_pending are unchanged. -/
def StillRunning (s t : State) : Prop :=
  t.status = s.status ∧ t.intStatus = s.intStatus ∧ t.abortPending = s.abortPending

/-- The register a command writes, if it writes one (rule R53). -/
def destOf : Instr → Option RegIx
  | .nop => none
  | .modred rd _ _ => some rd
  | .modmul rd _ _ _ => some rd
  | .montmul rd _ _ _ => some rd
  | .modexp rd _ _ _ => some rd
  | .rsaep rd _ => some rd
  | .rsadp rd _ => some rd
  | .i2osp _ => none
  | .os2ip rd => some rd
  | .cmp => none
  | .mgf1 _ => none

/-- The command writes BUF: I2OSP and MGF1, each in the range ADDR_D, LEN_D (rule R21). -/
def writesBuf : Instr → Bool
  | .i2osp _ => true
  | .mgf1 _ => true
  | _ => false

/-! ### How a command ends -/

/-- The completion step with code `c`, from `s` to `t` (rule R101). -/
def Completed (c : ErrCode) (s t : State) : Prop :=
  t.status.busy = false ∧ t.status.done = true ∧ (t.status.err = true ↔ c ≠ .noError) ∧ t.status.errcode = c ∧
    t.intStatus = s.intStatus ||| (if c = .noError then 0x1#4 else 0x3#4) ∧ t.abortPending = false ∧ t.seq = .idle ∧
      t.hashReq = none ∧ t.rngReq = none ∧ t.digest = none ∧ t.blind = none ∧ t.mgfBlock = 0

/-- The command completes with code `c` and writes nothing. -/
def EndsWith (c : ErrCode) (s t : State) : Prop :=
  Completed c s t ∧ OpSame s t ∧ BufSame s t ∧ RestSame s t ∧ t.status.eq = s.status.eq

/-- The command completes without error, OP[rd] holds `v`, and nothing else is written. -/
def CommitsOp (rd : RegIx) (v : Nat) (s t : State) : Prop :=
  Completed .noError s t ∧ t.opNat rd = v ∧ OpSameBut rd s t ∧ BufSame s t ∧ RestSame s t ∧ t.status.eq = s.status.eq

/-- The command's checks have passed: it commits `v` to OP[rd], or ends with ABORTED if an abort is pending (rules R60, R92). -/
def CommitsOrAborts (rd : RegIx) (v : Nat) (s t : State) : Prop :=
  if s.abortPending then EndsWith .aborted s t else CommitsOp rd v s t

/-! ### The RSA key -/

/-- The CRT material satisfies the conditions of rule R80 for the exponents `e` and `d`: odd primes with product N, e·DX[i] ≡ 1
and DX[i] = d modulo P[i] − 1, and the coefficients of rule R22. -/
def State.KeyConsistent (s : State) (e d : Nat) : Prop :=
  (∀ c ∈ s.crtPrimes, Nat.Prime c.p ∧ 3 ≤ c.p ∧ e * c.dx ≡ 1 [MOD c.p - 1] ∧ c.dx = d % (c.p - 1)) ∧
    s.keyN = (s.crtPrimes.map CrtPrime.p).prod ∧
      s.keyCf 2 * s.keyP 2 ≡ 1 [MOD s.keyP 1] ∧
        ∀ i, 3 ≤ i → i ≤ s.keycfg.u.toNat →
          s.keyCf i * ((s.crtPrimes.take (i - 1)).map CrtPrime.p).prod ≡ 1 [MOD s.keyP i]

/-! ### MGF1 over many steps -/

/-- The state once the hash core has answered with the digest `d` (rule R85). -/
def State.respond (s : State) (d : List Byte) : State := { s with hashReq := none, digest := some d }

/-- `n` rounds of MGF1 lead from `s` to `t`: in each the sequencer sends S ‖ I2OSP(j, 4), the hash core answers D j, and the
sequencer writes block j (rules R86, R88, R89). -/
def MgfRounds (x : Bool) (D : Nat → List Byte) (s : State) : Nat → State → Prop
  | 0, t => t = s
  | n + 1, t => ∃ a b, MgfRounds x D s n a ∧ exec (.mgf1 x) a = .next b ∧
      b.hashReq = some (s.bytesOf s.rangeA ++ i2osp n 4) ∧ exec (.mgf1 x) (b.respond (D n)) = .next t

/-! ### Runs -/

/-- The next move is the sequencer's (log entry 1). -/
def State.SequencerNext (s : State) : Prop := s.moves.head? = none ∨ s.moves.head? = some .sequencer

/-- The command word the sequencer holds (rule R35). -/
def State.holds? (s : State) : Option Word :=
  match s.seq with
  | .idle => none
  | .run w => some w
  | .waitHash w _ => some w
  | .waitRng w => some w

/-- The move is an access of the host program (rule R51). -/
def Move.isAccess : Move → Bool
  | .sequencer => false
  | .host _ => true
  | .platform _ _ _ => true
  | .ackWithSequencer _ => true
  | .hashCore => false
  | .rng _ => false
  | .reset => false

/-- The end of a run: the host has no access left and no command runs (rule R114). -/
def State.RunEnded (s : State) : Prop := s.status.busy = false ∧ ∀ m ∈ s.moves, m.isAccess = false

end Sys2Proof.Machine
end

