-- ==== Sys2Proof/Certificates/Slice0/Obligations.lean ====
section
/-! DEFINITION. The statements for the provers, each a rule of spec/ or a consequence of several. -/

open Sys2Proof Sys2Proof.Machine

/-! ### Encoding (30_encoding.md) -/

/-- Rules R52, R58, R63: the decoder reads back every command from its word, with every operand. -/
def Obligations.EncodedCommandDecodesToItself : Prop := ∀ i : Instr, decode (encode i) = .ok i

/-- Rules R52, R58: a command has one word only; a word that decodes is the word of its command. -/
def Obligations.DecodedWordIsTheEncoding : Prop := ∀ (w : Word) (i : Instr), decode w = .ok i → encode i = w

/-- Rule R56: the case analysis of R58 accepts exactly the words the zero-field rule calls legal; any other word that runs completes with
ILLEGAL_CMD. -/
def Obligations.LegalWordsAreTheWellFormedOnes : Prop :=
  ∀ w : Word, ((∃ i, decode w = .ok i) ↔ (fieldsOf w).wellFormed = true) ∧
    ((fieldsOf w).wellFormed = false → ∀ s : State, s.seq = .run w →
      ∃ t, sequencerStep s = .next t ∧ Completed .illegalCmd s t)

/-- Words written out from the encoding table decode to the commands they stand for (vectors ENC-2, 5, 8, 10, 13, 14, 17). -/
def Obligations.SpecWordsDecode : Prop :=
  decode 0x00001201#32 = .ok (.modred 2 1 0) ∧ decode 0x00021304#32 = .ok (.modexp 3 1 2 0) ∧
    decode 0x00001209#32 = .ok (.rsadp 2 1) ∧ decode 0x00000411#32 = .ok (.os2ip 4) ∧
      decode 0x01000020#32 = .ok (.mgf1 true) ∧ decode 0x02000020#32 = .error .unusedField ∧
        decode 0x00000040#32 = .error .reservedBits

/-! ### Steps, issue and completion -/

/-- A step runs the decoded command: when the next move is the sequencer's and the word it holds decodes to `i`, the step is
`exec i`, after the move is taken off the list (rules R35, R58, R59). -/
def Obligations.StepRunsTheDecodedCommand : Prop :=
  ∀ (s : State) (w : Word) (i : Instr), s.SequencerNext → s.holds? = some w → decode w = .ok i →
    step s = exec i { s with moves := s.moves.tail }

/-- Rule R97: a word that decodes to ILLEGAL completes with ILLEGAL_CMD in the sequencer's first step after issue and writes no storage,
whatever the operands hold; the issue itself changes no storage and clears EQ only when OPC = 0x18. -/
def Obligations.IllegalWordCompletesWithIllegalCmd : Prop :=
  ∀ (s : State) (w : Word) (r : Reject), decode w = .error r →
    (s.seq = .idle → ∃ t, moveStep (.host ⟨0x018#16, .four, .write w⟩) s = .next t ∧ t.seq = .run w ∧
      t.status.eq = (if w.extractLsb' 0 6 = 0x18#6 then false else s.status.eq) ∧ OpSame s t ∧ BufSame s t ∧
      ∀ k, t.keyReg k = s.keyReg k) ∧
    (s.SequencerNext → s.seq = .run w →
      ∃ t, step s = .next t ∧ EndsWith .illegalCmd { s with moves := s.moves.tail } t)

/-- Rule R59: a legal write of CMD issues the word while idle and is dropped with OVR_I otherwise; the sequencer decodes an issued word
in its next step and executes the command's rule, or completes with ILLEGAL_CMD. -/
def Obligations.CmdWriteIssuesOrIsDropped : Prop :=
  ∀ (s : State) (w : Word), ∃ t, moveStep (.host ⟨0x018#16, .four, .write w⟩) s = .next t ∧
    t.reply = some ⟨.okay, none⟩ ∧
    (s.seq ≠ .idle → t = { s with intStatus := s.intStatus ||| 0x4#4, reply := some ⟨.okay, none⟩ }) ∧
    (s.seq = .idle →
      t.cmdLast = w ∧ t.status.done = false ∧ t.status.err = false ∧ t.status.errcode = .noError ∧
        t.status.eq = (if w.extractLsb' 0 6 = 0x18#6 then false else s.status.eq) ∧ t.abortPending = false ∧
        t.status.busy = true ∧ t.seq = .run w ∧ t.intStatus = s.intStatus ∧ OpSame s t ∧ BufSame s t ∧
        (∀ k, t.keyReg k = s.keyReg k) ∧ t.intEn = s.intEn ∧ t.keycfg = s.keycfg ∧ t.hlen = s.hlen ∧ t.args = s.args ∧
        (∀ i, decode w = .ok i → sequencerStep t = exec i t) ∧
        (∀ r, decode w = .error r → ∃ u, sequencerStep t = .next u ∧ Completed .illegalCmd t u))

/-- Rule R101: when a sequencer step returns the block to idle, that step is a completion, with one code. -/
def Obligations.LeavingRunIsACompletion : Prop :=
  ∀ s t : State, s.seq ≠ .idle → sequencerStep s = .next t → t.seq = .idle → ∃ c, Completed c s t

/-- Rule R112: every command but MGF1 and RSADP completes in one sequencer step, whatever the state. -/
def Obligations.CommandsWithoutAgentsCompleteInOneStep : Prop :=
  ∀ (i : Instr) (s : State), (∀ x, i ≠ .mgf1 x) → (∀ rd ra, i ≠ .rsadp rd ra) →
    ∃ t c, exec i s = .next t ∧ Completed c s t

/-! ### The commands -/

/-- Rule R91: NOP completes without error, or with ABORTED if an abort is pending, and writes no storage. -/
def Obligations.NopOnlyCompletes : Prop :=
  ∀ s : State, encode .nop = 0x00000000#32 ∧
    (s.abortPending = false → ∃ t, exec .nop s = .next t ∧ EndsWith .noError s t) ∧
    (s.abortPending = true → ∃ t, exec .nop s = .next t ∧ EndsWith .aborted s t)

/-- Rule R68: MODRED's encoding; EVEN_MODULUS for an even modulus, 0 included; then ABORTED if an abort is pending; otherwise it commits
OP[ra] mod OP[rm]. -/
def Obligations.ModredReducesModuloAnOddModulus : Prop :=
  ∀ (rd ra rm : RegIx) (s : State),
    encode (.modred rd ra rm) &&& 0xFF0F00FF#32 = 0x00000001#32 ∧
    (s.opNat rm % 2 = 0 → ∃ t, exec (.modred rd ra rm) s = .next t ∧ EndsWith .evenModulus s t) ∧
    (s.opNat rm % 2 = 1 → s.abortPending = true → ∃ t, exec (.modred rd ra rm) s = .next t ∧ EndsWith .aborted s t) ∧
    (s.opNat rm % 2 = 1 → s.abortPending = false →
      ∃ t, exec (.modred rd ra rm) s = .next t ∧ CommitsOp rd (s.opNat ra % s.opNat rm) s t)

/-- Rule R69: MODMUL's encoding; EVEN_MODULUS for an even modulus, 0 included; then ABORTED if an abort is pending; otherwise it commits
the exact product OP[ra]·OP[rb] mod OP[rm]. -/
def Obligations.ModmulMultipliesModuloAnOddModulus : Prop :=
  ∀ (rd ra rb rm : RegIx) (s : State),
    encode (.modmul rd ra rb rm) &&& 0xFF0000FF#32 = 0x00000002#32 ∧
    (s.opNat rm % 2 = 0 → ∃ t, exec (.modmul rd ra rb rm) s = .next t ∧ EndsWith .evenModulus s t) ∧
    (s.opNat rm % 2 = 1 → s.abortPending = true → ∃ t, exec (.modmul rd ra rb rm) s = .next t ∧ EndsWith .aborted s t) ∧
    (s.opNat rm % 2 = 1 → s.abortPending = false →
      ∃ t, exec (.modmul rd ra rb rm) s = .next t ∧ CommitsOp rd (s.opNat ra * s.opNat rb % s.opNat rm) s t)

/-- Rules R67, R70: MONTMUL's encoding, EVEN_MODULUS, ABORTED, and the commit. The result v is the one number below m with v·R ≡ a·b
modulo m, R = 2^8192; since R is invertible modulo m, that is a·b·R^{-1} mod m. -/
def Obligations.MontmulIsTheMontgomeryProduct : Prop :=
  ∀ (rd ra rb rm : RegIx) (s : State),
    encode (.montmul rd ra rb rm) &&& 0xFF0000FF#32 = 0x00000003#32 ∧
    (s.opNat rm % 2 = 0 → ∃ t, exec (.montmul rd ra rb rm) s = .next t ∧ EndsWith .evenModulus s t) ∧
    (s.opNat rm % 2 = 1 → s.abortPending = true → ∃ t, exec (.montmul rd ra rb rm) s = .next t ∧ EndsWith .aborted s t) ∧
    (s.opNat rm % 2 = 1 → s.abortPending = false →
      ∃ t v, exec (.montmul rd ra rb rm) s = .next t ∧ CommitsOp rd v s t ∧ v < s.opNat rm ∧
        v * 2 ^ 8192 ≡ s.opNat ra * s.opNat rb [MOD s.opNat rm] ∧
        ∀ y, 2 ^ 8192 * y ≡ 1 [MOD s.opNat rm] → v = s.opNat ra * s.opNat rb * y % s.opNat rm)

/-- Rule R71, but for its remark on latency: MODEXP's encoding; EVEN_MODULUS for an even modulus, 0 included; then ABORTED if an abort is
pending; otherwise it commits OP[ra]^OP[rb] mod OP[rm], with x^0 = 1 for every x. -/
def Obligations.ModexpIsTheExactPower : Prop :=
  ∀ (rd ra rb rm : RegIx) (s : State),
    encode (.modexp rd ra rb rm) &&& 0xFF0000FF#32 = 0x00000004#32 ∧
    (s.opNat rm % 2 = 0 → ∃ t, exec (.modexp rd ra rb rm) s = .next t ∧ EndsWith .evenModulus s t) ∧
    (s.opNat rm % 2 = 1 → s.abortPending = true → ∃ t, exec (.modexp rd ra rb rm) s = .next t ∧ EndsWith .aborted s t) ∧
    (s.opNat rm % 2 = 1 → s.abortPending = false →
      ∃ t, exec (.modexp rd ra rb rm) s = .next t ∧ CommitsOp rd (s.opNat ra ^ s.opNat rb % s.opNat rm) s t)

/-- Rule R74: RSAEP's encoding; EVEN_MODULUS, OUT_OF_RANGE and ABORTED in this order; otherwise it commits OP[ra]^EXP mod N. -/
def Obligations.RsaepChecksThenRaisesToExp : Prop :=
  ∀ (rd ra : RegIx) (s : State),
    encode (.rsaep rd ra) &&& 0xFFFF00FF#32 = 0x00000008#32 ∧
    (s.keyN % 2 = 0 → ∃ t, exec (.rsaep rd ra) s = .next t ∧ EndsWith .evenModulus s t) ∧
    (s.keyN % 2 = 1 → s.keyN ≤ s.opNat ra → ∃ t, exec (.rsaep rd ra) s = .next t ∧ EndsWith .outOfRange s t) ∧
    (s.keyN % 2 = 1 → s.opNat ra < s.keyN → s.abortPending = true →
      ∃ t, exec (.rsaep rd ra) s = .next t ∧ EndsWith .aborted s t) ∧
    (s.keyN % 2 = 1 → s.opNat ra < s.keyN → s.abortPending = false →
      ∃ t, exec (.rsaep rd ra) s = .next t ∧ CommitsOp rd (s.opNat ra ^ s.keyExp % s.keyN) s t)

/-- Rule R76: U in 1, 5, 6, 7 raises KEY_CONFIG whatever the operands hold; U = 0, 2, 3, 4 never does, and means that many primes. -/
def Obligations.RsadpRejectsIllegalU : Prop :=
  ∀ (rd ra : RegIx) (s : State), (∀ w, s.seq ≠ .waitRng w) →
    ((s.keycfg.u = 1#3 ∨ s.keycfg.u = 5#3 ∨ s.keycfg.u = 6#3 ∨ s.keycfg.u = 7#3) →
      ∃ t, exec (.rsadp rd ra) s = .next t ∧ EndsWith .keyConfig s t) ∧
    ((s.keycfg.u = 0#3 ∨ s.keycfg.u = 2#3 ∨ s.keycfg.u = 3#3 ∨ s.keycfg.u = 4#3) → s.status.errcode = .noError →
      s.crtPrimes.length = s.keycfg.u.toNat ∧
        ∃ t, exec (.rsadp rd ra) s = .next t ∧ t.status.errcode ≠ .keyConfig)

/-- Rules R75, R77, R100: with a legal U, RSADP checks the parity of N, then the range of its input, then (for U ≥ 2) the primes,
in this order, before any draw. -/
def Obligations.RsadpChecksInOrder : Prop :=
  ∀ (rd ra : RegIx) (s : State), (∀ w, s.seq ≠ .waitRng w) →
    (s.keycfg.u = 0#3 ∨ s.keycfg.u = 2#3 ∨ s.keycfg.u = 3#3 ∨ s.keycfg.u = 4#3) →
      (s.keyN % 2 = 0 → ∃ t, exec (.rsadp rd ra) s = .next t ∧ EndsWith .evenModulus s t) ∧
      (s.keyN % 2 = 1 → s.keyN ≤ s.opNat ra → ∃ t, exec (.rsadp rd ra) s = .next t ∧ EndsWith .outOfRange s t) ∧
      (s.keyN % 2 = 1 → s.opNat ra < s.keyN → s.keycfg.u ≠ 0#3 →
        (∃ i, 1 ≤ i ∧ i ≤ s.keycfg.u.toNat ∧ (s.keyP i % 2 = 0 ∨ s.keyP i < 3)) →
          ∃ t, exec (.rsadp rd ra) s = .next t ∧ EndsWith .keyInvalid s t)

/-- Rules R72, R75: with U = 0 RSADP is x^EXP mod N with no CRT. -/
def Obligations.RsadpWithoutCrtMaterial : Prop :=
  ∀ (rd ra : RegIx) (s : State), (∀ w, s.seq ≠ .waitRng w) → s.keycfg.u = 0#3 → s.keyN % 2 = 1 → s.opNat ra < s.keyN →
    (s.abortPending = true → ∃ t, exec (.rsadp rd ra) s = .next t ∧ EndsWith .aborted s t) ∧
    (s.abortPending = false →
      ∃ t, exec (.rsadp rd ra) s = .next t ∧ CommitsOp rd (s.opNat ra ^ s.keyExp % s.keyN) s t)

/-- Rules R73, R78: with CRT material, the public exponent present and blinding not disabled, RSADP's checks pass into one request
for a draw in [1, pmin − 1], pmin the least of P[1..U]; nothing else changes. -/
def Obligations.RsadpAsksForOneDraw : Prop :=
  ∀ (rd ra : RegIx) (w : Word) (s : State), s.seq = .run w →
    (s.keycfg.u = 2#3 ∨ s.keycfg.u = 3#3 ∨ s.keycfg.u = 4#3) → s.keyN % 2 = 1 → s.opNat ra < s.keyN →
    (∀ i, 1 ≤ i → i ≤ s.keycfg.u.toNat → s.keyP i % 2 = 1 ∧ 3 ≤ s.keyP i) →
    s.keycfg.pubeV = true → s.keycfg.noBlind = false →
      ∃ t pmin, exec (.rsadp rd ra) s = .next t ∧ t.seq = .waitRng w ∧ t.rngReq = some (pmin - 1) ∧ t.blind = none ∧
        (∃ i, 1 ≤ i ∧ i ≤ s.keycfg.u.toNat ∧ pmin = s.keyP i) ∧
        (∀ i, 1 ≤ i → i ≤ s.keycfg.u.toNat → pmin ≤ s.keyP i) ∧
        OpSame s t ∧ BufSame s t ∧ RestSame s t ∧ StillRunning s t ∧ t.hashReq = s.hashReq ∧ t.digest = s.digest

/-- Rules R75, R78, R79, R100: with CRT material and no blinding, RSADP raises KEY_INVALID if the Garner value of the residues
x^DX[i] mod P[i] does not fit a slot, then ABORTED if an abort is pending; otherwise it commits that value. -/
def Obligations.RsadpWithoutBlindingCommitsGarner : Prop :=
  ∀ (rd ra : RegIx) (s : State), (∀ w, s.seq ≠ .waitRng w) →
    (s.keycfg.u = 2#3 ∨ s.keycfg.u = 3#3 ∨ s.keycfg.u = 4#3) → s.keyN % 2 = 1 → s.opNat ra < s.keyN →
    (∀ i, 1 ≤ i → i ≤ s.keycfg.u.toNat → s.keyP i % 2 = 1 ∧ 3 ≤ s.keyP i) →
    (s.keycfg.pubeV = false ∨ s.keycfg.noBlind = true) →
    ∀ m : Int, m = garner (s.crtPrimes.map fun c => (s.opNat ra ^ c.dx % c.p, c)) →
      (2 ^ 8192 ≤ m → ∃ t, exec (.rsadp rd ra) s = .next t ∧ EndsWith .keyInvalid s t) ∧
      (m < 2 ^ 8192 → s.abortPending = true → ∃ t, exec (.rsadp rd ra) s = .next t ∧ EndsWith .aborted s t) ∧
      (m < 2 ^ 8192 → s.abortPending = false → ∃ t, exec (.rsadp rd ra) s = .next t ∧ CommitsOp rd m.toNat s t)

/-- Rules R75, R78, R79, R100: once the draw r has come, a prime with gcd(r, P[i]) ≠ 1 raises KEY_INVALID, and so does a Garner value of
the blinded residues that does not fit a slot; then ABORTED if an abort is pending; otherwise RSADP commits that value. -/
def Obligations.RsadpWithBlindingCommitsGarner : Prop :=
  ∀ (rd ra : RegIx) (w : Word) (r : Nat) (s : State), s.seq = .waitRng w → s.blind = some r →
    ∀ m : Int, m = garner (s.crtPrimes.map fun c =>
      (((s.opNat ra * (r ^ s.keyPube % c.p) % c.p) ^ c.dx % c.p) * inv r c.p % c.p, c)) →
      ((∃ c ∈ s.crtPrimes, Nat.gcd r c.p ≠ 1) → ∃ t, exec (.rsadp rd ra) s = .next t ∧ EndsWith .keyInvalid s t) ∧
      ((∀ c ∈ s.crtPrimes, Nat.gcd r c.p = 1) → 2 ^ 8192 ≤ m →
        ∃ t, exec (.rsadp rd ra) s = .next t ∧ EndsWith .keyInvalid s t) ∧
      ((∀ c ∈ s.crtPrimes, Nat.gcd r c.p = 1) → m < 2 ^ 8192 → s.abortPending = true →
        ∃ t, exec (.rsadp rd ra) s = .next t ∧ EndsWith .aborted s t) ∧
      ((∀ c ∈ s.crtPrimes, Nat.gcd r c.p = 1) → m < 2 ^ 8192 → s.abortPending = false →
        ∃ t, exec (.rsadp rd ra) s = .next t ∧ CommitsOp rd m.toNat s t)

/-- Rule R79: Garner's value lies in [0, ∏ p_i) and has every residue m_i, when each CF[i] is the inverse the key format gives. -/
def Obligations.GarnerHasEveryResidue : Prop :=
  ∀ (m1 m2 : Nat) (c1 c2 : CrtPrime) (ts : List (Nat × CrtPrime)),
    ∀ all, all = (m1, c1) :: (m2, c2) :: ts →
    (∀ t ∈ all, 0 < t.2.p ∧ t.1 < t.2.p) →
    c2.cf * c2.p ≡ 1 [MOD c1.p] →
    (∀ (pre post : List (Nat × CrtPrime)) (t : Nat × CrtPrime), all = pre ++ t :: post → 2 ≤ pre.length →
      t.2.cf * (pre.map fun u => u.2.p).prod ≡ 1 [MOD t.2.p]) →
      0 ≤ garner all ∧ garner all < ((all.map fun t => t.2.p).prod : Nat) ∧
        ∀ t ∈ all, garner all ≡ (t.1 : Int) [ZMOD (t.2.p : Int)]

/-- Rule R80, first part: for a prime P with PUBE·DX ≡ 1 modulo P − 1, blinding with any r in [1, P − 1] cancels. -/
def Obligations.BlindingCancels : Prop :=
  ∀ (x r e : Nat) (c : CrtPrime), Nat.Prime c.p → e * c.dx ≡ 1 [MOD c.p - 1] → 1 ≤ r → r < c.p →
    perPrime x (some (r, e)) c = some (x ^ c.dx % c.p)

/-- Rule R80: RSADP commits x^d mod N, or ends with ABORTED if an abort is pending: on the non-CRT path for KEY.EXP = d, on the CRT path
without blinding for a consistent key, PUBE loaded or not, and with blinding for every draw when KEY.PUBE is the key's e. -/
def Obligations.ConsistentKeyGivesThePower : Prop :=
  ∀ (rd ra : RegIx) (s : State) (e d : Nat), s.opNat ra < s.keyN →
    ((∀ w, s.seq ≠ .waitRng w) → s.keycfg.u = 0#3 → s.keyN % 2 = 1 → s.keyExp = d →
      ∃ t, exec (.rsadp rd ra) s = .next t ∧ CommitsOrAborts rd (s.opNat ra ^ d % s.keyN) s t) ∧
    (s.KeyConsistent e d → (s.keycfg.u = 2#3 ∨ s.keycfg.u = 3#3 ∨ s.keycfg.u = 4#3) →
      ((∀ w, s.seq ≠ .waitRng w) → s.keycfg.pubeV = false ∨ s.keycfg.noBlind = true →
        ∃ t, exec (.rsadp rd ra) s = .next t ∧ CommitsOrAborts rd (s.opNat ra ^ d % s.keyN) s t) ∧
      (∀ (w : Word) (r : Nat), s.seq = .waitRng w → s.blind = some r → s.keyPube = e → 1 ≤ r →
        (∀ c ∈ s.crtPrimes, r < c.p) →
          ∃ t, exec (.rsadp rd ra) s = .next t ∧ CommitsOrAborts rd (s.opNat ra ^ d % s.keyN) s t))

/-- Rules R92, R100: with an abort pending when the RNG answers, the command takes the answer, makes the checks that need it, and
completes in its next step with KEY_INVALID if one fails and with ABORTED otherwise; the value is discarded, and nothing is written
(log entry 7). -/
def Obligations.AbortedDrawIsDiscarded : Prop :=
  ∀ (rd ra : RegIx) (w : Word) (r hi : Nat) (s : State), s.seq = .waitRng w → s.abortPending = true → s.rngStale = 0 →
    s.rngReq = some hi → 1 ≤ r → r ≤ hi →
    ∀ m : Int, m = garner (s.crtPrimes.map fun c =>
      (((s.opNat ra * (r ^ s.keyPube % c.p) % c.p) ^ c.dx % c.p) * inv r c.p % c.p, c)) →
      ∃ t u, moveStep (.rng r) s = .next t ∧ exec (.rsadp rd ra) t = .next u ∧ u.blind = none ∧
        EndsWith (if (∃ c ∈ s.crtPrimes, Nat.gcd r c.p ≠ 1) ∨ 2 ^ 8192 ≤ m then .keyInvalid else .aborted) s u

/-- Rule R81: I2OSP's encoding; BUF_BOUNDS, LENGTH and ABORTED in this order, with nothing written; otherwise it writes the LEN_D big-endian
bytes of OP[ra] at ADDR_D and no other byte. -/
def Obligations.I2ospWritesTheBigEndianBytes : Prop :=
  ∀ (ra : RegIx) (s : State),
    encode (.i2osp ra) &&& 0xFFFF0FFF#32 = 0x00000010#32 ∧
    (4096 < s.args.addrD.toNat + s.args.lenD.toNat →
      ∃ t, exec (.i2osp ra) s = .next t ∧ EndsWith .bufBounds s t) ∧
    (s.args.addrD.toNat + s.args.lenD.toNat ≤ 4096 → 256 ^ s.args.lenD.toNat ≤ s.opNat ra →
      ∃ t, exec (.i2osp ra) s = .next t ∧ EndsWith .length s t) ∧
    (s.args.addrD.toNat + s.args.lenD.toNat ≤ 4096 → s.opNat ra < 256 ^ s.args.lenD.toNat → s.abortPending = true →
      ∃ t, exec (.i2osp ra) s = .next t ∧ EndsWith .aborted s t) ∧
    (s.args.addrD.toNat + s.args.lenD.toNat ≤ 4096 → s.opNat ra < 256 ^ s.args.lenD.toNat → s.abortPending = false →
      s.buf.wf = true →
        ∃ t, exec (.i2osp ra) s = .next t ∧ Completed .noError s t ∧ OpSame s t ∧ RestSame s t ∧
          t.status.eq = s.status.eq ∧ BufSameOutside s.args.addrD.toNat s.args.lenD.toNat s t ∧
          ∀ j, j < s.args.lenD.toNat →
            (t.buf.read (s.args.addrD.toNat + j)).toNat = s.opNat ra / 256 ^ (s.args.lenD.toNat - 1 - j) % 256)

/-- Rule R82: OS2IP's encoding; BUF_BOUNDS, LENGTH (whatever the bytes are) and ABORTED in this order, with nothing written; otherwise it
commits the big-endian value of the LEN_A bytes at ADDR_A. -/
def Obligations.Os2ipReadsTheBigEndianValue : Prop :=
  ∀ (rd : RegIx) (s : State),
    encode (.os2ip rd) &&& 0xFFFFF0FF#32 = 0x00000011#32 ∧
    (4096 < s.args.addrA.toNat + s.args.lenA.toNat →
      ∃ t, exec (.os2ip rd) s = .next t ∧ EndsWith .bufBounds s t) ∧
    (s.args.addrA.toNat + s.args.lenA.toNat ≤ 4096 → 1024 < s.args.lenA.toNat →
      ∃ t, exec (.os2ip rd) s = .next t ∧ EndsWith .length s t) ∧
    (s.args.addrA.toNat + s.args.lenA.toNat ≤ 4096 → s.args.lenA.toNat ≤ 1024 → s.abortPending = true →
      ∃ t, exec (.os2ip rd) s = .next t ∧ EndsWith .aborted s t) ∧
    (s.args.addrA.toNat + s.args.lenA.toNat ≤ 4096 → s.args.lenA.toNat ≤ 1024 → s.abortPending = false →
      ∃ t, exec (.os2ip rd) s = .next t ∧
        CommitsOp rd (∑ j ∈ Finset.range s.args.lenA.toNat,
          (s.buf.read (s.args.addrA.toNat + j)).toNat * 256 ^ (s.args.lenA.toNat - 1 - j)) s t)

/-- Rule R83: OS2IP of a string of at most 1024 bytes, then I2OSP at the string's length, reproduce the string. -/
def Obligations.OctetStringRoundTrip : Prop :=
  ∀ (r : RegIx) (s : State), s.buf.wf = true → s.abortPending = false → s.args.lenA.toNat ≤ 1024 →
    s.args.addrA.toNat + s.args.lenA.toNat ≤ 4096 → s.args.addrD.toNat + s.args.lenA.toNat ≤ 4096 →
    s.args.lenD = s.args.lenA →
      ∃ t u, exec (.os2ip r) s = .next t ∧ exec (.i2osp r) t = .next u ∧ u.status.errcode = .noError ∧
        ∀ j, j < s.args.lenA.toNat → u.buf.read (s.args.addrD.toNat + j) = s.buf.read (s.args.addrA.toNat + j)

/-- Rule R84, but for its remark on timing: CMP sets EQ exactly when both strings have one length and the same bytes; an error or an abort
leaves EQ 0, in the model by clearing it (log entry 11). -/
def Obligations.CmpComparesAllBytes : Prop :=
  ∀ s : State, encode .cmp = 0x00000018#32 ∧
    ((4096 < s.args.addrA.toNat + s.args.lenA.toNat ∨ 4096 < s.args.addrB.toNat + s.args.lenB.toNat) →
      ∃ t, exec .cmp s = .next t ∧ Completed .bufBounds s t ∧ t.status.eq = false ∧ OpSame s t ∧ BufSame s t ∧
        RestSame s t) ∧
    (s.args.addrA.toNat + s.args.lenA.toNat ≤ 4096 → s.args.addrB.toNat + s.args.lenB.toNat ≤ 4096 →
      s.abortPending = true →
        ∃ t, exec .cmp s = .next t ∧ Completed .aborted s t ∧ t.status.eq = false ∧ OpSame s t ∧ BufSame s t ∧
          RestSame s t) ∧
    (s.args.addrA.toNat + s.args.lenA.toNat ≤ 4096 → s.args.addrB.toNat + s.args.lenB.toNat ≤ 4096 →
      s.abortPending = false →
        ∃ t, exec .cmp s = .next t ∧ Completed .noError s t ∧ OpSame s t ∧ BufSame s t ∧ RestSame s t ∧
          (t.status.eq = true ↔ s.args.lenA = s.args.lenB ∧
            ∀ j, j < s.args.lenA.toNat →
              s.buf.read (s.args.addrA.toNat + j) = s.buf.read (s.args.addrB.toNat + j)))

/-! ### MGF1 (44_mgf1.md) -/

/-- Rules R87, R88, R98, R100: MGF1's checks in their order, before any request. -/
def Obligations.Mgf1ChecksInOrder : Prop :=
  ∀ (x : Bool) (s : State), (∀ w j, s.seq ≠ .waitHash w j) →
    ∀ (as ls ad L : Nat) (legal : Prop), as = s.args.addrA.toNat → ls = s.args.lenA.toNat → ad = s.args.addrD.toNat →
    L = s.args.lenD.toNat → (legal ↔ s.hlen.toNat ∈ [16, 20, 28, 32, 48, 64]) →
    encode (.mgf1 x) &&& 0xFEFFFFFF#32 = 0x00000020#32 ∧
    (¬legal → ∃ t, exec (.mgf1 x) s = .next t ∧ EndsWith .hashConfig s t) ∧
    (legal → (4096 < as + ls ∨ 4096 < ad + L) → ∃ t, exec (.mgf1 x) s = .next t ∧ EndsWith .bufBounds s t) ∧
    (legal → as + ls ≤ 4096 → ad + L ≤ 4096 → 0 < ls → 0 < L → as < ad + L → ad < as + ls →
      ∃ t, exec (.mgf1 x) s = .next t ∧ EndsWith .bufOverlap s t)

/-- Rules R86, R88: with its checks passed and a block left, MGF1 sends the request S ‖ I2OSP(j, 4), or completes with ABORTED at the
check point before it; with no block left it completes without error. -/
def Obligations.Mgf1SendsTheNextRequest : Prop :=
  ∀ (x : Bool) (w : Word) (s : State), s.seq = .run w → s.mgfCheck = none →
    (s.args.lenD.toNat ≤ s.mgfBlock * s.hlen.toNat → ∃ t, exec (.mgf1 x) s = .next t ∧ EndsWith .noError s t) ∧
    (s.mgfBlock * s.hlen.toNat < s.args.lenD.toNat → s.abortPending = true →
      ∃ t, exec (.mgf1 x) s = .next t ∧ EndsWith .aborted s t) ∧
    (s.mgfBlock * s.hlen.toNat < s.args.lenD.toNat → s.abortPending = false →
      ∃ t m, exec (.mgf1 x) s = .next t ∧ t.seq = .waitHash w s.mgfBlock ∧ t.hashReq = some m ∧ t.digest = none ∧
        m.length = s.args.lenA.toNat + 4 ∧
        (∀ j, j < s.args.lenA.toNat → m[j]? = some (s.buf.read (s.args.addrA.toNat + j))) ∧
        os2ip (m.drop s.args.lenA.toNat) = s.mgfBlock ∧
        t.mgfBlock = s.mgfBlock ∧ OpSame s t ∧ BufSame s t ∧ RestSame s t ∧ StillRunning s t ∧ t.rngReq = s.rngReq ∧
        t.blind = s.blind)

/-- Rules R88, R89: after the j-th response MGF1 writes block j, set or XORed and truncated to the mask length, as one step; with an
abort pending the digest is discarded and the command completes with ABORTED. -/
def Obligations.Mgf1WritesOneBlock : Prop :=
  ∀ (x : Bool) (w : Word) (j : Nat) (d : List Byte) (s : State), s.seq = .waitHash w j → s.digest = some d →
    d.length = s.hlen.toNat → s.args.addrD.toNat + s.args.lenD.toNat ≤ 4096 →
    j * s.hlen.toNat < s.args.lenD.toNat → s.buf.wf = true →
    ∀ a n, a = s.args.addrD.toNat + j * s.hlen.toNat → n = min s.hlen.toNat (s.args.lenD.toNat - j * s.hlen.toNat) →
      (s.abortPending = true → ∃ t, exec (.mgf1 x) s = .next t ∧ EndsWith .aborted s t) ∧
      (s.abortPending = false →
        ∃ t, exec (.mgf1 x) s = .next t ∧ t.seq = .run w ∧ t.mgfBlock = j + 1 ∧ t.digest = none ∧
          BufSameOutside a n s t ∧
          (∀ k, k < n → some (t.buf.read (a + k)) =
            (d[k]?).map fun b => if x then b ^^^ s.buf.read (a + k) else b) ∧
          OpSame s t ∧ RestSame s t ∧ StillRunning s t)

/-- Rule R88, result: over all its steps MGF1 sets the destination to the digests in order truncated to L, or XORs them into it, and
then completes without error. D j stands for the hash core's answer to the j-th request. The split into steps is the model's (log
entry 6). -/
def Obligations.Mgf1WritesTheWholeMask : Prop :=
  ∀ (x : Bool) (w : Word) (D : Nat → List Byte) (s : State), s.seq = .run w → s.mgfBlock = 0 → s.mgfCheck = none →
    s.abortPending = false → s.buf.wf = true → (∀ j, (D j).length = s.hlen.toNat) →
      ∃ t u, MgfRounds x D s ((s.args.lenD.toNat + s.hlen.toNat - 1) / s.hlen.toNat) t ∧
        exec (.mgf1 x) t = .next u ∧ Completed .noError s u ∧ OpSame s u ∧ RestSame s u ∧ u.status.eq = s.status.eq ∧
        BufSameOutside s.args.addrD.toNat s.args.lenD.toNat s u ∧
        ∀ k, k < s.args.lenD.toNat → some (u.buf.read (s.args.addrD.toNat + k)) =
          ((D (k / s.hlen.toNat))[k % s.hlen.toNat]?).map fun b =>
            if x then b ^^^ s.buf.read (s.args.addrD.toNat + k) else b

/-! ### The external agents -/

/-- Rule R85: the hash core's answer reaches the sequencer as D = HASHFN(M) with |D| = HLEN; a digest of another length is refused;
an answer owed from before a reset is discarded; without a request nothing happens. -/
def Obligations.HashCoreAnswersTheRequest : Prop :=
  ∀ s : State,
    (0 < s.hashStale → moveStep .hashCore s = .next { s with hashStale := s.hashStale - 1 }) ∧
    (s.hashStale = 0 → s.hashReq = none → moveStep .hashCore s = .next s) ∧
    (∀ m, s.hashStale = 0 → s.hashReq = some m →
      if (Config.hashFn m).length = s.hlen.toNat then
        moveStep .hashCore s = .next { s with hashReq := none, digest := some (Config.hashFn m) }
      else moveStep .hashCore s = .refused .hashContract)

/-- Rule R73: only a value in [1, pmin − 1] answers the draw, and any other leaves the request in place; an answer owed from before a reset
is discarded; without a request nothing happens. -/
def Obligations.RngAnswersWithinTheRange : Prop :=
  ∀ (r : Nat) (s : State),
    (0 < s.rngStale → moveStep (.rng r) s = .next { s with rngStale := s.rngStale - 1 }) ∧
    (s.rngStale = 0 → s.rngReq = none → moveStep (.rng r) s = .next s) ∧
    (∀ hi, s.rngStale = 0 → s.rngReq = some hi →
      if 1 ≤ r ∧ r ≤ hi then moveStep (.rng r) s = .next { s with rngReq := none, blind := some r }
      else moveStep (.rng r) s = .next s)

/-- Rules R92, R112: while a hash request or a draw is in flight, no move but the answering agent's and a reset ends the wait; neither an
abort nor the other agent's move does. -/
def Obligations.OnlyTheAgentOrAResetEndsAWait : Prop :=
  ∀ (m : Move) (s t : State), s.SequencerCoherent → (s.hashReq.isSome = true ∨ s.rngReq.isSome = true) →
    moveStep m s = .next t →
    (s.hashReq.isSome = true → m ≠ .hashCore) → (s.rngReq.isSome = true → ∀ r, m ≠ .rng r) → m ≠ .reset →
    (∀ z v, v.getLsbD 0 = true →
      m ≠ .host ⟨0x008#16, z, .write v⟩ ∧ m ≠ .platform (Config.base + 0x008) z (.write v)) →
      t.seq = s.seq ∧ t.hashReq = s.hashReq ∧ t.rngReq = s.rngReq ∧ t.status = s.status

/-! ### The host bus (20_memory.md) -/

/-- Rule R40: an access of an illegal size or alignment gets SLVERR, data 0 for a read, and changes nothing; every other access is
answered with OKAY. -/
def Obligations.IllegalAccessHasNoEffect : Prop :=
  ∀ (off : BitVec 16) (z : Size) (v : Word) (s : State),
    if (off.toNat < 0x1000 ∧ (z ≠ .four ∨ off.toNat % 4 ≠ 0)) ∨ (0x1000 ≤ off.toNat ∧ off.toNat % z.bytes ≠ 0) then
      hostAccess ⟨off, z, .read⟩ s = { s with reply := some ⟨.slverr, some 0#32⟩ } ∧
        hostAccess ⟨off, z, .write v⟩ s = { s with reply := some ⟨.slverr, none⟩ }
    else
      (∃ d, (hostAccess ⟨off, z, .read⟩ s).reply = some ⟨.okay, some d⟩) ∧
        (hostAccess ⟨off, z, .write v⟩ s).reply = some ⟨.okay, none⟩

/-- Rule R39: an access to a reserved address reads 0 or writes nothing and never sets ACC_I, busy or not; the answer is OKAY when size
and alignment are legal for the region's class, SLVERR otherwise. -/
def Obligations.ReservedAddressesReadZero : Prop :=
  ∀ (off : BitVec 16) (z : Size) (v : Word) (s : State) (resp : Resp),
    (0x03C ≤ off.toNat ∧ off.toNat < 0x1000 ∧ (resp = .okay ↔ z = .four ∧ off.toNat % 4 = 0)) ∨
      (((0x2000 ≤ off.toNat ∧ off.toNat < 0x4000) ∨ 0xBC00 ≤ off.toNat) ∧ (resp = .okay ↔ off.toNat % z.bytes = 0)) →
      hostAccess ⟨off, z, .read⟩ s = { s with reply := some ⟨resp, some 0#32⟩ } ∧
      hostAccess ⟨off, z, .write v⟩ s = { s with reply := some ⟨resp, none⟩ }

/-- Rule R43: while BUSY = 1 the data windows drop writes and read 0, and the eight configuration registers drop writes, each with
ACC_I; a configuration read returns the register; CMD is dropped with OVR_I; the other registers behave as when idle. -/
def Obligations.BusyProtectsTheOperands : Prop :=
  ∀ (off : BitVec 16) (z : Size) (v : Word) (s : State), s.status.busy = true → s.seq ≠ .idle →
    (((0x1000 ≤ off.toNat ∧ off.toNat < 0x2000) ∨ (0x4000 ≤ off.toNat ∧ off.toNat < 0xBC00)) → off.toNat % z.bytes = 0 →
      hostAccess ⟨off, z, .write v⟩ s = { s with intStatus := s.intStatus ||| 0x8#4, reply := some ⟨.okay, none⟩ } ∧
      hostAccess ⟨off, z, .read⟩ s = { s with intStatus := s.intStatus ||| 0x8#4, reply := some ⟨.okay, some 0#32⟩ }) ∧
    (0x01C ≤ off.toNat → off.toNat < 0x03C → off.toNat % 4 = 0 →
      hostAccess ⟨off, .four, .write v⟩ s = { s with intStatus := s.intStatus ||| 0x8#4, reply := some ⟨.okay, none⟩ } ∧
      ∃ r, ctrlRegAt? off.toNat = some r ∧
        hostAccess ⟨off, .four, .read⟩ s = { s with reply := some ⟨.okay, some (s.readReg r)⟩ }) ∧
    hostAccess ⟨0x018#16, .four, .write v⟩ s = { s with intStatus := s.intStatus ||| 0x4#4, reply := some ⟨.okay, none⟩ } ∧
    (off.toNat < 0x018 → off.toNat % 4 = 0 →
      ∃ r, ctrlRegAt? off.toNat = some r ∧
        hostAccess ⟨off, .four, .read⟩ s = { s with reply := some ⟨.okay, some (s.readReg r)⟩ } ∧
        hostAccess ⟨off, .four, .write v⟩ s = { s.writeReg r v with reply := some ⟨.okay, none⟩ })

/-- Rules R41, R42: while idle a window read returns the bytes at its offsets in little-endian lanes and changes nothing else. -/
def Obligations.WindowReadReturnsTheBytes : Prop :=
  ∀ (off : BitVec 16) (z : Size) (s : State), s.status.busy = false →
    ((0x1000 ≤ off.toNat ∧ off.toNat < 0x2000) ∨ (0x4000 ≤ off.toNat ∧ off.toNat < 0xBC00)) → off.toNat % z.bytes = 0 →
      ∃ v : Word, hostAccess ⟨off, z, .read⟩ s = { s with reply := some ⟨.okay, some v⟩ } ∧
        (∀ j, j < z.bytes → v.extractLsb' (8 * j) 8 = s.readByteAt (off.toNat + j)) ∧
        ∀ j, z.bytes ≤ j → j < 4 → v.extractLsb' (8 * j) 8 = 0#8

/-- Rules R38, R41: while idle a window write puts its lanes at their offsets and leaves every other byte of the windows alone. -/
def Obligations.WindowWriteStoresTheBytes : Prop :=
  ∀ (off : BitVec 16) (z : Size) (v : Word) (s : State), s.status.busy = false → s.buf.wf = true →
    ((0x1000 ≤ off.toNat ∧ off.toNat < 0x2000) ∨ (0x4000 ≤ off.toNat ∧ off.toNat < 0xBC00)) → off.toNat % z.bytes = 0 →
      ∃ t, hostAccess ⟨off, z, .write v⟩ s = t ∧ t.reply = some ⟨.okay, none⟩ ∧
        (∀ j, j < z.bytes → t.readByteAt (off.toNat + j) = v.extractLsb' (8 * j) 8) ∧
        (∀ o, o < off.toNat ∨ off.toNat + z.bytes ≤ o → t.readByteAt o = s.readByteAt o) ∧
        t = { s with op := t.op, key := t.key, buf := t.buf, reply := t.reply }

/-- Rules R19, R22, R38: the windows show BUF[a] at 0x1000 + a, and byte b of OP[i] and of KEY slot k (k < 15) at 0x4000 + 0x400·i + b and
0x8000 + 0x400·k + b, the integer being the big-endian value of its 1024 bytes. -/
def Obligations.SlotsAreBigEndian : Prop :=
  ∀ s : State,
    (∀ a, a < 4096 → s.readByteAt (0x1000 + a) = s.buf.read a) ∧
    (∀ i : RegIx, s.opNat i = ∑ b ∈ Finset.range 1024,
      (s.readByteAt (0x4000 + 0x400 * i.toNat + b)).toNat * 256 ^ (1023 - b)) ∧
    (∀ k : RegIx, k ≠ 15#4 → s.keyNat k = ∑ b ∈ Finset.range 1024,
      (s.readByteAt (0x8000 + 0x400 * k.toNat + b)).toNat * 256 ^ (1023 - b))

/-- Rules R23 to R26, R28 to R33, on the bus of an idle block: each offset reads its own register; a write of a read-only register has no
effect; a write of INT_EN or of a configuration register changes that register alone and reads back with its reserved bits 0. -/
def Obligations.ConfigurationReadsBack : Prop :=
  ∀ (v : Word) (s : State), s.status.busy = false →
    (∀ q ∈ [(0x000#16, 0x52534158#32), (0x004#16, 0x10104080#32), (0x008#16, 0#32), (0x010#16, s.intStatus.setWidth 32),
        (0x014#16, s.intEn.setWidth 32), (0x018#16, s.cmdLast),
        (0x01C#16, s.keycfg.u.setWidth 32 ||| (if s.keycfg.pubeV then 0x100#32 else 0#32) |||
          (if s.keycfg.noBlind then 0x200#32 else 0#32)),
        (0x020#16, s.hlen.setWidth 32), (0x024#16, s.args.addrA.setWidth 32), (0x028#16, s.args.lenA.setWidth 32),
        (0x02C#16, s.args.addrB.setWidth 32), (0x030#16, s.args.lenB.setWidth 32), (0x034#16, s.args.addrD.setWidth 32),
        (0x038#16, s.args.lenD.setWidth 32)],
      hostAccess ⟨q.1, .four, .read⟩ s = { s with reply := some ⟨.okay, some q.2⟩ }) ∧
    (∀ off ∈ [0x000#16, 0x004#16, 0x00C#16],
      hostAccess ⟨off, .four, .write v⟩ s = { s with reply := some ⟨.okay, none⟩ }) ∧
    (∀ q ∈ [(0x014#16, { s with intEn := v.setWidth 4 }),
        (0x01C#16, { s with keycfg := ⟨v.setWidth 3, v.getLsbD 8, v.getLsbD 9⟩ }), (0x020#16, { s with hlen := v.setWidth 7 }),
        (0x024#16, { s with args.addrA := v.setWidth 16 }), (0x028#16, { s with args.lenA := v.setWidth 16 }),
        (0x02C#16, { s with args.addrB := v.setWidth 16 }), (0x030#16, { s with args.lenB := v.setWidth 16 }),
        (0x034#16, { s with args.addrD := v.setWidth 16 }), (0x038#16, { s with args.lenD := v.setWidth 16 })],
      hostAccess ⟨q.1, .four, .write v⟩ s = { q.2 with reply := some ⟨.okay, none⟩ }) ∧
    (∀ q ∈ [(0x014#16, 0x0000000F#32), (0x01C#16, 0x00000307#32), (0x020#16, 0x0000007F#32), (0x024#16, 0x0000FFFF#32),
        (0x028#16, 0x0000FFFF#32), (0x02C#16, 0x0000FFFF#32), (0x030#16, 0x0000FFFF#32), (0x034#16, 0x0000FFFF#32),
        (0x038#16, 0x0000FFFF#32)],
      (hostAccess ⟨q.1, .four, .read⟩ (hostAccess ⟨q.1, .four, .write v⟩ s)).reply = some ⟨.okay, some (v &&& q.2)⟩)

/-- Rule R42: a read changes state only through ACC_I, and only in a data window while BUSY = 1. -/
def Obligations.ReadsHaveNoOtherEffect : Prop :=
  ∀ (off : BitVec 16) (z : Size) (s : State), ∃ r : Reply,
    hostAccess ⟨off, z, .read⟩ s = { s with reply := some r } ∨
      (s.status.busy = true ∧ ((0x1000 ≤ off.toNat ∧ off.toNat < 0x2000) ∨ (0x4000 ≤ off.toNat ∧ off.toNat < 0xBC00)) ∧
        hostAccess ⟨off, z, .read⟩ s = { s with intStatus := s.intStatus ||| 0x8#4, reply := some r })

/-- Rules R27, R96: a host read of STATUS, at 0x00C, shows its fields at their bits, the error as its code, and changes nothing. -/
def Obligations.StatusReadsItsFields : Prop :=
  ∀ s : State, ∃ v : Word, hostAccess ⟨0x00C#16, .four, .read⟩ s = { s with reply := some ⟨.okay, some v⟩ } ∧
    v.getLsbD 0 = s.status.busy ∧ v.getLsbD 1 = s.status.done ∧ v.getLsbD 2 = s.status.err ∧ v.getLsbD 3 = s.status.eq ∧
      v.extractLsb' 4 4 = 0#4 ∧ v.extractLsb' 12 20 = 0#20 ∧
      ∀ q ∈ [(ErrCode.noError, 0x0#4), (.illegalCmd, 0x1#4), (.outOfRange, 0x2#4), (.length, 0x3#4), (.evenModulus, 0x4#4),
          (.keyConfig, 0x5#4), (.bufBounds, 0x6#4), (.bufOverlap, 0x7#4), (.hashConfig, 0x8#4), (.maskTooLong, 0x9#4),
          (.keyInvalid, 0xA#4), (.aborted, 0xB#4)],
        s.status.errcode = q.1 → v.extractLsb' 8 4 = q.2

/-- Rules R28, R101, R103: writing 1 to a bit of INT_STATUS clears it, writing 0 does not; what a completion in the same step sets, DONE_I
and with an error ERR_I, ends set. OVR_I and ACC_I come from host accesses, which are steps of their own (the move that takes both is
the model's, log entry 9). -/
def Obligations.IntStatusClearsOnWriteOne : Prop :=
  ∀ (v : Word) (s : State),
    (∃ t, moveStep (.host ⟨0x010#16, .four, .write v⟩) s = .next t ∧
      (∀ b, b < 4 → t.intStatus.getLsbD b = (s.intStatus.getLsbD b && !v.getLsbD b)) ∧
      t = { s with intStatus := t.intStatus, reply := some ⟨.okay, none⟩ }) ∧
    (∀ t, moveStep (.ackWithSequencer v) s = .next t →
      if s.seq ≠ .idle ∧ t.seq = .idle then
        t.intStatus.getLsbD 0 = true ∧ t.intStatus.getLsbD 1 = (t.status.err || (s.intStatus.getLsbD 1 && !v.getLsbD 1)) ∧
          ∀ b, 2 ≤ b → b < 4 → t.intStatus.getLsbD b = (s.intStatus.getLsbD b && !v.getLsbD b)
      else ∀ b, b < 4 → t.intStatus.getLsbD b = (s.intStatus.getLsbD b && !v.getLsbD b))

/-- Rule R36: irq is the OR over the four sources of pending AND enabled, a function of the state; it is 0 after reset. -/
def Obligations.IrqIsPendingAndEnabled : Prop :=
  (∀ s : State, s.irq = true ↔ ∃ b, b < 4 ∧ s.intStatus.getLsbD b = true ∧ s.intEn.getLsbD b = true) ∧
    State.reset.irq = false

/-- Rules R26, R92: CTRL.ABORT without SOFTRST is latched while a command runs, has no effect while idle, and changes nothing else; a write
of CTRL with both bits 0 has no effect. -/
def Obligations.AbortIsLatchedWhileBusy : Prop :=
  ∀ (v : Word) (s : State), v.getLsbD 0 = false →
    (v.getLsbD 1 = true → s.seq ≠ .idle → hostAccess ⟨0x008#16, .four, .write v⟩ s =
      { s with abortPending := true, reply := some ⟨.okay, none⟩ }) ∧
    (v.getLsbD 1 = true → s.seq = .idle → hostAccess ⟨0x008#16, .four, .write v⟩ s = { s with reply := some ⟨.okay, none⟩ }) ∧
    (v.getLsbD 1 = false → hostAccess ⟨0x008#16, .four, .write v⟩ s = { s with reply := some ⟨.okay, none⟩ })

/-- Rules R93, R109: from any state, SOFTRST (whatever the ABORT bit) and the reset input leave every slot and byte 0 and every register
at its reset value, and drop the running command; State.reset has the same values. -/
def Obligations.ResetZeroisesEverything : Prop :=
  ∀ (v : Word) (s : State), v.getLsbD 0 = true →
    ∀ t, moveStep (.host ⟨0x008#16, .four, .write v⟩) s = .next t ∨ moveStep .reset s = .next t ∨ t = State.reset →
      (∀ i, t.opNat i = 0) ∧ (∀ k, t.keyNat k = 0) ∧ (∀ a, t.buf.read a = 0#8) ∧
      t.readReg .id = 0x52534158#32 ∧ t.readReg .param = 0x10104080#32 ∧ t.readReg .ctrl = 0#32 ∧
      t.readReg .status = 0#32 ∧ t.readReg .intStatus = 0#32 ∧ t.readReg .intEn = 0#32 ∧ t.irq = false ∧
      t.readReg .cmd = 0#32 ∧ t.readReg .keycfg = 0#32 ∧ t.readReg .mgfcfg = 0x14#32 ∧
      (∀ r ∈ [CtrlReg.addrA, .lenA, .addrB, .lenB, .addrD, .lenD], t.readReg r = 0#32) ∧
      t.seq = .idle ∧ t.abortPending = false ∧ t.hashReq = none ∧ t.rngReq = none ∧ t.digest = none ∧ t.blind = none

/-- Rules R85(e), R107: after a reset from either source, which differ in the bus answer of the write alone, every answer owed for a request
made before it is discarded: it changes nothing but the count of answers owed, which is the model's (log entry 8). -/
def Obligations.ResetDiscardsTheAnswerOwed : Prop :=
  ∀ (s : State) (v : Word) (r h g : Nat), v.getLsbD 0 = true →
    h = s.hashStale + (if s.hashReq.isSome then 1 else 0) → g = s.rngStale + (if s.rngReq.isSome then 1 else 0) →
    ∃ t, moveStep .reset s = .next t ∧
      moveStep (.host ⟨0x008#16, .four, .write v⟩) s = .next { t with reply := some ⟨.okay, none⟩ } ∧
      t.hashStale = h ∧ t.rngStale = g ∧
      ∀ u, u = t ∨ u = { t with reply := some ⟨.okay, none⟩ } →
        (∀ n, n < h → moveStep .hashCore { u with hashStale := n + 1 } = .next { u with hashStale := n }) ∧
        (∀ n, n < g → moveStep (.rng r) { u with rngStale := n + 1 } = .next { u with rngStale := n }) ∧
        moveStep .hashCore { u with hashStale := 0 } = .next { u with hashStale := 0 } ∧
        moveStep (.rng r) { u with rngStale := 0 } = .next { u with rngStale := 0 }

/-! ### Whole-machine rules -/

/-- Frame of every command: a sequencer step of it leaves KEY, the configuration and CMD alone, every OP register but its
destination, every byte of BUF for a command that does not write BUF, and every byte outside ADDR_D, LEN_D otherwise
(rules R21, R22, R45, R54, R57). -/
def Obligations.CommandFrame : Prop :=
  ∀ (i : Instr) (s t : State), exec i s = .next t →
    RestSame s t ∧ (∀ k, destOf i ≠ some k → t.opReg k = s.opReg k) ∧
      (writesBuf i = false → BufSame s t) ∧ BufSameOutside s.args.addrD.toNat s.args.lenD.toNat s t

/-- Rule R27: apart from issue and reset, only CMP changes EQ. -/
def Obligations.OnlyCmpChangesEq : Prop :=
  ∀ (i : Instr) (s t : State), exec i s = .next t → i ≠ .cmp → t.status.eq = s.status.eq

/-- Rule R60: a command that completes with an error writes no register and no byte of BUF in that step. -/
def Obligations.ErrorsWriteNothing : Prop :=
  ∀ (i : Instr) (s t : State), s.status.err = false → exec i s = .next t → t.status.err = true →
    OpSame s t ∧ BufSame s t ∧ t.status.errcode ≠ .noError

/-- Rules R43, R48: while a command runs, no host access but a reset changes what the command reads: OP, KEY, BUF, KEYCFG, MGFCFG, the
argument registers, or the command itself. -/
def Obligations.HostCannotDisturbARunningCommand : Prop :=
  ∀ (a : Access) (s : State), s.status.busy = true → s.seq ≠ .idle →
    (∀ z v, v.getLsbD 0 = true → a ≠ ⟨0x008#16, z, .write v⟩) →
    ∀ t, t = hostAccess a s →
      t.op = s.op ∧ t.key = s.key ∧ t.buf = s.buf ∧ t.keycfg = s.keycfg ∧ t.hlen = s.hlen ∧ t.args = s.args ∧
        t.cmdLast = s.cmdLast ∧ t.seq = s.seq ∧ t.status = s.status ∧ t.hashReq = s.hashReq ∧ t.digest = s.digest ∧
        t.rngReq = s.rngReq ∧ t.blind = s.blind ∧ t.mgfBlock = s.mgfBlock

/-! ### Invariants of every step -/

/-- Every step keeps the canonical form of BUF (rules R21, R108). -/
def Obligations.BufferStaysCanonical : Prop :=
  ∀ s t : State, s.buf.wf = true → step s = .next t → t.buf.wf = true

/-- Every step keeps KEY slot 15 at zero (rules R22, R38, R39). -/
def Obligations.ReservedSlotStaysZero : Prop :=
  ∀ s t : State, s.keyReg 15#4 = 0#8192 → step s = .next t → t.keyReg 15#4 = 0#8192

/-- Every step keeps STATUS coherent with the sequencer (rules R27, R35). -/
def Obligations.StatusStaysCoherent : Prop :=
  ∀ s t : State, s.StatusCoherent → step s = .next t → t.StatusCoherent

/-- Every step keeps the hidden sequencer state coherent (rules R35, R85, R101). -/
def Obligations.SequencerStaysCoherent : Prop :=
  ∀ s t : State, s.SequencerCoherent → step s = .next t → t.SequencerCoherent

/-- Every step keeps the draw and the blinding factor in [1, pmin − 1] (rule R73). -/
def Obligations.DrawStaysInRange : Prop :=
  ∀ s t : State, s.StatusCoherent → s.SequencerCoherent → s.DrawInRange → step s = .next t → t.DrawInRange

/-- The state after reset meets every invariant. -/
def Obligations.ResetMeetsTheInvariants : Prop :=
  State.reset.buf.wf = true ∧ State.reset.keyReg 15#4 = 0#8192 ∧ State.reset.StatusCoherent ∧
    State.reset.SequencerCoherent ∧ State.reset.DrawInRange
end

