-- ==== Sys2Proof/Laws/Arith.lean ====
section
/-! SUPPORT. What the arithmetic functions compute: powers, inverses, the Montgomery constant, byte strings. -/

namespace Sys2Proof.Machine

/-! ### Powers -/

theorem powLoop_mod (m : Nat) : ∀ (k b e acc : Nat), e < 2 ^ k → powLoop m k b e acc % m = acc * b ^ e % m
  | 0, b, e, acc, h => by
    have he : e = 0 := by simpa using h
    simp [powLoop, he]
  | k + 1, b, e, acc, h => by
    unfold powLoop
    by_cases he : e = 0
    · simp [he]
    · have hk : e / 2 < 2 ^ k := by rw [pow_succ] at h; omega
      have hsq : (b * b % m) ^ (e / 2) ≡ b ^ (2 * (e / 2)) [MOD m] := by
        rw [pow_mul, pow_two]; exact (Nat.mod_modEq _ _).pow _
      have step : ∀ acc', (acc' * (b * b % m) ^ (e / 2)) % m = acc' * b ^ (2 * (e / 2)) % m :=
        fun acc' => (Nat.ModEq.refl acc').mul hsq
      rw [if_neg he, powLoop_mod m k _ _ _ hk, step]
      by_cases ho : e % 2 = 1
      · have : e = 2 * (e / 2) + 1 := by omega
        rw [if_pos ho]
        conv_rhs => rw [this, pow_succ, mul_comm (b ^ _) b, ← mul_assoc]
        exact (Nat.mod_modEq _ _).mul_right _
      · have : e = 2 * (e / 2) := by omega
        rw [if_neg ho]
        conv_rhs => rw [this]

theorem powLoop_reduced (m : Nat) : ∀ (k b e acc : Nat), acc % m = acc → powLoop m k b e acc % m = powLoop m k b e acc
  | 0, _, _, _, h => h
  | k + 1, b, e, acc, h => by
    unfold powLoop
    by_cases he : e = 0
    · simpa [he] using h
    · rw [if_neg he]
      apply powLoop_reduced
      split
      · exact Nat.mod_mod _ _
      · exact h

/-- `modPow` is the exact value of rule R71, for every modulus. -/
theorem modPow_eq (x y m : Nat) : modPow x y m = x ^ y % m := by
  unfold modPow
  rw [← powLoop_reduced m _ _ _ _ (Nat.mod_mod _ _), powLoop_mod m _ _ _ _ Nat.lt_log2_self]
  exact ((Nat.mod_modEq 1 m).mul ((Nat.mod_modEq x m).pow y)).trans (by rw [one_mul])

/-! ### Inverses -/

theorem bezoutLoop_spec (a m : Nat) : ∀ (k r0 : Nat) (s0 : Int) (r1 : Nat) (s1 : Int), r1 < k →
    (m : Int) ∣ s0 * a - r0 → (m : Int) ∣ s1 * a - r1 → (m : Int) ∣ bezoutLoop k r0 s0 r1 s1 * a - (Nat.gcd r0 r1 : Nat)
  | 0, _, _, _, _, h, _, _ => absurd h (Nat.not_lt_zero _)
  | k + 1, r0, s0, r1, s1, h, h0, h1 => by
    unfold bezoutLoop
    by_cases hr : r1 = 0
    · simpa [hr] using h0
    · rw [if_neg hr]
      have hlt : r0 % r1 < r1 := Nat.mod_lt _ (Nat.pos_of_ne_zero hr)
      have key := bezoutLoop_spec a m k r1 s1 (r0 % r1) (s0 - ((r0 / r1 : Nat) : Int) * s1) (by omega) h1 (by
        have hd : (r0 : Int) = r1 * (r0 / r1 : Nat) + (r0 % r1 : Nat) := by exact_mod_cast (Nat.div_add_mod r0 r1).symm
        have : (s0 - ((r0 / r1 : Nat) : Int) * s1) * a - (r0 % r1 : Nat) =
            (s0 * a - r0) - ((r0 / r1 : Nat) : Int) * (s1 * a - r1) := by rw [hd]; ring
        rw [this]
        exact dvd_sub h0 (Dvd.dvd.mul_left h1 _))
      rw [Nat.gcd_comm r1 (r0 % r1), ← Nat.gcd_rec] at key
      rwa [Nat.gcd_comm r0 r1]

/-- `inv a m` lies below m (rule R10). -/
theorem inv_lt (a m : Nat) (hm : 0 < m) : inv a m < m := by
  have h1 := Int.emod_nonneg (bezoutLoop (m + 1) (a % m) 1 m 0) (b := (m : Int)) (by omega)
  have h2 := Int.emod_lt_of_pos (bezoutLoop (m + 1) (a % m) 1 m 0) (b := (m : Int)) (by omega)
  unfold inv
  omega

/-- `inv a m` is the inverse of rule R10 where rule R10 defines one. -/
theorem inv_spec (a m : Nat) (hm : 1 < m) (h : Nat.gcd a m = 1) : a * inv a m % m = 1 := by
  have hs := bezoutLoop_spec (a % m) m (m + 1) (a % m) 1 m 0 (by omega) (by simp) (by simp)
  rw [← Nat.gcd_rec, Nat.gcd_comm, h] at hs
  have hn := Int.emod_nonneg (bezoutLoop (m + 1) (a % m) 1 m 0) (b := (m : Int)) (by omega)
  have hinv : ((inv a m : Nat) : Int) = bezoutLoop (m + 1) (a % m) 1 m 0 % (m : Int) := Int.toNat_of_nonneg hn
  have : (((a * inv a m : Nat) : Int)) % m = 1 := by
    have e1 : (((a * inv a m : Nat) : Int)) ≡ bezoutLoop (m + 1) (a % m) 1 m 0 * (a % m : Nat) [ZMOD m] := by
      rw [Nat.cast_mul, hinv, mul_comm]
      refine Int.ModEq.mul (Int.mod_modEq _ _) ?_
      rw [Int.natCast_mod]
      exact (Int.mod_modEq _ _).symm
    have e2 : bezoutLoop (m + 1) (a % m) 1 m 0 * (a % m : Nat) ≡ 1 [ZMOD m] :=
      (Int.modEq_iff_dvd.2 (by simpa using hs)).symm
    have e3 := e1.trans e2
    unfold Int.ModEq at e3
    rw [e3]
    exact Int.emod_eq_of_lt (by omega) (by omega)
  exact_mod_cast this

/-- Rinv_m is the inverse of R = 2^8192 for an odd modulus above 1 (rule R67). -/
theorem montRinv_spec (m : Nat) (hm : 1 < m) (ho : m % 2 = 1) : 2 ^ Config.rbits * montRinv m % m = 1 := by
  have hc : Nat.gcd (2 ^ Config.rbits % m) m = 1 := by
    rw [← Nat.gcd_rec, Nat.gcd_comm]
    exact Nat.Coprime.pow_left _ (by rw [Nat.coprime_two_left]; exact Nat.odd_iff.2 ho)
  have h := inv_spec _ m hm hc
  unfold montRinv
  rw [if_neg (by omega)]
  rwa [Nat.mul_mod, Nat.mod_mod, ← Nat.mul_mod] at h

/-! ### Byte strings -/

theorem i2osp_length (x : Nat) : ∀ l, (i2osp x l).length = l
  | 0 => rfl
  | l + 1 => by simp [i2osp, i2osp_length x l]

theorem xorBytes_length (s t : List Byte) : (xorBytes s t).length = min s.length t.length := by
  simp [xorBytes]

theorem foldl_bytes (bs : List Byte) : ∀ v : Nat,
    bs.foldl (fun v b => v * 256 + b.toNat) v = v * 256 ^ bs.length + os2ip bs := by
  induction bs with
  | nil => intro v; simp [os2ip]
  | cons b bs ih =>
    intro v
    have h := ih (0 * 256 + b.toNat)
    simp only [os2ip, List.foldl_cons, List.length_cons, pow_succ] at *
    rw [ih, h]
    ring

/-- The leading byte of a byte string counts 256 to the number of bytes after it (rule R13). -/
theorem os2ip_cons (b : Byte) (bs : List Byte) : os2ip (b :: bs) = b.toNat * 256 ^ bs.length + os2ip bs := by
  have h := foldl_bytes bs (0 * 256 + b.toNat)
  simpa [os2ip] using h

theorem os2ip_lt : ∀ bs : List Byte, os2ip bs < 256 ^ bs.length
  | [] => by simp [os2ip]
  | b :: bs => by
    have := os2ip_lt bs
    have hb := b.isLt
    rw [os2ip_cons, List.length_cons, pow_succ]
    nlinarith [hb]

/-- I2OSP drops what lies above its l bytes. -/
theorem i2osp_add_mul (x y l : Nat) : ∀ k, k ≤ l → i2osp (y * 256 ^ l + x) k = i2osp x k
  | 0, _ => rfl
  | k + 1, h => by
    have hp : (256 : Nat) ^ l = 256 ^ k * (256 * 256 ^ (l - (k + 1))) := by
      rw [← pow_succ', ← pow_add]; congr 1; omega
    have hd : (y * 256 ^ l + x) / 256 ^ k = y * (256 * 256 ^ (l - (k + 1))) + x / 256 ^ k := by
      rw [hp, show y * (256 ^ k * (256 * 256 ^ (l - (k + 1)))) = 256 ^ k * (y * (256 * 256 ^ (l - (k + 1)))) by ring,
        Nat.mul_add_div (by positivity)]
    simp only [i2osp, hd, i2osp_add_mul x y l k (by omega)]
    congr 1
    apply BitVec.eq_of_toNat_eq
    simp only [BitVec.toNat_ofNat]
    rw [show y * (256 * 256 ^ (l - (k + 1))) + x / 256 ^ k = x / 256 ^ k + 256 * (y * 256 ^ (l - (k + 1))) by ring]
    exact Nat.add_mul_mod_self_left _ _ _

/-- I2OSP undoes OS2IP at the string's own length (rule R83). -/
theorem i2osp_os2ip : ∀ bs : List Byte, i2osp (os2ip bs) bs.length = bs
  | [] => rfl
  | b :: bs => by
    have hlt := os2ip_lt bs
    rw [os2ip_cons, List.length_cons, i2osp, i2osp_add_mul _ _ _ _ (le_refl _), i2osp_os2ip bs]
    congr 1
    rw [mul_comm, Nat.mul_add_div (by positivity), Nat.div_eq_of_lt hlt, add_zero]
    simp

/-- OS2IP undoes I2OSP on every value that fits (rule R13). -/
theorem os2ip_i2osp (x : Nat) : ∀ l, x < 256 ^ l → os2ip (i2osp x l) = x
  | 0, h => by
    have : x = 0 := by simpa using h
    simp [i2osp, os2ip, this]
  | l + 1, h => by
    have hx : x / 256 ^ l < 256 := Nat.div_lt_of_lt_mul (by rw [pow_succ] at h; linarith)
    have hm : x % 256 ^ l < 256 ^ l := Nat.mod_lt _ (by positivity)
    have hdm : x / 256 ^ l * 256 ^ l + x % 256 ^ l = x := by rw [mul_comm]; exact Nat.div_add_mod _ _
    have hi : i2osp x l = i2osp (x % 256 ^ l) l := by
      conv_lhs => rw [← hdm]
      exact i2osp_add_mul _ _ _ _ (le_refl _)
    rw [i2osp, os2ip_cons, i2osp_length, hi, os2ip_i2osp _ l hm, BitVec.toNat_ofNat, Nat.mod_eq_of_lt hx, hdm]

end Sys2Proof.Machine
end

