-- ==== Sys2Proof/Laws/Memory.lean ====
section
/-! SUPPORT. The byte buffer: its canonical form, and what a read gives after a write. -/

namespace Sys2Proof.Machine

/-! ### The canonical form -/

theorem Memory.wfFrom_mono {lo lo' : Nat} (h : lo' ≤ lo) : ∀ {m : Memory}, Memory.wfFrom lo m = true → Memory.wfFrom lo' m = true
  | [], _ => rfl
  | (a, v) :: t, hm => by
    simp only [Memory.wfFrom, Bool.and_eq_true, decide_eq_true_eq] at hm ⊢
    exact ⟨⟨⟨by omega, hm.1.1.2⟩, hm.1.2⟩, hm.2⟩

theorem Memory.put_wfFrom {a : Nat} {v : Byte} (ha : a < Config.bufSize) :
    ∀ {lo : Nat} {m : Memory}, lo ≤ a → Memory.wfFrom lo m = true → Memory.wfFrom lo (m.put a v) = true
  | lo, [], hl, _ => by
    unfold Memory.put
    split
    · rfl
    · simp_all [Memory.wfFrom]
  | lo, (a', v') :: t, hl, hm => by
    simp only [Memory.wfFrom, Bool.and_eq_true, decide_eq_true_eq] at hm
    obtain ⟨⟨⟨h1, h2⟩, h3⟩, h4⟩ := hm
    unfold Memory.put
    split
    · split
      · simp_all [Memory.wfFrom]
      · have : a + 1 ≤ a' := by omega
        simp_all [Memory.wfFrom]
    · split
      · subst a'
        split
        · exact Memory.wfFrom_mono (by omega) h4
        · simp_all [Memory.wfFrom]
      · have := Memory.put_wfFrom ha (v := v) (show a' + 1 ≤ a by omega) h4
        simp_all [Memory.wfFrom]

/-- A write keeps the canonical form. -/
theorem Memory.write_wf {m : Memory} (a : Nat) (v : Byte) (h : m.wf = true) : (m.write a v).wf = true := by
  unfold Memory.write
  split
  · exact Memory.put_wfFrom ‹_› (Nat.zero_le a) h
  · exact h

/-- BufWrite keeps the canonical form. -/
theorem Memory.writeBytes_wf : ∀ (bs : List Byte) {m : Memory} (a : Nat), m.wf = true → (m.writeBytes a bs).wf = true
  | [], _, _, h => h
  | b :: bs, _, a, h => Memory.writeBytes_wf bs (a + 1) (Memory.write_wf a b h)

theorem Memory.reset_wf : State.reset.buf.wf = true := rfl

/-! ### Reads after writes -/

theorem Memory.read_of_lt {a : Nat} : ∀ {lo : Nat} {m : Memory}, a < lo → Memory.wfFrom lo m = true → m.read a = 0#8
  | _, [], _, _ => rfl
  | lo, (a', v) :: t, hl, hm => by
    simp only [Memory.wfFrom, Bool.and_eq_true, decide_eq_true_eq] at hm
    have : a' ≠ a := by omega
    simp only [Memory.read, if_neg this]
    exact Memory.read_of_lt (show a < a' + 1 by omega) hm.2

theorem Memory.read_put_ne {a b : Nat} (v : Byte) (h : b ≠ a) : ∀ m : Memory, (m.put a v).read b = m.read b
  | [] => by
    unfold Memory.put
    split <;> simp [Memory.read, Ne.symm h]
  | (a', v') :: t => by
    unfold Memory.put
    split
    · split <;> simp [Memory.read, Ne.symm h]
    · split
      · subst a'
        split <;> simp [Memory.read, Ne.symm h]
      · simp [Memory.read, Memory.read_put_ne v h t]

theorem Memory.read_put_self {a : Nat} (v : Byte) :
    ∀ {lo : Nat} {m : Memory}, Memory.wfFrom lo m = true → (m.put a v).read a = v
  | _, [], _ => by
    unfold Memory.put
    split <;> simp_all [Memory.read]
  | lo, (a', v') :: t, hm => by
    simp only [Memory.wfFrom, Bool.and_eq_true, decide_eq_true_eq] at hm
    unfold Memory.put
    split
    · split
      · have : a' ≠ a := by omega
        rw [Memory.read, if_neg this, Memory.read_of_lt (show a < a' + 1 by omega) hm.2]
        exact Eq.symm ‹v = 0#8›
      · simp [Memory.read]
    · split
      · subst a'
        split
        · rw [Memory.read_of_lt (show a < a + 1 by omega) hm.2]
          exact Eq.symm ‹v = 0#8›
        · simp [Memory.read]
      · have : a' ≠ a := by omega
        rw [Memory.read, if_neg this]
        exact Memory.read_put_self v hm.2

/-- A write leaves every other byte alone. -/
theorem Memory.read_write_ne {a b : Nat} (v : Byte) (m : Memory) (h : b ≠ a) : (m.write a v).read b = m.read b := by
  unfold Memory.write
  split
  · exact Memory.read_put_ne v h m
  · rfl

/-- A read after a write to the same byte gives the byte written. -/
theorem Memory.read_write_self {a : Nat} (v : Byte) {m : Memory} (ha : a < Config.bufSize) (hm : m.wf = true) :
    (m.write a v).read a = v := by
  unfold Memory.write
  rw [if_pos ha]
  exact Memory.read_put_self v hm

/-- BufWrite leaves every byte outside its range alone (rule R14). -/
theorem Memory.read_writeBytes_outside {b : Nat} : ∀ (bs : List Byte) (m : Memory) (a : Nat),
    b < a ∨ a + bs.length ≤ b → (m.writeBytes a bs).read b = m.read b
  | [], _, _, _ => rfl
  | x :: bs, m, a, h => by
    rw [List.length_cons] at h
    rw [Memory.writeBytes, Memory.read_writeBytes_outside bs _ _ (by omega)]
    exact Memory.read_write_ne x m (by omega)

/-- BufWrite writes byte j of the string at a + j (rule R14). -/
theorem Memory.read_writeBytes {j : Nat} : ∀ (bs : List Byte) {m : Memory} (a : Nat) (hj : j < bs.length),
    a + bs.length ≤ Config.bufSize → m.wf = true → (m.writeBytes a bs).read (a + j) = bs[j]
  | x :: bs, m, a, hj, ha, hm => by
    rw [List.length_cons] at hj ha
    rw [Memory.writeBytes]
    cases j with
    | zero =>
      rw [Memory.read_writeBytes_outside bs _ _ (by omega)]
      exact Memory.read_write_self x (by omega) hm
    | succ j =>
      have := Memory.read_writeBytes (j := j) bs (a + 1) (by omega) (by omega) (Memory.write_wf a x hm)
      rw [show a + (j + 1) = a + 1 + j by omega, this]
      rfl

@[simp] theorem Memory.readBytes_length (m : Memory) : ∀ (l a : Nat), (m.readBytes a l).length = l
  | 0, _ => rfl
  | l + 1, a => by simp [Memory.readBytes, Memory.readBytes_length m l (a + 1)]

theorem Memory.readBytes_getElem (m : Memory) : ∀ (l a j : Nat) (h : j < (m.readBytes a l).length),
    (m.readBytes a l)[j] = m.read (a + j)
  | 0, _, _, h => by simp at h
  | l + 1, a, 0, _ => rfl
  | l + 1, a, j + 1, h => by
    have := Memory.readBytes_getElem m l (a + 1) j (by simpa using h)
    rw [show a + (j + 1) = a + 1 + j by omega, ← this]
    rfl

/-- BufRead after BufWrite of the same range gives the string written (rule R14). -/
theorem Memory.readBytes_writeBytes (bs : List Byte) {m : Memory} (a : Nat) (ha : a + bs.length ≤ Config.bufSize)
    (hm : m.wf = true) : (m.writeBytes a bs).readBytes a bs.length = bs := by
  apply List.ext_getElem (by simp)
  intro j h1 h2
  rw [Memory.readBytes_getElem, Memory.read_writeBytes bs a h2 ha hm]

end Sys2Proof.Machine
end

