-- ==== Sys2Proof/Laws/State.lean ====
section
/-! SUPPORT. One lemma per field of State per update, true by rfl, so that no proof unfolds a record update. -/

namespace Sys2Proof.Machine

variable (s : State)

/-! ### setInt -/

@[simp] theorem State.setInt_op (b : BitVec 4) : (s.setInt b).op = s.op := rfl
@[simp] theorem State.setInt_key (b : BitVec 4) : (s.setInt b).key = s.key := rfl
@[simp] theorem State.setInt_buf (b : BitVec 4) : (s.setInt b).buf = s.buf := rfl
@[simp] theorem State.setInt_status (b : BitVec 4) : (s.setInt b).status = s.status := rfl
@[simp] theorem State.setInt_intStatus (b : BitVec 4) : (s.setInt b).intStatus = s.intStatus ||| b := rfl
@[simp] theorem State.setInt_intEn (b : BitVec 4) : (s.setInt b).intEn = s.intEn := rfl
@[simp] theorem State.setInt_cmdLast (b : BitVec 4) : (s.setInt b).cmdLast = s.cmdLast := rfl
@[simp] theorem State.setInt_keycfg (b : BitVec 4) : (s.setInt b).keycfg = s.keycfg := rfl
@[simp] theorem State.setInt_hlen (b : BitVec 4) : (s.setInt b).hlen = s.hlen := rfl
@[simp] theorem State.setInt_args (b : BitVec 4) : (s.setInt b).args = s.args := rfl
@[simp] theorem State.setInt_seq (b : BitVec 4) : (s.setInt b).seq = s.seq := rfl
@[simp] theorem State.setInt_abortPending (b : BitVec 4) : (s.setInt b).abortPending = s.abortPending := rfl
@[simp] theorem State.setInt_mgfBlock (b : BitVec 4) : (s.setInt b).mgfBlock = s.mgfBlock := rfl
@[simp] theorem State.setInt_hashReq (b : BitVec 4) : (s.setInt b).hashReq = s.hashReq := rfl
@[simp] theorem State.setInt_digest (b : BitVec 4) : (s.setInt b).digest = s.digest := rfl
@[simp] theorem State.setInt_rngReq (b : BitVec 4) : (s.setInt b).rngReq = s.rngReq := rfl
@[simp] theorem State.setInt_blind (b : BitVec 4) : (s.setInt b).blind = s.blind := rfl
@[simp] theorem State.setInt_hashStale (b : BitVec 4) : (s.setInt b).hashStale = s.hashStale := rfl
@[simp] theorem State.setInt_rngStale (b : BitVec 4) : (s.setInt b).rngStale = s.rngStale := rfl
@[simp] theorem State.setInt_reply (b : BitVec 4) : (s.setInt b).reply = s.reply := rfl
@[simp] theorem State.setInt_moves (b : BitVec 4) : (s.setInt b).moves = s.moves := rfl

/-! ### clearInt -/

@[simp] theorem State.clearInt_op (b : BitVec 4) : (s.clearInt b).op = s.op := rfl
@[simp] theorem State.clearInt_key (b : BitVec 4) : (s.clearInt b).key = s.key := rfl
@[simp] theorem State.clearInt_buf (b : BitVec 4) : (s.clearInt b).buf = s.buf := rfl
@[simp] theorem State.clearInt_status (b : BitVec 4) : (s.clearInt b).status = s.status := rfl
@[simp] theorem State.clearInt_intStatus (b : BitVec 4) : (s.clearInt b).intStatus = s.intStatus &&& ~~~b := rfl
@[simp] theorem State.clearInt_intEn (b : BitVec 4) : (s.clearInt b).intEn = s.intEn := rfl
@[simp] theorem State.clearInt_cmdLast (b : BitVec 4) : (s.clearInt b).cmdLast = s.cmdLast := rfl
@[simp] theorem State.clearInt_keycfg (b : BitVec 4) : (s.clearInt b).keycfg = s.keycfg := rfl
@[simp] theorem State.clearInt_hlen (b : BitVec 4) : (s.clearInt b).hlen = s.hlen := rfl
@[simp] theorem State.clearInt_args (b : BitVec 4) : (s.clearInt b).args = s.args := rfl
@[simp] theorem State.clearInt_seq (b : BitVec 4) : (s.clearInt b).seq = s.seq := rfl
@[simp] theorem State.clearInt_abortPending (b : BitVec 4) : (s.clearInt b).abortPending = s.abortPending := rfl
@[simp] theorem State.clearInt_mgfBlock (b : BitVec 4) : (s.clearInt b).mgfBlock = s.mgfBlock := rfl
@[simp] theorem State.clearInt_hashReq (b : BitVec 4) : (s.clearInt b).hashReq = s.hashReq := rfl
@[simp] theorem State.clearInt_digest (b : BitVec 4) : (s.clearInt b).digest = s.digest := rfl
@[simp] theorem State.clearInt_rngReq (b : BitVec 4) : (s.clearInt b).rngReq = s.rngReq := rfl
@[simp] theorem State.clearInt_blind (b : BitVec 4) : (s.clearInt b).blind = s.blind := rfl
@[simp] theorem State.clearInt_hashStale (b : BitVec 4) : (s.clearInt b).hashStale = s.hashStale := rfl
@[simp] theorem State.clearInt_rngStale (b : BitVec 4) : (s.clearInt b).rngStale = s.rngStale := rfl
@[simp] theorem State.clearInt_reply (b : BitVec 4) : (s.clearInt b).reply = s.reply := rfl
@[simp] theorem State.clearInt_moves (b : BitVec 4) : (s.clearInt b).moves = s.moves := rfl

/-! ### setEq -/

@[simp] theorem State.setEq_op (e : Bool) : (s.setEq e).op = s.op := rfl
@[simp] theorem State.setEq_key (e : Bool) : (s.setEq e).key = s.key := rfl
@[simp] theorem State.setEq_buf (e : Bool) : (s.setEq e).buf = s.buf := rfl
@[simp] theorem State.setEq_status (e : Bool) : (s.setEq e).status = { s.status with eq := e } := rfl
@[simp] theorem State.setEq_intStatus (e : Bool) : (s.setEq e).intStatus = s.intStatus := rfl
@[simp] theorem State.setEq_intEn (e : Bool) : (s.setEq e).intEn = s.intEn := rfl
@[simp] theorem State.setEq_cmdLast (e : Bool) : (s.setEq e).cmdLast = s.cmdLast := rfl
@[simp] theorem State.setEq_keycfg (e : Bool) : (s.setEq e).keycfg = s.keycfg := rfl
@[simp] theorem State.setEq_hlen (e : Bool) : (s.setEq e).hlen = s.hlen := rfl
@[simp] theorem State.setEq_args (e : Bool) : (s.setEq e).args = s.args := rfl
@[simp] theorem State.setEq_seq (e : Bool) : (s.setEq e).seq = s.seq := rfl
@[simp] theorem State.setEq_abortPending (e : Bool) : (s.setEq e).abortPending = s.abortPending := rfl
@[simp] theorem State.setEq_mgfBlock (e : Bool) : (s.setEq e).mgfBlock = s.mgfBlock := rfl
@[simp] theorem State.setEq_hashReq (e : Bool) : (s.setEq e).hashReq = s.hashReq := rfl
@[simp] theorem State.setEq_digest (e : Bool) : (s.setEq e).digest = s.digest := rfl
@[simp] theorem State.setEq_rngReq (e : Bool) : (s.setEq e).rngReq = s.rngReq := rfl
@[simp] theorem State.setEq_blind (e : Bool) : (s.setEq e).blind = s.blind := rfl
@[simp] theorem State.setEq_hashStale (e : Bool) : (s.setEq e).hashStale = s.hashStale := rfl
@[simp] theorem State.setEq_rngStale (e : Bool) : (s.setEq e).rngStale = s.rngStale := rfl
@[simp] theorem State.setEq_reply (e : Bool) : (s.setEq e).reply = s.reply := rfl
@[simp] theorem State.setEq_moves (e : Bool) : (s.setEq e).moves = s.moves := rfl

/-! ### bufWrite -/

@[simp] theorem State.bufWrite_op (a : Nat) (bs : List Byte) : (s.bufWrite a bs).op = s.op := rfl
@[simp] theorem State.bufWrite_key (a : Nat) (bs : List Byte) : (s.bufWrite a bs).key = s.key := rfl
@[simp] theorem State.bufWrite_buf (a : Nat) (bs : List Byte) : (s.bufWrite a bs).buf = s.buf.writeBytes a bs := rfl
@[simp] theorem State.bufWrite_status (a : Nat) (bs : List Byte) : (s.bufWrite a bs).status = s.status := rfl
@[simp] theorem State.bufWrite_intStatus (a : Nat) (bs : List Byte) : (s.bufWrite a bs).intStatus = s.intStatus := rfl
@[simp] theorem State.bufWrite_intEn (a : Nat) (bs : List Byte) : (s.bufWrite a bs).intEn = s.intEn := rfl
@[simp] theorem State.bufWrite_cmdLast (a : Nat) (bs : List Byte) : (s.bufWrite a bs).cmdLast = s.cmdLast := rfl
@[simp] theorem State.bufWrite_keycfg (a : Nat) (bs : List Byte) : (s.bufWrite a bs).keycfg = s.keycfg := rfl
@[simp] theorem State.bufWrite_hlen (a : Nat) (bs : List Byte) : (s.bufWrite a bs).hlen = s.hlen := rfl
@[simp] theorem State.bufWrite_args (a : Nat) (bs : List Byte) : (s.bufWrite a bs).args = s.args := rfl
@[simp] theorem State.bufWrite_seq (a : Nat) (bs : List Byte) : (s.bufWrite a bs).seq = s.seq := rfl
@[simp] theorem State.bufWrite_abortPending (a : Nat) (bs : List Byte) : (s.bufWrite a bs).abortPending = s.abortPending := rfl
@[simp] theorem State.bufWrite_mgfBlock (a : Nat) (bs : List Byte) : (s.bufWrite a bs).mgfBlock = s.mgfBlock := rfl
@[simp] theorem State.bufWrite_hashReq (a : Nat) (bs : List Byte) : (s.bufWrite a bs).hashReq = s.hashReq := rfl
@[simp] theorem State.bufWrite_digest (a : Nat) (bs : List Byte) : (s.bufWrite a bs).digest = s.digest := rfl
@[simp] theorem State.bufWrite_rngReq (a : Nat) (bs : List Byte) : (s.bufWrite a bs).rngReq = s.rngReq := rfl
@[simp] theorem State.bufWrite_blind (a : Nat) (bs : List Byte) : (s.bufWrite a bs).blind = s.blind := rfl
@[simp] theorem State.bufWrite_hashStale (a : Nat) (bs : List Byte) : (s.bufWrite a bs).hashStale = s.hashStale := rfl
@[simp] theorem State.bufWrite_rngStale (a : Nat) (bs : List Byte) : (s.bufWrite a bs).rngStale = s.rngStale := rfl
@[simp] theorem State.bufWrite_reply (a : Nat) (bs : List Byte) : (s.bufWrite a bs).reply = s.reply := rfl
@[simp] theorem State.bufWrite_moves (a : Nat) (bs : List Byte) : (s.bufWrite a bs).moves = s.moves := rfl

/-! ### setOpReg -/

@[simp] theorem State.setOpReg_op (i : RegIx) (v : IntReg) : (s.setOpReg i v).op = s.op.set i.toNat v i.isLt := rfl
@[simp] theorem State.setOpReg_key (i : RegIx) (v : IntReg) : (s.setOpReg i v).key = s.key := rfl
@[simp] theorem State.setOpReg_buf (i : RegIx) (v : IntReg) : (s.setOpReg i v).buf = s.buf := rfl
@[simp] theorem State.setOpReg_status (i : RegIx) (v : IntReg) : (s.setOpReg i v).status = s.status := rfl
@[simp] theorem State.setOpReg_intStatus (i : RegIx) (v : IntReg) : (s.setOpReg i v).intStatus = s.intStatus := rfl
@[simp] theorem State.setOpReg_intEn (i : RegIx) (v : IntReg) : (s.setOpReg i v).intEn = s.intEn := rfl
@[simp] theorem State.setOpReg_cmdLast (i : RegIx) (v : IntReg) : (s.setOpReg i v).cmdLast = s.cmdLast := rfl
@[simp] theorem State.setOpReg_keycfg (i : RegIx) (v : IntReg) : (s.setOpReg i v).keycfg = s.keycfg := rfl
@[simp] theorem State.setOpReg_hlen (i : RegIx) (v : IntReg) : (s.setOpReg i v).hlen = s.hlen := rfl
@[simp] theorem State.setOpReg_args (i : RegIx) (v : IntReg) : (s.setOpReg i v).args = s.args := rfl
@[simp] theorem State.setOpReg_seq (i : RegIx) (v : IntReg) : (s.setOpReg i v).seq = s.seq := rfl
@[simp] theorem State.setOpReg_abortPending (i : RegIx) (v : IntReg) : (s.setOpReg i v).abortPending = s.abortPending := rfl
@[simp] theorem State.setOpReg_mgfBlock (i : RegIx) (v : IntReg) : (s.setOpReg i v).mgfBlock = s.mgfBlock := rfl
@[simp] theorem State.setOpReg_hashReq (i : RegIx) (v : IntReg) : (s.setOpReg i v).hashReq = s.hashReq := rfl
@[simp] theorem State.setOpReg_digest (i : RegIx) (v : IntReg) : (s.setOpReg i v).digest = s.digest := rfl
@[simp] theorem State.setOpReg_rngReq (i : RegIx) (v : IntReg) : (s.setOpReg i v).rngReq = s.rngReq := rfl
@[simp] theorem State.setOpReg_blind (i : RegIx) (v : IntReg) : (s.setOpReg i v).blind = s.blind := rfl
@[simp] theorem State.setOpReg_hashStale (i : RegIx) (v : IntReg) : (s.setOpReg i v).hashStale = s.hashStale := rfl
@[simp] theorem State.setOpReg_rngStale (i : RegIx) (v : IntReg) : (s.setOpReg i v).rngStale = s.rngStale := rfl
@[simp] theorem State.setOpReg_reply (i : RegIx) (v : IntReg) : (s.setOpReg i v).reply = s.reply := rfl
@[simp] theorem State.setOpReg_moves (i : RegIx) (v : IntReg) : (s.setOpReg i v).moves = s.moves := rfl

/-! ### setKeyReg -/

@[simp] theorem State.setKeyReg_op (k : RegIx) (v : IntReg) : (s.setKeyReg k v).op = s.op := rfl
@[simp] theorem State.setKeyReg_key (k : RegIx) (v : IntReg) : (s.setKeyReg k v).key = s.key.set k.toNat v k.isLt := rfl
@[simp] theorem State.setKeyReg_buf (k : RegIx) (v : IntReg) : (s.setKeyReg k v).buf = s.buf := rfl
@[simp] theorem State.setKeyReg_status (k : RegIx) (v : IntReg) : (s.setKeyReg k v).status = s.status := rfl
@[simp] theorem State.setKeyReg_intStatus (k : RegIx) (v : IntReg) : (s.setKeyReg k v).intStatus = s.intStatus := rfl
@[simp] theorem State.setKeyReg_intEn (k : RegIx) (v : IntReg) : (s.setKeyReg k v).intEn = s.intEn := rfl
@[simp] theorem State.setKeyReg_cmdLast (k : RegIx) (v : IntReg) : (s.setKeyReg k v).cmdLast = s.cmdLast := rfl
@[simp] theorem State.setKeyReg_keycfg (k : RegIx) (v : IntReg) : (s.setKeyReg k v).keycfg = s.keycfg := rfl
@[simp] theorem State.setKeyReg_hlen (k : RegIx) (v : IntReg) : (s.setKeyReg k v).hlen = s.hlen := rfl
@[simp] theorem State.setKeyReg_args (k : RegIx) (v : IntReg) : (s.setKeyReg k v).args = s.args := rfl
@[simp] theorem State.setKeyReg_seq (k : RegIx) (v : IntReg) : (s.setKeyReg k v).seq = s.seq := rfl
@[simp] theorem State.setKeyReg_abortPending (k : RegIx) (v : IntReg) : (s.setKeyReg k v).abortPending = s.abortPending := rfl
@[simp] theorem State.setKeyReg_mgfBlock (k : RegIx) (v : IntReg) : (s.setKeyReg k v).mgfBlock = s.mgfBlock := rfl
@[simp] theorem State.setKeyReg_hashReq (k : RegIx) (v : IntReg) : (s.setKeyReg k v).hashReq = s.hashReq := rfl
@[simp] theorem State.setKeyReg_digest (k : RegIx) (v : IntReg) : (s.setKeyReg k v).digest = s.digest := rfl
@[simp] theorem State.setKeyReg_rngReq (k : RegIx) (v : IntReg) : (s.setKeyReg k v).rngReq = s.rngReq := rfl
@[simp] theorem State.setKeyReg_blind (k : RegIx) (v : IntReg) : (s.setKeyReg k v).blind = s.blind := rfl
@[simp] theorem State.setKeyReg_hashStale (k : RegIx) (v : IntReg) : (s.setKeyReg k v).hashStale = s.hashStale := rfl
@[simp] theorem State.setKeyReg_rngStale (k : RegIx) (v : IntReg) : (s.setKeyReg k v).rngStale = s.rngStale := rfl
@[simp] theorem State.setKeyReg_reply (k : RegIx) (v : IntReg) : (s.setKeyReg k v).reply = s.reply := rfl
@[simp] theorem State.setKeyReg_moves (k : RegIx) (v : IntReg) : (s.setKeyReg k v).moves = s.moves := rfl

/-! ### setOp -/

@[simp] theorem State.setOp_op (i : RegIx) (v : Nat) : (s.setOp i v).op = s.op.set i.toNat (BitVec.ofNat 8192 v) i.isLt := rfl
@[simp] theorem State.setOp_key (i : RegIx) (v : Nat) : (s.setOp i v).key = s.key := rfl
@[simp] theorem State.setOp_buf (i : RegIx) (v : Nat) : (s.setOp i v).buf = s.buf := rfl
@[simp] theorem State.setOp_status (i : RegIx) (v : Nat) : (s.setOp i v).status = s.status := rfl
@[simp] theorem State.setOp_intStatus (i : RegIx) (v : Nat) : (s.setOp i v).intStatus = s.intStatus := rfl
@[simp] theorem State.setOp_intEn (i : RegIx) (v : Nat) : (s.setOp i v).intEn = s.intEn := rfl
@[simp] theorem State.setOp_cmdLast (i : RegIx) (v : Nat) : (s.setOp i v).cmdLast = s.cmdLast := rfl
@[simp] theorem State.setOp_keycfg (i : RegIx) (v : Nat) : (s.setOp i v).keycfg = s.keycfg := rfl
@[simp] theorem State.setOp_hlen (i : RegIx) (v : Nat) : (s.setOp i v).hlen = s.hlen := rfl
@[simp] theorem State.setOp_args (i : RegIx) (v : Nat) : (s.setOp i v).args = s.args := rfl
@[simp] theorem State.setOp_seq (i : RegIx) (v : Nat) : (s.setOp i v).seq = s.seq := rfl
@[simp] theorem State.setOp_abortPending (i : RegIx) (v : Nat) : (s.setOp i v).abortPending = s.abortPending := rfl
@[simp] theorem State.setOp_mgfBlock (i : RegIx) (v : Nat) : (s.setOp i v).mgfBlock = s.mgfBlock := rfl
@[simp] theorem State.setOp_hashReq (i : RegIx) (v : Nat) : (s.setOp i v).hashReq = s.hashReq := rfl
@[simp] theorem State.setOp_digest (i : RegIx) (v : Nat) : (s.setOp i v).digest = s.digest := rfl
@[simp] theorem State.setOp_rngReq (i : RegIx) (v : Nat) : (s.setOp i v).rngReq = s.rngReq := rfl
@[simp] theorem State.setOp_blind (i : RegIx) (v : Nat) : (s.setOp i v).blind = s.blind := rfl
@[simp] theorem State.setOp_hashStale (i : RegIx) (v : Nat) : (s.setOp i v).hashStale = s.hashStale := rfl
@[simp] theorem State.setOp_rngStale (i : RegIx) (v : Nat) : (s.setOp i v).rngStale = s.rngStale := rfl
@[simp] theorem State.setOp_reply (i : RegIx) (v : Nat) : (s.setOp i v).reply = s.reply := rfl
@[simp] theorem State.setOp_moves (i : RegIx) (v : Nat) : (s.setOp i v).moves = s.moves := rfl

/-! ### accept -/

@[simp] theorem State.accept_op (w : Word) : (s.accept w).op = s.op := rfl
@[simp] theorem State.accept_key (w : Word) : (s.accept w).key = s.key := rfl
@[simp] theorem State.accept_buf (w : Word) : (s.accept w).buf = s.buf := rfl
@[simp] theorem State.accept_status (w : Word) : (s.accept w).status = s.status.issued (opcOf w == 0x18#6) := rfl
@[simp] theorem State.accept_intStatus (w : Word) : (s.accept w).intStatus = s.intStatus := rfl
@[simp] theorem State.accept_intEn (w : Word) : (s.accept w).intEn = s.intEn := rfl
@[simp] theorem State.accept_cmdLast (w : Word) : (s.accept w).cmdLast = w := rfl
@[simp] theorem State.accept_keycfg (w : Word) : (s.accept w).keycfg = s.keycfg := rfl
@[simp] theorem State.accept_hlen (w : Word) : (s.accept w).hlen = s.hlen := rfl
@[simp] theorem State.accept_args (w : Word) : (s.accept w).args = s.args := rfl
@[simp] theorem State.accept_seq (w : Word) : (s.accept w).seq = .run w := rfl
@[simp] theorem State.accept_abortPending (w : Word) : (s.accept w).abortPending = false := rfl
@[simp] theorem State.accept_mgfBlock (w : Word) : (s.accept w).mgfBlock = 0 := rfl
@[simp] theorem State.accept_hashReq (w : Word) : (s.accept w).hashReq = s.hashReq := rfl
@[simp] theorem State.accept_digest (w : Word) : (s.accept w).digest = s.digest := rfl
@[simp] theorem State.accept_rngReq (w : Word) : (s.accept w).rngReq = s.rngReq := rfl
@[simp] theorem State.accept_blind (w : Word) : (s.accept w).blind = s.blind := rfl
@[simp] theorem State.accept_hashStale (w : Word) : (s.accept w).hashStale = s.hashStale := rfl
@[simp] theorem State.accept_rngStale (w : Word) : (s.accept w).rngStale = s.rngStale := rfl
@[simp] theorem State.accept_reply (w : Word) : (s.accept w).reply = s.reply := rfl
@[simp] theorem State.accept_moves (w : Word) : (s.accept w).moves = s.moves := rfl

/-! ### complete -/

@[simp] theorem State.complete_op (c : ErrCode) : (s.complete c).op = s.op := rfl
@[simp] theorem State.complete_key (c : ErrCode) : (s.complete c).key = s.key := rfl
@[simp] theorem State.complete_buf (c : ErrCode) : (s.complete c).buf = s.buf := rfl
@[simp] theorem State.complete_status (c : ErrCode) : (s.complete c).status = s.status.completed c := rfl
@[simp] theorem State.complete_intStatus (c : ErrCode) : (s.complete c).intStatus = s.intStatus ||| completionBits c := rfl
@[simp] theorem State.complete_intEn (c : ErrCode) : (s.complete c).intEn = s.intEn := rfl
@[simp] theorem State.complete_cmdLast (c : ErrCode) : (s.complete c).cmdLast = s.cmdLast := rfl
@[simp] theorem State.complete_keycfg (c : ErrCode) : (s.complete c).keycfg = s.keycfg := rfl
@[simp] theorem State.complete_hlen (c : ErrCode) : (s.complete c).hlen = s.hlen := rfl
@[simp] theorem State.complete_args (c : ErrCode) : (s.complete c).args = s.args := rfl
@[simp] theorem State.complete_seq (c : ErrCode) : (s.complete c).seq = .idle := rfl
@[simp] theorem State.complete_abortPending (c : ErrCode) : (s.complete c).abortPending = false := rfl
@[simp] theorem State.complete_mgfBlock (c : ErrCode) : (s.complete c).mgfBlock = 0 := rfl
@[simp] theorem State.complete_hashReq (c : ErrCode) : (s.complete c).hashReq = none := rfl
@[simp] theorem State.complete_digest (c : ErrCode) : (s.complete c).digest = none := rfl
@[simp] theorem State.complete_rngReq (c : ErrCode) : (s.complete c).rngReq = none := rfl
@[simp] theorem State.complete_blind (c : ErrCode) : (s.complete c).blind = none := rfl
@[simp] theorem State.complete_hashStale (c : ErrCode) : (s.complete c).hashStale = s.hashStale := rfl
@[simp] theorem State.complete_rngStale (c : ErrCode) : (s.complete c).rngStale = s.rngStale := rfl
@[simp] theorem State.complete_reply (c : ErrCode) : (s.complete c).reply = s.reply := rfl
@[simp] theorem State.complete_moves (c : ErrCode) : (s.complete c).moves = s.moves := rfl

/-! ### sendHash -/

@[simp] theorem State.sendHash_op (j : Nat) (m : List Byte) : (s.sendHash j m).op = s.op := rfl
@[simp] theorem State.sendHash_key (j : Nat) (m : List Byte) : (s.sendHash j m).key = s.key := rfl
@[simp] theorem State.sendHash_buf (j : Nat) (m : List Byte) : (s.sendHash j m).buf = s.buf := rfl
@[simp] theorem State.sendHash_status (j : Nat) (m : List Byte) : (s.sendHash j m).status = s.status := rfl
@[simp] theorem State.sendHash_intStatus (j : Nat) (m : List Byte) : (s.sendHash j m).intStatus = s.intStatus := rfl
@[simp] theorem State.sendHash_intEn (j : Nat) (m : List Byte) : (s.sendHash j m).intEn = s.intEn := rfl
@[simp] theorem State.sendHash_cmdLast (j : Nat) (m : List Byte) : (s.sendHash j m).cmdLast = s.cmdLast := rfl
@[simp] theorem State.sendHash_keycfg (j : Nat) (m : List Byte) : (s.sendHash j m).keycfg = s.keycfg := rfl
@[simp] theorem State.sendHash_hlen (j : Nat) (m : List Byte) : (s.sendHash j m).hlen = s.hlen := rfl
@[simp] theorem State.sendHash_args (j : Nat) (m : List Byte) : (s.sendHash j m).args = s.args := rfl
@[simp] theorem State.sendHash_seq (j : Nat) (m : List Byte) : (s.sendHash j m).seq = .waitHash s.cmdWord j := rfl
@[simp] theorem State.sendHash_abortPending (j : Nat) (m : List Byte) : (s.sendHash j m).abortPending = s.abortPending := rfl
@[simp] theorem State.sendHash_mgfBlock (j : Nat) (m : List Byte) : (s.sendHash j m).mgfBlock = s.mgfBlock := rfl
@[simp] theorem State.sendHash_hashReq (j : Nat) (m : List Byte) : (s.sendHash j m).hashReq = some m := rfl
@[simp] theorem State.sendHash_digest (j : Nat) (m : List Byte) : (s.sendHash j m).digest = none := rfl
@[simp] theorem State.sendHash_rngReq (j : Nat) (m : List Byte) : (s.sendHash j m).rngReq = s.rngReq := rfl
@[simp] theorem State.sendHash_blind (j : Nat) (m : List Byte) : (s.sendHash j m).blind = s.blind := rfl
@[simp] theorem State.sendHash_hashStale (j : Nat) (m : List Byte) : (s.sendHash j m).hashStale = s.hashStale := rfl
@[simp] theorem State.sendHash_rngStale (j : Nat) (m : List Byte) : (s.sendHash j m).rngStale = s.rngStale := rfl
@[simp] theorem State.sendHash_reply (j : Nat) (m : List Byte) : (s.sendHash j m).reply = s.reply := rfl
@[simp] theorem State.sendHash_moves (j : Nat) (m : List Byte) : (s.sendHash j m).moves = s.moves := rfl

/-! ### requestDraw -/

@[simp] theorem State.requestDraw_op (hi : Nat) : (s.requestDraw hi).op = s.op := rfl
@[simp] theorem State.requestDraw_key (hi : Nat) : (s.requestDraw hi).key = s.key := rfl
@[simp] theorem State.requestDraw_buf (hi : Nat) : (s.requestDraw hi).buf = s.buf := rfl
@[simp] theorem State.requestDraw_status (hi : Nat) : (s.requestDraw hi).status = s.status := rfl
@[simp] theorem State.requestDraw_intStatus (hi : Nat) : (s.requestDraw hi).intStatus = s.intStatus := rfl
@[simp] theorem State.requestDraw_intEn (hi : Nat) : (s.requestDraw hi).intEn = s.intEn := rfl
@[simp] theorem State.requestDraw_cmdLast (hi : Nat) : (s.requestDraw hi).cmdLast = s.cmdLast := rfl
@[simp] theorem State.requestDraw_keycfg (hi : Nat) : (s.requestDraw hi).keycfg = s.keycfg := rfl
@[simp] theorem State.requestDraw_hlen (hi : Nat) : (s.requestDraw hi).hlen = s.hlen := rfl
@[simp] theorem State.requestDraw_args (hi : Nat) : (s.requestDraw hi).args = s.args := rfl
@[simp] theorem State.requestDraw_seq (hi : Nat) : (s.requestDraw hi).seq = .waitRng s.cmdWord := rfl
@[simp] theorem State.requestDraw_abortPending (hi : Nat) : (s.requestDraw hi).abortPending = s.abortPending := rfl
@[simp] theorem State.requestDraw_mgfBlock (hi : Nat) : (s.requestDraw hi).mgfBlock = s.mgfBlock := rfl
@[simp] theorem State.requestDraw_hashReq (hi : Nat) : (s.requestDraw hi).hashReq = s.hashReq := rfl
@[simp] theorem State.requestDraw_digest (hi : Nat) : (s.requestDraw hi).digest = s.digest := rfl
@[simp] theorem State.requestDraw_rngReq (hi : Nat) : (s.requestDraw hi).rngReq = some hi := rfl
@[simp] theorem State.requestDraw_blind (hi : Nat) : (s.requestDraw hi).blind = none := rfl
@[simp] theorem State.requestDraw_hashStale (hi : Nat) : (s.requestDraw hi).hashStale = s.hashStale := rfl
@[simp] theorem State.requestDraw_rngStale (hi : Nat) : (s.requestDraw hi).rngStale = s.rngStale := rfl
@[simp] theorem State.requestDraw_reply (hi : Nat) : (s.requestDraw hi).reply = s.reply := rfl
@[simp] theorem State.requestDraw_moves (hi : Nat) : (s.requestDraw hi).moves = s.moves := rfl

/-! ### storeBlock -/

@[simp] theorem State.storeBlock_op (x : Bool) (j : Nat) (d : List Byte) : (s.storeBlock x j d).op = s.op := rfl
@[simp] theorem State.storeBlock_key (x : Bool) (j : Nat) (d : List Byte) : (s.storeBlock x j d).key = s.key := rfl
@[simp] theorem State.storeBlock_buf (x : Bool) (j : Nat) (d : List Byte) : (s.storeBlock x j d).buf = s.buf.writeBytes (s.mgfAddr j) (s.mgfBlockBytes x j d) := rfl
@[simp] theorem State.storeBlock_status (x : Bool) (j : Nat) (d : List Byte) : (s.storeBlock x j d).status = s.status := rfl
@[simp] theorem State.storeBlock_intStatus (x : Bool) (j : Nat) (d : List Byte) : (s.storeBlock x j d).intStatus = s.intStatus := rfl
@[simp] theorem State.storeBlock_intEn (x : Bool) (j : Nat) (d : List Byte) : (s.storeBlock x j d).intEn = s.intEn := rfl
@[simp] theorem State.storeBlock_cmdLast (x : Bool) (j : Nat) (d : List Byte) : (s.storeBlock x j d).cmdLast = s.cmdLast := rfl
@[simp] theorem State.storeBlock_keycfg (x : Bool) (j : Nat) (d : List Byte) : (s.storeBlock x j d).keycfg = s.keycfg := rfl
@[simp] theorem State.storeBlock_hlen (x : Bool) (j : Nat) (d : List Byte) : (s.storeBlock x j d).hlen = s.hlen := rfl
@[simp] theorem State.storeBlock_args (x : Bool) (j : Nat) (d : List Byte) : (s.storeBlock x j d).args = s.args := rfl
@[simp] theorem State.storeBlock_seq (x : Bool) (j : Nat) (d : List Byte) : (s.storeBlock x j d).seq = .run s.cmdWord := rfl
@[simp] theorem State.storeBlock_abortPending (x : Bool) (j : Nat) (d : List Byte) : (s.storeBlock x j d).abortPending = s.abortPending := rfl
@[simp] theorem State.storeBlock_mgfBlock (x : Bool) (j : Nat) (d : List Byte) : (s.storeBlock x j d).mgfBlock = j + 1 := rfl
@[simp] theorem State.storeBlock_hashReq (x : Bool) (j : Nat) (d : List Byte) : (s.storeBlock x j d).hashReq = s.hashReq := rfl
@[simp] theorem State.storeBlock_digest (x : Bool) (j : Nat) (d : List Byte) : (s.storeBlock x j d).digest = none := rfl
@[simp] theorem State.storeBlock_rngReq (x : Bool) (j : Nat) (d : List Byte) : (s.storeBlock x j d).rngReq = s.rngReq := rfl
@[simp] theorem State.storeBlock_blind (x : Bool) (j : Nat) (d : List Byte) : (s.storeBlock x j d).blind = s.blind := rfl
@[simp] theorem State.storeBlock_hashStale (x : Bool) (j : Nat) (d : List Byte) : (s.storeBlock x j d).hashStale = s.hashStale := rfl
@[simp] theorem State.storeBlock_rngStale (x : Bool) (j : Nat) (d : List Byte) : (s.storeBlock x j d).rngStale = s.rngStale := rfl
@[simp] theorem State.storeBlock_reply (x : Bool) (j : Nat) (d : List Byte) : (s.storeBlock x j d).reply = s.reply := rfl
@[simp] theorem State.storeBlock_moves (x : Bool) (j : Nat) (d : List Byte) : (s.storeBlock x j d).moves = s.moves := rfl

/-! ### answer -/

@[simp] theorem State.answer_op (r : Resp) (d : Option Word) : (s.answer r d).op = s.op := rfl
@[simp] theorem State.answer_key (r : Resp) (d : Option Word) : (s.answer r d).key = s.key := rfl
@[simp] theorem State.answer_buf (r : Resp) (d : Option Word) : (s.answer r d).buf = s.buf := rfl
@[simp] theorem State.answer_status (r : Resp) (d : Option Word) : (s.answer r d).status = s.status := rfl
@[simp] theorem State.answer_intStatus (r : Resp) (d : Option Word) : (s.answer r d).intStatus = s.intStatus := rfl
@[simp] theorem State.answer_intEn (r : Resp) (d : Option Word) : (s.answer r d).intEn = s.intEn := rfl
@[simp] theorem State.answer_cmdLast (r : Resp) (d : Option Word) : (s.answer r d).cmdLast = s.cmdLast := rfl
@[simp] theorem State.answer_keycfg (r : Resp) (d : Option Word) : (s.answer r d).keycfg = s.keycfg := rfl
@[simp] theorem State.answer_hlen (r : Resp) (d : Option Word) : (s.answer r d).hlen = s.hlen := rfl
@[simp] theorem State.answer_args (r : Resp) (d : Option Word) : (s.answer r d).args = s.args := rfl
@[simp] theorem State.answer_seq (r : Resp) (d : Option Word) : (s.answer r d).seq = s.seq := rfl
@[simp] theorem State.answer_abortPending (r : Resp) (d : Option Word) : (s.answer r d).abortPending = s.abortPending := rfl
@[simp] theorem State.answer_mgfBlock (r : Resp) (d : Option Word) : (s.answer r d).mgfBlock = s.mgfBlock := rfl
@[simp] theorem State.answer_hashReq (r : Resp) (d : Option Word) : (s.answer r d).hashReq = s.hashReq := rfl
@[simp] theorem State.answer_digest (r : Resp) (d : Option Word) : (s.answer r d).digest = s.digest := rfl
@[simp] theorem State.answer_rngReq (r : Resp) (d : Option Word) : (s.answer r d).rngReq = s.rngReq := rfl
@[simp] theorem State.answer_blind (r : Resp) (d : Option Word) : (s.answer r d).blind = s.blind := rfl
@[simp] theorem State.answer_hashStale (r : Resp) (d : Option Word) : (s.answer r d).hashStale = s.hashStale := rfl
@[simp] theorem State.answer_rngStale (r : Resp) (d : Option Word) : (s.answer r d).rngStale = s.rngStale := rfl
@[simp] theorem State.answer_reply (r : Resp) (d : Option Word) : (s.answer r d).reply = some ⟨r, d⟩ := rfl
@[simp] theorem State.answer_moves (r : Resp) (d : Option Word) : (s.answer r d).moves = s.moves := rfl

/-! ### resetBlock -/

@[simp] theorem State.resetBlock_op : s.resetBlock.op = State.reset.op := rfl
@[simp] theorem State.resetBlock_key : s.resetBlock.key = State.reset.key := rfl
@[simp] theorem State.resetBlock_buf : s.resetBlock.buf = State.reset.buf := rfl
@[simp] theorem State.resetBlock_status : s.resetBlock.status = State.reset.status := rfl
@[simp] theorem State.resetBlock_intStatus : s.resetBlock.intStatus = State.reset.intStatus := rfl
@[simp] theorem State.resetBlock_intEn : s.resetBlock.intEn = State.reset.intEn := rfl
@[simp] theorem State.resetBlock_cmdLast : s.resetBlock.cmdLast = State.reset.cmdLast := rfl
@[simp] theorem State.resetBlock_keycfg : s.resetBlock.keycfg = State.reset.keycfg := rfl
@[simp] theorem State.resetBlock_hlen : s.resetBlock.hlen = State.reset.hlen := rfl
@[simp] theorem State.resetBlock_args : s.resetBlock.args = State.reset.args := rfl
@[simp] theorem State.resetBlock_seq : s.resetBlock.seq = State.reset.seq := rfl
@[simp] theorem State.resetBlock_abortPending : s.resetBlock.abortPending = State.reset.abortPending := rfl
@[simp] theorem State.resetBlock_mgfBlock : s.resetBlock.mgfBlock = State.reset.mgfBlock := rfl
@[simp] theorem State.resetBlock_hashReq : s.resetBlock.hashReq = State.reset.hashReq := rfl
@[simp] theorem State.resetBlock_digest : s.resetBlock.digest = State.reset.digest := rfl
@[simp] theorem State.resetBlock_rngReq : s.resetBlock.rngReq = State.reset.rngReq := rfl
@[simp] theorem State.resetBlock_blind : s.resetBlock.blind = State.reset.blind := rfl
@[simp] theorem State.resetBlock_hashStale : s.resetBlock.hashStale = s.hashStale + (if s.hashReq.isSome then 1 else 0) := rfl
@[simp] theorem State.resetBlock_rngStale : s.resetBlock.rngStale = s.rngStale + (if s.rngReq.isSome then 1 else 0) := rfl
@[simp] theorem State.resetBlock_reply : s.resetBlock.reply = s.reply := rfl
@[simp] theorem State.resetBlock_moves : s.resetBlock.moves = s.moves := rfl

end Sys2Proof.Machine
end

