-- ==== Sys2Proof/Laws/Ops.lean ====
section
/-! SUPPORT. What the shared operations do: register reads after writes, the bytes of a slot, completion, the issue of a command,
reset, and the ports' answers. -/

namespace Sys2Proof.Machine

/-! ### Registers -/

theorem State.opReg_setOpReg_self (s : State) (i : RegIx) (v : IntReg) : (s.setOpReg i v).opReg i = v := by
  simp [State.opReg]

theorem State.opReg_setOpReg_ne (s : State) {i k : RegIx} (v : IntReg) (h : k ≠ i) :
    (s.setOpReg i v).opReg k = s.opReg k := by
  have : i.toNat ≠ k.toNat := fun e => h (BitVec.eq_of_toNat_eq e.symm)
  simp [State.opReg, this]

theorem State.keyReg_setKeyReg_self (s : State) (k : RegIx) (v : IntReg) : (s.setKeyReg k v).keyReg k = v := by
  simp [State.keyReg]

theorem State.keyReg_setKeyReg_ne (s : State) {i k : RegIx} (v : IntReg) (h : k ≠ i) :
    (s.setKeyReg i v).keyReg k = s.keyReg k := by
  have : i.toNat ≠ k.toNat := fun e => h (BitVec.eq_of_toNat_eq e.symm)
  simp [State.keyReg, this]

theorem State.opReg_setOp_self (s : State) (i : RegIx) (v : Nat) : (s.setOp i v).opReg i = BitVec.ofNat 8192 v :=
  s.opReg_setOpReg_self i _

theorem State.opReg_setOp_ne (s : State) {i k : RegIx} (v : Nat) (h : k ≠ i) : (s.setOp i v).opReg k = s.opReg k :=
  s.opReg_setOpReg_ne _ h

/-- A register that is written with a value that fits reads as that value (rule R14). -/
theorem State.opNat_setOp_self (s : State) (i : RegIx) {v : Nat} (hv : v < 2 ^ Config.rbits) : (s.setOp i v).opNat i = v := by
  unfold State.opNat
  rw [Config.rbits] at hv
  rw [State.opReg_setOp_self, BitVec.toNat_ofNat]
  exact Nat.mod_eq_of_lt hv

/-- Every integer register holds less than 2^8192 (rule R19). -/
theorem State.opNat_lt (s : State) (i : RegIx) : s.opNat i < 2 ^ Config.rbits := by
  rw [Config.rbits, State.opNat]
  exact (s.opReg i).isLt

theorem State.keyNat_lt (s : State) (k : RegIx) : s.keyNat k < 2 ^ Config.rbits := by
  rw [Config.rbits, State.keyNat]
  exact (s.keyReg k).isLt

/-- What depends on OP alone is the same in two states with the same OP. -/
theorem State.opReg_congr {s t : State} (h : t.op = s.op) (i : RegIx) : t.opReg i = s.opReg i := by
  simp [State.opReg, h]

theorem State.opNat_congr {s t : State} (h : t.op = s.op) (i : RegIx) : t.opNat i = s.opNat i := by
  simp [State.opNat, State.opReg_congr h]

theorem State.keyReg_congr {s t : State} (h : t.key = s.key) (k : RegIx) : t.keyReg k = s.keyReg k := by
  simp [State.keyReg, h]

/-! ### The bytes of a slot -/

theorem slotByte_setSlotByte_self (v : IntReg) (b : Nat) (x : Byte) (hb : b < Config.maxBytes) :
    slotByte (setSlotByte v b x) b = x := by
  have hs : slotShift b + 8 ≤ 8192 := by unfold slotShift Config.maxBytes at *; omega
  unfold slotByte setSlotByte
  ext i hi
  have h1 : slotShift b + i < 8192 := by omega
  have h2 : (255#8192).getLsbD i = true := by
    rw [BitVec.getLsbD_ofNat]
    simp only [show i < 8192 by omega, decide_true, Bool.true_and]
    interval_cases i <;> decide
  simp [BitVec.getElem_extractLsb', h1, h2, hi]

theorem slotByte_setSlotByte_ne (v : IntReg) {b c : Nat} (x : Byte) (hb : b < Config.maxBytes) (hc : c < Config.maxBytes)
    (h : c ≠ b) : slotByte (setSlotByte v b x) c = slotByte v c := by
  have hsb : slotShift b = 8 * (1023 - b) := by unfold slotShift Config.maxBytes; omega
  have hsc : slotShift c = 8 * (1023 - c) := by unfold slotShift Config.maxBytes; omega
  unfold Config.maxBytes at hb hc
  unfold slotByte setSlotByte
  ext i hi
  have h1 : slotShift c + i < 8192 := by omega
  have hx : ∀ j, 8 ≤ j → x.getLsbD j = false := fun j hj => BitVec.getLsbD_of_ge _ _ hj
  have hf : ∀ j, 8 ≤ j → (255#8192).getLsbD j = false := by
    intro j hj
    rw [BitVec.getLsbD_ofNat, Nat.testBit_lt_two_pow (lt_of_lt_of_le (by norm_num : 255 < 2 ^ 8) (Nat.pow_le_pow_right (by norm_num) hj))]
    simp
  by_cases hlt : slotShift c + i < slotShift b
  · simp [BitVec.getElem_extractLsb', h1, hlt]
  · have h8 : 8 ≤ slotShift c + i - slotShift b := by omega
    have hg : (255#8192)[slotShift c + i - slotShift b]'(by omega) = false := by
      rw [← BitVec.getLsbD_eq_getElem]; exact hf _ h8
    simp [BitVec.getElem_extractLsb', h1, hlt, hg, hx _ h8]

/-! ### Completion -/

/-- The two ways a command whose checks passed ends (rules R60, R92). -/
theorem State.finish_cases (s : State) (f : State → State) :
    (s.abortPending = true ∧ s.finish f = s.complete .aborted) ∨
      (s.abortPending = false ∧ s.finish f = (f s).complete .noError) := by
  unfold State.finish
  cases s.abortPending <;> simp

theorem State.finish_of_abort {s : State} (f : State → State) (h : s.abortPending = true) :
    s.finish f = s.complete .aborted := by simp [State.finish, h]

theorem State.finish_of_no_abort {s : State} (f : State → State) (h : s.abortPending = false) :
    s.finish f = (f s).complete .noError := by simp [State.finish, h]

@[simp] theorem Status.completed_busy (t : Status) (c : ErrCode) : (t.completed c).busy = false := rfl
@[simp] theorem Status.completed_done (t : Status) (c : ErrCode) : (t.completed c).done = true := rfl
@[simp] theorem Status.completed_err (t : Status) (c : ErrCode) : (t.completed c).err = (c != .noError) := rfl
@[simp] theorem Status.completed_eq (t : Status) (c : ErrCode) : (t.completed c).eq = t.eq := rfl
@[simp] theorem Status.completed_errcode (t : Status) (c : ErrCode) : (t.completed c).errcode = c := rfl
@[simp] theorem Status.issued_busy (t : Status) (b : Bool) : (t.issued b).busy = true := rfl
@[simp] theorem Status.issued_done (t : Status) (b : Bool) : (t.issued b).done = false := rfl
@[simp] theorem Status.issued_err (t : Status) (b : Bool) : (t.issued b).err = false := rfl
@[simp] theorem Status.issued_eq (t : Status) (b : Bool) : (t.issued b).eq = (if b then false else t.eq) := rfl
@[simp] theorem Status.issued_errcode (t : Status) (b : Bool) : (t.issued b).errcode = .noError := rfl

/-! ### Issue, abort, reset -/

/-- A CMD write issues while idle and is dropped with OVR_I otherwise (rule R59). -/
theorem State.issue_cases (s : State) (w : Word) :
    (s.seq = .idle ∧ s.issue w = s.accept w) ∨ (s.seq ≠ .idle ∧ s.issue w = s.setInt ovrBit) := by
  unfold State.issue
  cases s.seq <;> simp

/-- A write of CTRL.ABORT is latched unless the block is idle (rule R92). -/
theorem State.abort_cases (s : State) :
    (s.seq = .idle ∧ s.abort = s) ∨ (s.seq ≠ .idle ∧ s.abort = { s with abortPending := true }) := by
  unfold State.abort
  cases s.seq <;> simp

/-- A write of CTRL resets, aborts, or does nothing (rule R26). -/
theorem State.writeCtrl_cases (s : State) (v : Word) :
    s.writeCtrl v = s.resetBlock ∨ s.writeCtrl v = s.abort ∨ s.writeCtrl v = s := by
  unfold State.writeCtrl
  split
  · exact .inl rfl
  · split
    · exact .inr (.inl rfl)
    · exact .inr (.inr rfl)

theorem State.reset_opReg (i : RegIx) : State.reset.opReg i = 0#8192 := by simp [State.opReg, State.reset]

theorem State.reset_keyReg (k : RegIx) : State.reset.keyReg k = 0#8192 := by simp [State.keyReg, State.reset]

/-! ### The ports -/

/-- What the hash core's move can give (rule R85). -/
theorem hashAnswer_cases (s : State) :
    (0 < s.hashStale ∧ hashAnswer s = .next { s with hashStale := s.hashStale - 1 }) ∨
      (s.hashStale = 0 ∧ s.hashReq = none ∧ hashAnswer s = .next s) ∨
      (∃ m, s.hashStale = 0 ∧ s.hashReq = some m ∧ (Config.hashFn m).length = s.hlen.toNat ∧
        hashAnswer s = .next { s with hashReq := none, digest := some (Config.hashFn m) }) ∨
      (∃ m, s.hashStale = 0 ∧ s.hashReq = some m ∧ (Config.hashFn m).length ≠ s.hlen.toNat ∧
        hashAnswer s = .refused .hashContract) := by
  unfold hashAnswer
  split
  · exact .inl ⟨‹_›, rfl⟩
  · have h0 : s.hashStale = 0 := by omega
    split
    · exact .inr (.inl ⟨h0, ‹_›, rfl⟩)
    · split
      · exact .inr (.inr (.inl ⟨_, h0, ‹_›, ‹_›, rfl⟩))
      · exact .inr (.inr (.inr ⟨_, h0, ‹_›, ‹_›, rfl⟩))

/-- What the RNG's move can give (rule R73). -/
theorem rngAnswer_cases (r : Nat) (s : State) :
    (0 < s.rngStale ∧ rngAnswer r s = { s with rngStale := s.rngStale - 1 }) ∨
      (s.rngStale = 0 ∧ rngAnswer r s = s) ∨
      (∃ hi, s.rngStale = 0 ∧ s.rngReq = some hi ∧ 1 ≤ r ∧ r ≤ hi ∧
        rngAnswer r s = { s with rngReq := none, blind := some r }) := by
  unfold rngAnswer
  split
  · exact .inl ⟨‹_›, rfl⟩
  · have h0 : s.rngStale = 0 := by omega
    split
    · exact .inr (.inl ⟨h0, rfl⟩)
    · split
      · exact .inr (.inr ⟨_, h0, ‹_›, And.left ‹_›, And.right ‹_›, rfl⟩)
      · exact .inr (.inl ⟨h0, rfl⟩)

end Sys2Proof.Machine
end

