-- ==== Sys2Proof/Laws/Bus.lean ====
section
/-! SUPPORT. What one host access can do, said once: `BusEffect` lists the possibilities, `hostAccess_effect` says there are no
others. -/

namespace Sys2Proof.Machine

/-! ### Writes of the data class -/

/-- `t` differs from `s` in OP, KEY and BUF at most, keeps BUF canonical and leaves KEY slot 15 alone. -/
structure DataOnly (s t : State) : Prop where
  rest : t = { s with op := t.op, key := t.key, buf := t.buf }
  canonical : s.buf.wf = true → t.buf.wf = true
  slot15 : t.keyReg 15#4 = s.keyReg 15#4

theorem DataOnly.refl (s : State) : DataOnly s s := ⟨rfl, id, rfl⟩

theorem DataOnly.trans {s t u : State} (h : DataOnly s t) (h' : DataOnly t u) : DataOnly s u where
  rest := by rw [h'.rest, h.rest]
  canonical := fun hw => h'.canonical (h.canonical hw)
  slot15 := h'.slot15.trans h.slot15

/-- The KEY window stops below slot 15 (rule R38). -/
theorem regionOf_key_ne {off : Nat} {k : RegIx} {b : Nat} (h : regionOf off = .key k b) : k ≠ 15#4 := by
  unfold regionOf at h
  split at h; · cases h
  split at h; · cases h
  split at h; · cases h
  split at h; · cases h
  split at h
  · injection h with hk _
    subst hk
    intro h15
    have := congrArg BitVec.toNat h15
    simp only [BitVec.toNat_ofNat] at this
    omega
  · cases h

theorem writeByteAt_dataOnly (s : State) (off : Nat) (x : Byte) : DataOnly s (s.writeByteAt off x) := by
  unfold State.writeByteAt
  split
  · exact .refl s
  · exact ⟨rfl, Memory.write_wf _ x, rfl⟩
  · exact ⟨rfl, id, rfl⟩
  · refine ⟨rfl, id, ?_⟩
    exact s.keyReg_setKeyReg_ne _ (regionOf_key_ne ‹_›).symm
  · exact .refl s

theorem writeLanes_dataOnly (s : State) (off : Nat) (v : Word) : ∀ n, DataOnly s (s.writeLanes off v n)
  | 0 => .refl s
  | n + 1 => (writeLanes_dataOnly s off v n).trans (writeByteAt_dataOnly _ _ _)

/-! ### KEYCFG -/

/-- KEYCFG as the host reads it, field by field (rule R31). -/
theorem State.readReg_keycfg (s : State) : s.readReg .keycfg =
    s.keycfg.u.setWidth 32 ||| (if s.keycfg.pubeV then 0x100#32 else 0#32) ||| (if s.keycfg.noBlind then 0x200#32 else 0#32) := by
  simp only [State.readReg]
  generalize s.keycfg = k
  obtain ⟨u, p, n⟩ := k
  revert u p n
  decide

/-- The fields a write of KEYCFG stores read back as the written bits outside the reserved ones (rule R31). -/
theorem keycfg_readback (v : Word) :
    (v.setWidth 3).setWidth 32 ||| (if v.getLsbD 8 then 0x100#32 else 0#32) ||| (if v.getLsbD 9 then 0x200#32 else 0#32) =
      v &&& 0x307#32 := by
  cases h8 : v.getLsbD 8 <;> cases h9 : v.getLsbD 9 <;> ext i hi <;> interval_cases i <;>
    simp_all [BitVec.getLsbD_eq_getElem, BitVec.getElem_setWidth]

/-! ### One host access -/

/-- What a host access can do to the block, before its answer is recorded. -/
inductive BusEffect (s : State) : State → Prop where
  /-- Nothing: a read without side effect, an ignored write, an illegal access, an ABORT while idle. -/
  | none : BusEffect s s
  /-- ACC_I or OVR_I is set because the block is busy. -/
  | busy (b : BitVec 4) (h : b = accBit ∧ s.status.busy = true ∨ b = ovrBit ∧ s.seq ≠ .idle) : BusEffect s (s.setInt b)
  /-- INT_STATUS bits are acknowledged. -/
  | ack (b : BitVec 4) : BusEffect s (s.clearInt b)
  /-- INT_EN is written. -/
  | enable (v : BitVec 4) : BusEffect s { s with intEn := v }
  /-- A command is issued. -/
  | issue (w : Word) (h : s.seq = .idle) : BusEffect s (s.accept w)
  /-- An abort is latched. -/
  | abort (h : s.seq ≠ .idle) : BusEffect s { s with abortPending := true }
  /-- The block is reset. -/
  | reset : BusEffect s s.resetBlock
  /-- A configuration register is written. -/
  | config (k : KeyCfg) (hl : BitVec 7) (a : ArgRegs) (h : s.status.busy = false) :
      BusEffect s { s with keycfg := k, hlen := hl, args := a }
  /-- Bytes of OP, KEY or BUF are written. -/
  | data (t : State) (hd : DataOnly s t) (h : s.status.busy = false) : BusEffect s t

theorem protectedWrite_effect (s : State) (k : KeyCfg) (hl : BitVec 7) (a : ArgRegs) :
    BusEffect s (s.protectedWrite { s with keycfg := k, hlen := hl, args := a }) := by
  unfold State.protectedWrite
  split
  · exact .busy _ (.inl ⟨rfl, ‹_›⟩)
  · exact .config k hl a (Bool.eq_false_iff.2 ‹_›)

theorem writeReg_effect (s : State) (r : CtrlReg) (v : Word) : BusEffect s (s.writeReg r v) := by
  cases r with
  | ctrl =>
    rcases s.writeCtrl_cases v with h | h | h <;> simp only [State.writeReg, h]
    · exact .reset
    · rcases s.abort_cases with ⟨_, h'⟩ | ⟨h0, h'⟩ <;> rw [h']
      · exact .none
      · exact .abort h0
    · exact .none
  | cmd =>
    rcases s.issue_cases v with ⟨h0, h⟩ | ⟨h0, h⟩ <;> simp only [State.writeReg, h]
    · exact .issue v h0
    · exact .busy _ (.inr ⟨rfl, h0⟩)
  | intStatus => exact .ack _
  | intEn => exact .enable _
  | id => exact .none
  | param => exact .none
  | status => exact .none
  | keycfg => exact protectedWrite_effect s _ s.hlen s.args
  | mgfcfg => exact protectedWrite_effect s s.keycfg _ s.args
  | addrA => exact protectedWrite_effect s s.keycfg s.hlen _
  | lenA => exact protectedWrite_effect s s.keycfg s.hlen _
  | addrB => exact protectedWrite_effect s s.keycfg s.hlen _
  | lenB => exact protectedWrite_effect s s.keycfg s.hlen _
  | addrD => exact protectedWrite_effect s s.keycfg s.hlen _
  | lenD => exact protectedWrite_effect s s.keycfg s.hlen _

/-- A legal access to a reserved offset of the data class touches reserved offsets only (rules R38, R40). -/
theorem reserved_lanes {off n j : Nat} (h1 : 0x1000 ≤ off) (hr : isWindow off = false) (hn : n = 1 ∨ n = 2 ∨ n = 4)
    (ha : off % n = 0) (hj : j < n) : regionOf (off + j) = .reserved := by
  have hoff : (0x2000 ≤ off ∧ off < 0x4000) ∨ 0xBC00 ≤ off := by
    by_contra hc
    have hw : isWindow off = true := by
      unfold isWindow regionOf
      by_cases h2 : off < 0x2000
      · rw [if_neg (by omega), if_pos h2]
      · by_cases h8 : off < 0x8000
        · rw [if_neg (by omega), if_neg h2, if_neg (by omega), if_pos h8]
        · rw [if_neg (by omega), if_neg h2, if_neg (by omega), if_neg h8, if_pos (by omega)]
    exact absurd hw (by rw [hr]; exact Bool.false_ne_true)
  have hlim : (0x2000 ≤ off + j ∧ off + j < 0x4000) ∨ 0xBC00 ≤ off + j := by
    rcases hn with rfl | rfl | rfl <;> omega
  unfold regionOf
  rw [if_neg (by omega), if_neg (by omega)]
  rcases hlim with h | h
  · rw [if_pos h.2]
  · rw [if_neg (by omega), if_neg (by omega), if_neg (by omega)]

theorem writeLanes_reserved (s : State) {off n : Nat} (v : Word) (h1 : 0x1000 ≤ off) (hr : isWindow off = false)
    (hn : n = 1 ∨ n = 2 ∨ n = 4) (ha : off % n = 0) : ∀ k, k ≤ n → s.writeLanes off v k = s
  | 0, _ => rfl
  | k + 1, hk => by
    rw [State.writeLanes, writeLanes_reserved s v h1 hr hn ha k (by omega), State.writeByteAt,
      reserved_lanes h1 hr hn ha (show k < n by omega)]

theorem Size.bytes_cases (z : Size) : z.bytes = 1 ∨ z.bytes = 2 ∨ z.bytes = 4 := by
  cases z <;> simp [Size.bytes]

/-- A legal data access is naturally aligned (rule R40). -/
theorem Access.legal_data {a : Access} (h : a.legal = true) (h1 : ¬a.offset.toNat < 0x1000) :
    a.offset.toNat % a.size.bytes = 0 := by
  unfold Access.legal at h
  rw [if_neg h1] at h
  simpa using h

theorem legalWrite_effect (s : State) (a : Access) (v : Word) (hl : a.legal = true) :
    BusEffect s (s.legalWrite a.offset.toNat a.size.bytes v) := by
  unfold State.legalWrite
  split
  · split
    · exact .none
    · exact writeReg_effect s _ v
  · rename_i h1
    by_cases hb : s.status.busy = true
    · by_cases hw : isWindow a.offset.toNat = true
      · simp only [hw, hb, Bool.and_self, if_true]
        exact .busy _ (.inl ⟨rfl, hb⟩)
      · simp only [Bool.not_eq_true] at hw
        simp only [hw, Bool.false_and, Bool.false_eq_true, if_false]
        rw [writeLanes_reserved s v (by omega) hw a.size.bytes_cases (Access.legal_data hl h1) _ (le_refl _)]
        exact .none
    · simp only [Bool.not_eq_true] at hb
      simp only [hb, Bool.and_false, Bool.false_eq_true, if_false]
      exact .data _ (writeLanes_dataOnly s _ v _) hb

theorem legalRead_effect (s : State) (off n : Nat) : BusEffect s (s.legalRead off n).1 := by
  unfold State.legalRead
  split
  · split <;> exact .none
  · split
    · rename_i h
      simp only [Bool.and_eq_true] at h
      exact .busy _ (.inl ⟨rfl, h.2⟩)
    · exact .none

/-- Every host access has one of the effects `BusEffect` lists, and an answer. -/
theorem hostAccess_effect (a : Access) (s : State) :
    ∃ t r d, hostAccess a s = State.answer t r d ∧ BusEffect s t := by
  unfold hostAccess
  split
  · split
    · exact ⟨_, _, _, rfl, legalRead_effect s _ _⟩
    · exact ⟨_, _, _, rfl, .none⟩
  · split
    · exact ⟨_, _, _, rfl, legalWrite_effect s a _ ‹_›⟩
    · exact ⟨_, _, _, rfl, .none⟩

end Sys2Proof.Machine
end

