-- ==== Sys2Proof/Laws/Complete.lean ====
section
/-! SUPPORT. What the shared operations do, in the terms of Safety.lean: the two ways a command ends, the range checks of rule R98, and
the checks of MGF1. -/

namespace Sys2Proof.Machine

/-! ### Completion (rule R101) -/

/-- Completion after a commit that leaves INT_STATUS alone. -/
theorem Completed.of_complete (c : ErrCode) {s u : State} (h : u.intStatus = s.intStatus) : Completed c s (u.complete c) := by
  simp [Completed, completionBits, doneBit, errBit, h]

/-- Completion without a commit writes nothing. -/
theorem EndsWith.of_complete (c : ErrCode) (s : State) : EndsWith c s (s.complete c) :=
  ⟨.of_complete c rfl, fun _ => rfl, fun _ => rfl,
    ⟨fun _ => rfl, rfl, rfl, rfl, rfl, rfl, rfl, rfl, rfl, rfl⟩, rfl⟩

/-- A command whose commit an abort suppresses ends with ABORTED (rule R92). -/
theorem EndsWith.of_finish {s : State} (f : State → State) (h : s.abortPending = true) : EndsWith .aborted s (s.finish f) := by
  rw [State.finish_of_abort f h]
  exact .of_complete _ _

/-- A command whose commit is one integer register commits it (rule R60). -/
theorem CommitsOp.of_finish {s : State} (rd : RegIx) {v : Nat} (h : s.abortPending = false) (hv : v < 2 ^ Config.rbits) :
    CommitsOp rd v s (s.finish (·.setOp rd v)) := by
  rw [State.finish_of_no_abort _ h]
  refine ⟨.of_complete _ rfl, ?_, fun k hk => s.opReg_setOp_ne v hk, fun _ => rfl,
    ⟨fun _ => rfl, rfl, rfl, rfl, rfl, rfl, rfl, rfl, rfl, rfl⟩, rfl⟩
  exact (State.opNat_congr rfl rd).trans (s.opNat_setOp_self rd hv)

/-- The completion step of a command whose commit is one integer register (rules R60, R92). -/
theorem CommitsOrAborts.of_finish {s : State} (rd : RegIx) {v : Nat} (hv : v < 2 ^ Config.rbits) :
    CommitsOrAborts rd v s (s.finish (·.setOp rd v)) := by
  unfold CommitsOrAborts
  split
  · exact .of_finish _ ‹_›
  · exact .of_finish rd (Bool.eq_false_iff.2 ‹_›) hv

/-! ### Ranges of BUF (rule R98) -/

theorem BufRange.inBounds_iff (r : BufRange) : r.inBounds = true ↔ r.addr + r.len ≤ 4096 := by
  unfold BufRange.inBounds
  rw [decide_eq_true_iff, Config.bufSize]

theorem BufRange.overlaps_iff (r t : BufRange) :
    r.overlaps t = true ↔ 0 < r.len ∧ 0 < t.len ∧ r.addr < t.addr + t.len ∧ t.addr < r.addr + r.len := by
  unfold BufRange.overlaps
  simp only [Bool.and_eq_true, decide_eq_true_eq, and_assoc]

/-! ### MGF1 (rules R87, R88) -/

/-- What passing every check of MGF1 says. -/
theorem State.mgfCheck_none {s : State} (h : s.mgfCheck = none) :
    Config.hashLengths.contains s.hlen.toNat = true ∧ s.rangeA.inBounds = true ∧ s.rangeD.inBounds = true ∧
      s.rangeA.overlaps s.rangeD = false := by
  unfold State.mgfCheck at h
  split at h; · cases h
  split at h; · cases h
  split at h; · cases h
  simp_all

/-- Every digest length MGF1 accepts is positive. -/
theorem State.hlen_pos {s : State} (h : s.mgfCheck = none) : 0 < s.hlen.toNat := by
  have h1 := (State.mgfCheck_none h).1
  rcases Nat.eq_zero_or_pos s.hlen.toNat with h0 | h0
  · rw [h0] at h1
    exact absurd h1 (by decide)
  · exact h0

/-- Block j is one of the blocks exactly when it starts inside the mask. -/
theorem State.lt_mgfBlocks_iff {s : State} (j : Nat) (h : 0 < s.hlen.toNat) :
    j < s.mgfBlocks ↔ j * s.hlen.toNat < s.rangeD.len := by
  unfold State.mgfBlocks ceilDiv
  rw [Nat.lt_div_iff_mul_lt h, mul_comm j]
  omega

/-- A block is as long as its width (rule R88). -/
theorem State.mgfBlockBytes_length (s : State) (x : Bool) (j : Nat) {d : List Byte} (h : d.length = s.hlen.toNat) :
    (s.mgfBlockBytes x j d).length = s.mgfWidth j := by
  unfold State.mgfBlockBytes State.mgfWidth
  split <;> simp [xorBytes, h]

end Sys2Proof.Machine
end

