-- ==== Sys2Proof/Laws/Decode.lean ====
section
/-! SUPPORT. Packing fields into a word and taking them out again lose nothing; the decoder's rejections are rule R56's. -/

namespace Sys2Proof

/-- Taking a packed word apart gives the fields it was made from (rule R52). -/
theorem fieldsOf_packFields (f : Fields) : fieldsOf (packFields f) = f := by
  obtain ⟨opc, res0, rd, ra, rb, rm, flags, res1⟩ := f
  simp only [fieldsOf, packFields, Fields.mk.injEq]
  refine ⟨?_, ?_, ?_, ?_, ?_, ?_, ?_, ?_⟩ <;>
    · ext i hi
      simp only [BitVec.getElem_extractLsb', BitVec.getLsbD_append]
      grind

/-- A word is packed from its own fields (rule R52). -/
theorem packFields_fieldsOf (w : Word) : packFields (fieldsOf w) = w := by
  simp only [fieldsOf, packFields]
  ext i hi
  simp only [BitVec.getElem_append, BitVec.getElem_extractLsb']
  grind

/-- Masking a packed word masks each field. -/
theorem packFields_and (f g : Fields) : packFields f &&& packFields g =
    packFields ⟨f.opc &&& g.opc, f.res0 &&& g.res0, f.rd &&& g.rd, f.ra &&& g.ra, f.rb &&& g.rb, f.rm &&& g.rm,
      f.flags &&& g.flags, f.res1 &&& g.res1⟩ := by
  ext i hi
  simp only [packFields, BitVec.getElem_and, BitVec.getElem_append]
  grind

end Sys2Proof
end

