-- ==== Sys2Proof/Laws/Exec.lean ====
section
/-! SUPPORT. What one sequencer step can do, said once for all commands: every meaning answers a next state, and it is one of
eight. Frames and invariants follow from this by cases. -/

namespace Sys2Proof.Machine

/-- The next states a sequencer step of the command `i` (none for an illegal word) can give from `s`. -/
inductive SeqEffect (s : State) (i : Option Instr) : State → Prop where
  /-- The command waits for an agent outside the block. -/
  | wait (h : (∃ w j, s.seq = .waitHash w j) ∨ ∃ w, s.seq = .waitRng w) : SeqEffect s i s
  /-- The command completes with a code and changes nothing else. -/
  | finish (c : ErrCode) : SeqEffect s i (s.complete c)
  /-- CMP completes, with STATUS.EQ at `e`. -/
  | eq (e : Bool) (c : ErrCode) (h : i = some .cmp) : SeqEffect s i ((s.setEq e).complete c)
  /-- The command commits its destination register and completes without error. -/
  | op (rd : RegIx) (v : Nat) (h : s.abortPending = false) (hi : i.bind destOf = some rd) : SeqEffect s i ((s.setOp rd v).complete .noError)
  /-- I2OSP commits its bytes and completes without error. -/
  | buf (bs : List Byte) (h : s.abortPending = false) (hl : bs.length = s.rangeD.len) (hi : ∃ ra, i = some (.i2osp ra)) :
      SeqEffect s i ((s.bufWrite s.rangeD.addr bs).complete .noError)
  /-- MGF1 sends a hash request for the next block. -/
  | hash (m : List Byte) (h : ∀ w j, s.seq ≠ .waitHash w j) (hi : ∃ x, i = some (.mgf1 x)) :
      SeqEffect s i (s.sendHash s.mgfBlock m)
  /-- RSADP asks for its blinding factor. -/
  | draw (h : ∀ w, s.seq ≠ .waitRng w) (hi : ∃ rd ra, i = some (.rsadp rd ra)) :
      SeqEffect s i (s.requestDraw (minPrime s.crtPrimes - 1))
  /-- MGF1 writes block j for the digest it received. -/
  | block (x : Bool) (w : Word) (j : Nat) (d : List Byte) (hs : s.seq = .waitHash w j) (hd : s.digest = some d)
      (h : s.abortPending = false) (hi : i = some (.mgf1 x)) : SeqEffect s i (s.storeBlock x j d)

theorem finish_id_effect (s : State) (i : Option Instr) : SeqEffect s i (s.finish fun t => t) := by
  rcases s.finish_cases (fun t => t) with ⟨_, h⟩ | ⟨_, h⟩ <;> rw [h] <;> exact .finish _

theorem finish_setOp_effect {i : Option Instr} {rd : RegIx} (s : State) (v : Nat) (hi : i.bind destOf = some rd) :
    SeqEffect s i (s.finish (·.setOp rd v)) := by
  rcases s.finish_cases (·.setOp rd v) with ⟨_, h⟩ | ⟨h0, h⟩ <;> rw [h]
  · exact .finish _
  · exact .op rd v h0 hi

theorem modular_effect {i : Option Instr} {rd : RegIx} (s : State) (rm : RegIx) (f : Nat → Nat)
    (hi : i.bind destOf = some rd) : SeqEffect s i (s.modular rd rm f) := by
  unfold State.modular
  split
  · exact .finish _
  · exact finish_setOp_effect s _ hi

theorem rsaep_effect (s : State) (rd ra : RegIx) :
    ∃ t, execRsaep rd ra s = .next t ∧ SeqEffect s (some (.rsaep rd ra)) t := by
  refine ⟨_, rfl, ?_⟩
  split
  · exact .finish _
  · split
    · exact .finish _
    · exact finish_setOp_effect s _ rfl

theorem crtFinish_effect (s : State) (rd ra : RegIx) (b : Option (Nat × Nat)) :
    SeqEffect s (some (.rsadp rd ra)) (s.crtFinish rd ra b) := by
  unfold State.crtFinish
  split
  · exact .finish _
  · split
    · exact .finish _
    · exact finish_setOp_effect s _ rfl

theorem rsadpStart_effect (s : State) (rd ra : RegIx) (h : ∀ w, s.seq ≠ .waitRng w) :
    SeqEffect s (some (.rsadp rd ra)) (s.rsadpStart rd ra) := by
  unfold State.rsadpStart
  split
  · exact .finish _
  · split
    · exact .finish _
    · split
      · exact .finish _
      · split
        · exact finish_setOp_effect s _ rfl
        · split
          · exact .finish _
          · split
            · exact .draw h ⟨_, _, rfl⟩
            · exact crtFinish_effect s rd ra none

theorem rsadpResume_effect (s : State) (rd ra : RegIx) (h : ∃ w, s.seq = .waitRng w) :
    SeqEffect s (some (.rsadp rd ra)) (s.rsadpResume rd ra) := by
  unfold State.rsadpResume
  split
  · exact .wait (.inr h)
  · exact crtFinish_effect s rd ra _

theorem rsadp_effect (s : State) (rd ra : RegIx) :
    ∃ t, execRsadp rd ra s = .next t ∧ SeqEffect s (some (.rsadp rd ra)) t := by
  unfold execRsadp
  split
  · exact ⟨_, rfl, rsadpStart_effect s rd ra (by simp [*])⟩
  · exact ⟨_, rfl, rsadpStart_effect s rd ra (by simp [*])⟩
  · exact ⟨_, rfl, rsadpStart_effect s rd ra (by simp [*])⟩
  · exact ⟨_, rfl, rsadpResume_effect s rd ra ⟨_, ‹_›⟩⟩

theorem i2osp_effect (s : State) (ra : RegIx) :
    ∃ t, execI2osp ra s = .next t ∧ SeqEffect s (some (.i2osp ra)) t := by
  refine ⟨_, rfl, ?_⟩
  split
  · exact .finish _
  · split
    · exact .finish _
    · rcases s.finish_cases (·.bufWrite s.rangeD.addr (i2osp (s.opNat ra) s.rangeD.len)) with ⟨_, h⟩ | ⟨h0, h⟩ <;> rw [h]
      · exact .finish _
      · exact .buf _ h0 (i2osp_length _ _) ⟨ra, rfl⟩

theorem os2ip_effect (s : State) (rd : RegIx) :
    ∃ t, execOs2ip rd s = .next t ∧ SeqEffect s (some (.os2ip rd)) t := by
  refine ⟨_, rfl, ?_⟩
  split
  · exact .finish _
  · split
    · exact .finish _
    · exact finish_setOp_effect s _ rfl

theorem cmp_effect (s : State) : ∃ t, execCmp s = .next t ∧ SeqEffect s (some .cmp) t := by
  refine ⟨_, rfl, ?_⟩
  split
  · exact .eq _ _ rfl
  · rcases (s.setEq false).finish_cases (·.setEq s.equalRanges) with ⟨_, h⟩ | ⟨_, h⟩ <;> rw [h]
    · exact .eq _ _ rfl
    · exact .eq s.equalRanges .noError rfl

theorem mgfAdvance_effect (s : State) (x : Bool) (h : ∀ w j, s.seq ≠ .waitHash w j) :
    SeqEffect s (some (.mgf1 x)) s.mgfAdvance := by
  unfold State.mgfAdvance
  split
  · exact .finish _
  · split
    · split
      · exact .finish _
      · exact .hash _ h ⟨x, rfl⟩
    · exact .finish _

theorem mgfResume_effect (s : State) (x : Bool) {w : Word} {j : Nat} (h : s.seq = .waitHash w j) :
    SeqEffect s (some (.mgf1 x)) (s.mgfResume x j) := by
  unfold State.mgfResume
  split
  · exact .wait (.inl ⟨w, j, h⟩)
  · split
    · exact .finish _
    · exact .block x w j _ h ‹_› (Bool.eq_false_iff.2 ‹_›) rfl

theorem mgf1_effect (s : State) (x : Bool) : ∃ t, execMgf1 x s = .next t ∧ SeqEffect s (some (.mgf1 x)) t := by
  unfold execMgf1
  split
  · exact ⟨_, rfl, mgfAdvance_effect s x (by simp [*])⟩
  · exact ⟨_, rfl, mgfAdvance_effect s x (by simp [*])⟩
  · exact ⟨_, rfl, mgfResume_effect s x ‹_›⟩
  · exact ⟨_, rfl, mgfAdvance_effect s x (by simp [*])⟩

/-- Every command's step answers a next state, and it is one of those `SeqEffect` lists. -/
theorem exec_effect (i : Instr) (s : State) : ∃ t, exec i s = .next t ∧ SeqEffect s (some i) t := by
  cases i with
  | nop => exact ⟨_, rfl, finish_id_effect s _⟩
  | modred rd ra rm => exact ⟨_, rfl, modular_effect s rm _ rfl⟩
  | modmul rd ra rb rm => exact ⟨_, rfl, modular_effect s rm _ rfl⟩
  | montmul rd ra rb rm => exact ⟨_, rfl, modular_effect s rm _ rfl⟩
  | modexp rd ra rb rm => exact ⟨_, rfl, modular_effect s rm _ rfl⟩
  | rsaep rd ra => exact rsaep_effect s rd ra
  | rsadp rd ra => exact rsadp_effect s rd ra
  | i2osp ra => exact i2osp_effect s ra
  | os2ip rd => exact os2ip_effect s rd
  | cmp => exact cmp_effect s
  | mgf1 x => exact mgf1_effect s x

/-- The inversion form of `exec_effect`. -/
theorem exec_inv {i : Instr} {s t : State} (h : exec i s = .next t) : SeqEffect s (some i) t := by
  obtain ⟨u, hu, he⟩ := exec_effect i s
  rw [hu] at h
  injection h with h
  exact h ▸ he

/-- A step of the running word, illegal words included. -/
theorem runWord_effect (w : Word) (s : State) :
    ∃ t, runWord w s = .next t ∧ SeqEffect s (Sys2Proof.decode w).toOption t := by
  unfold runWord
  split
  · rename_i i h
    rw [h]
    exact exec_effect i s
  · exact ⟨_, rfl, .finish _⟩

/-- An idle sequencer does nothing (rule R35). -/
theorem sequencerStep_idle {s : State} (h : s.seq = .idle) : sequencerStep s = .next s := by
  unfold sequencerStep
  rw [h]

/-- A busy sequencer runs the latched word (rule R35). -/
theorem sequencerStep_busy {s : State} (h : s.seq ≠ .idle) : sequencerStep s = runWord s.cmdWord s := by
  unfold sequencerStep State.cmdWord
  cases hs : s.seq with
  | idle => exact absurd hs h
  | run w => rfl
  | waitHash w j => rfl
  | waitRng w => rfl

/-- What a sequencer step gives: nothing while idle, otherwise one of the effects of the latched command. -/
theorem sequencerStep_inv {s t : State} (h : sequencerStep s = .next t) :
    (s.seq = .idle ∧ t = s) ∨ (s.seq ≠ .idle ∧ SeqEffect s (Sys2Proof.decode s.cmdWord).toOption t) := by
  by_cases hi : s.seq = .idle
  · rw [sequencerStep_idle hi] at h
    injection h with h
    exact .inl ⟨hi, h.symm⟩
  · obtain ⟨u, hu, he⟩ := runWord_effect s.cmdWord s
    rw [sequencerStep_busy hi, hu] at h
    injection h with h
    exact .inr ⟨hi, h ▸ he⟩

end Sys2Proof.Machine
end

