-- ==== Sys2Proof/Laws/PerInstr.lean ====
section
/-! SUPPORT. Statements about every command as syntax, one lemma per constructor: its word matches its row of
spec/opcode_table.json, and that word is legal by the zero-field rule R56. -/

namespace Sys2Proof.Laws

/-- The match and the mask of a command's row of spec/opcode_table.json. -/
def rowOf : Instr → Word × Word
  | .nop => (0x00000000#32, 0xFFFFFFFF#32)
  | .modred _ _ _ => (0x00000001#32, 0xFF0F00FF#32)
  | .modmul _ _ _ _ => (0x00000002#32, 0xFF0000FF#32)
  | .montmul _ _ _ _ => (0x00000003#32, 0xFF0000FF#32)
  | .modexp _ _ _ _ => (0x00000004#32, 0xFF0000FF#32)
  | .rsaep _ _ => (0x00000008#32, 0xFFFF00FF#32)
  | .rsadp _ _ => (0x00000009#32, 0xFFFF00FF#32)
  | .i2osp _ => (0x00000010#32, 0xFFFF0FFF#32)
  | .os2ip _ => (0x00000011#32, 0xFFFFF0FF#32)
  | .cmp => (0x00000018#32, 0xFFFFFFFF#32)
  | .mgf1 _ => (0x00000020#32, 0xFEFFFFFF#32)

end Sys2Proof.Laws

namespace Sys2Proof.Laws.TableRow

/-- The command's word matches its row under the row's mask, and its fields satisfy rule R56. -/
def Statement (i : Instr) : Prop :=
  encode i &&& (rowOf i).2 = (rowOf i).1 ∧ (fieldsOf (encode i)).wellFormed = true

/-- The statement from the fields of the command and of the mask. -/
theorem of_fields {i : Instr} (g : Fields) (hw : (instrFields i).wellFormed = true) (hm : (rowOf i).2 = packFields g)
    (h : packFields ⟨(instrFields i).opc &&& g.opc, (instrFields i).res0 &&& g.res0, (instrFields i).rd &&& g.rd,
      (instrFields i).ra &&& g.ra, (instrFields i).rb &&& g.rb, (instrFields i).rm &&& g.rm,
      (instrFields i).flags &&& g.flags, (instrFields i).res1 &&& g.res1⟩ = (rowOf i).1) : Statement i := by
  unfold Statement
  rw [hm, encode, packFields_and, fieldsOf_packFields]
  exact ⟨h, hw⟩

theorem nop : Statement .nop :=
  of_fields ⟨0x3F#6, 0x3#2, 0xF#4, 0xF#4, 0xF#4, 0xF#4, 0xF#4, 0xF#4⟩
    (by simp [instrFields, Fields.wellFormed, Fields.reservedZero, fieldUse?, FieldUse.admits]) rfl
    (by simp [instrFields, rowOf, packFields])

theorem modred (rd ra rm : RegIx) : Statement (.modred rd ra rm) :=
  of_fields ⟨0x3F#6, 0x3#2, 0x0#4, 0x0#4, 0xF#4, 0x0#4, 0xF#4, 0xF#4⟩
    (by simp [instrFields, Fields.wellFormed, Fields.reservedZero, fieldUse?, FieldUse.admits]) rfl
    (by simp [instrFields, rowOf, packFields])

theorem modmul (rd ra rb rm : RegIx) : Statement (.modmul rd ra rb rm) :=
  of_fields ⟨0x3F#6, 0x3#2, 0x0#4, 0x0#4, 0x0#4, 0x0#4, 0xF#4, 0xF#4⟩
    (by simp [instrFields, Fields.wellFormed, Fields.reservedZero, fieldUse?, FieldUse.admits]) rfl
    (by simp [instrFields, rowOf, packFields])

theorem montmul (rd ra rb rm : RegIx) : Statement (.montmul rd ra rb rm) :=
  of_fields ⟨0x3F#6, 0x3#2, 0x0#4, 0x0#4, 0x0#4, 0x0#4, 0xF#4, 0xF#4⟩
    (by simp [instrFields, Fields.wellFormed, Fields.reservedZero, fieldUse?, FieldUse.admits]) rfl
    (by simp [instrFields, rowOf, packFields])

theorem modexp (rd ra rb rm : RegIx) : Statement (.modexp rd ra rb rm) :=
  of_fields ⟨0x3F#6, 0x3#2, 0x0#4, 0x0#4, 0x0#4, 0x0#4, 0xF#4, 0xF#4⟩
    (by simp [instrFields, Fields.wellFormed, Fields.reservedZero, fieldUse?, FieldUse.admits]) rfl
    (by simp [instrFields, rowOf, packFields])

theorem rsaep (rd ra : RegIx) : Statement (.rsaep rd ra) :=
  of_fields ⟨0x3F#6, 0x3#2, 0x0#4, 0x0#4, 0xF#4, 0xF#4, 0xF#4, 0xF#4⟩
    (by simp [instrFields, Fields.wellFormed, Fields.reservedZero, fieldUse?, FieldUse.admits]) rfl
    (by simp [instrFields, rowOf, packFields])

theorem rsadp (rd ra : RegIx) : Statement (.rsadp rd ra) :=
  of_fields ⟨0x3F#6, 0x3#2, 0x0#4, 0x0#4, 0xF#4, 0xF#4, 0xF#4, 0xF#4⟩
    (by simp [instrFields, Fields.wellFormed, Fields.reservedZero, fieldUse?, FieldUse.admits]) rfl
    (by simp [instrFields, rowOf, packFields])

theorem i2osp (ra : RegIx) : Statement (.i2osp ra) :=
  of_fields ⟨0x3F#6, 0x3#2, 0xF#4, 0x0#4, 0xF#4, 0xF#4, 0xF#4, 0xF#4⟩
    (by simp [instrFields, Fields.wellFormed, Fields.reservedZero, fieldUse?, FieldUse.admits]) rfl
    (by simp [instrFields, rowOf, packFields])

theorem os2ip (rd : RegIx) : Statement (.os2ip rd) :=
  of_fields ⟨0x3F#6, 0x3#2, 0x0#4, 0xF#4, 0xF#4, 0xF#4, 0xF#4, 0xF#4⟩
    (by simp [instrFields, Fields.wellFormed, Fields.reservedZero, fieldUse?, FieldUse.admits]) rfl
    (by simp [instrFields, rowOf, packFields])

theorem cmp : Statement .cmp :=
  of_fields ⟨0x3F#6, 0x3#2, 0xF#4, 0xF#4, 0xF#4, 0xF#4, 0xF#4, 0xF#4⟩
    (by simp [instrFields, Fields.wellFormed, Fields.reservedZero, fieldUse?, FieldUse.admits]) rfl
    (by simp [instrFields, rowOf, packFields])

theorem mgf1 (x : Bool) : Statement (.mgf1 x) := by
  cases x <;> exact ⟨by decide, by decide⟩

end Sys2Proof.Laws.TableRow
end

