-- ==== Sys2Proof/Laws/Step.lean ====
section
/-! SUPPORT. What one step of the machine can do, said once: the move taken, and the effect of the agent that moves. -/

namespace Sys2Proof.Machine

/-- The state with its first move taken off the list. -/
def State.popMove (s : State) : State := { s with moves := s.moves.tail }

/-- The next states one step can give, from the state `s` whose move has been taken off the list. -/
inductive StepEffect (s : State) : State → Prop where
  /-- The sequencer steps. -/
  | sequencer (t : State) (h : sequencerStep s = .next t) : StepEffect s t
  /-- A host access reaches the block. -/
  | bus (t : State) (r : Resp) (d : Option Word) (h : BusEffect s t) : StepEffect s (t.answer r d)
  /-- A platform access outside the window. -/
  | elsewhere : StepEffect s s
  /-- An acknowledgement of INT_STATUS and a sequencer step together. -/
  | ack (b : BitVec 4) (t : State) (h : sequencerStep ((s.clearInt b).answer .okay none) = .next t) : StepEffect s t
  /-- The hash core moves. -/
  | hash (t : State) (h : hashAnswer s = .next t) : StepEffect s t
  /-- The RNG moves. -/
  | rng (r : Nat) : StepEffect s (rngAnswer r s)
  /-- Power-on or rst_n. -/
  | reset : StepEffect s s.resetBlock

theorem ackAccess_eq (v : Word) (s : State) :
    hostAccess (ackAccess v) s = (s.clearInt (v.setWidth 4)).answer .okay none := by
  have hl : (ackAccess v).legal = true := by simp [ackAccess, Access.legal]
  have ho : (ackAccess v).offset.toNat = 0x010 := by simp [ackAccess]
  unfold hostAccess
  simp only [show (ackAccess v).dir = .write v from rfl, hl, if_true]
  simp only [State.legalWrite, ho, ctrlRegAt?, State.writeReg]
  rfl

theorem moveStep_effect {m : Move} {s t : State} (h : moveStep m s = .next t) : StepEffect s t := by
  cases m with
  | sequencer => exact .sequencer t h
  | host a =>
    cases h
    obtain ⟨u, r, d, e, he⟩ := hostAccess_effect a s
    rw [e]
    exact .bus u r d he
  | platform addr size dir =>
    cases h
    unfold platformAccess
    split
    · obtain ⟨u, r, d, e, he⟩ := hostAccess_effect ⟨BitVec.ofNat 16 (addr - Config.base), size, dir⟩ s
      rw [e]
      exact .bus u r d he
    · exact .elsewhere
  | ackWithSequencer v => exact .ack (v.setWidth 4) t (by rw [← ackAccess_eq]; exact h)
  | hashCore => exact .hash t h
  | rng r =>
    cases h
    exact .rng r
  | reset =>
    cases h
    exact .reset

/-- Every step that answers a next state has one of the effects `StepEffect` lists. -/
theorem step_effect {s t : State} (h : step s = .next t) : StepEffect s.popMove t := by
  unfold step nextMove at h
  unfold State.popMove
  split at h
  · rename_i h0
    have : ({ s with moves := s.moves.tail } : State) = s := by rw [h0, List.tail_nil, ← h0]
    rw [this]
    exact .sequencer t h
  · rename_i m ms h0
    rw [h0]
    exact moveStep_effect h

end Sys2Proof.Machine
end

