-- ==== Sys2Proof/Laws/Windows.lean ====
section
/-! SUPPORT. The data windows of the host bus: which offsets they are, and what a byte reads as after a byte was written. -/

namespace Sys2Proof.Machine

/-- The data windows of rule R43: BUF, OP, and KEY below slot 15. -/
theorem isWindow_iff {off : Nat} :
    isWindow off = true ↔ (0x1000 ≤ off ∧ off < 0x2000) ∨ (0x4000 ≤ off ∧ off < 0xBC00) := by
  unfold isWindow regionOf
  constructor
  · intro h
    by_contra hc
    by_cases h1 : off < 0x1000
    · rw [if_pos h1] at h; cases h
    · rw [if_neg h1, if_neg (by omega)] at h
      by_cases h4 : off < 0x4000
      · rw [if_pos h4] at h; cases h
      · rw [if_neg h4, if_neg (by omega), if_neg (by omega)] at h; cases h
  · intro h
    rcases h with h | h
    · rw [if_neg (by omega), if_pos (by omega)]
    · rw [if_neg (by omega), if_neg (by omega), if_neg (by omega)]
      by_cases h8 : off < 0x8000
      · rw [if_pos h8]
      · rw [if_neg h8, if_pos (by omega)]

/-- Two offsets that name one place of a window are equal (rule R38). -/
theorem regionOf_inj {o o' : Nat} (h : isWindow o = true) (hr : regionOf o' = regionOf o) : o' = o := by
  have h1 := isWindow_iff.1 h
  have h1' : isWindow o' = true := by
    rw [← h]
    unfold isWindow
    rw [hr]
  have h2 := isWindow_iff.1 h1'
  unfold regionOf at hr
  split_ifs at hr
  all_goals try omega
  all_goals first
    | (have e := Region.buf.inj hr; omega)
    | (have e1 := congrArg BitVec.toNat (Region.op.inj hr).1
       have e2 := (Region.op.inj hr).2
       simp only [BitVec.toNat_ofNat] at e1
       omega)
    | (have e1 := congrArg BitVec.toNat (Region.key.inj hr).1
       have e2 := (Region.key.inj hr).2
       simp only [BitVec.toNat_ofNat] at e1
       omega)

theorem regionOf_buf_lt {o a : Nat} (h : regionOf o = .buf a) : a < Config.bufSize := by
  unfold regionOf at h
  split_ifs at h
  have := Region.buf.inj h
  unfold Config.bufSize
  omega

theorem regionOf_op_lt {o b : Nat} {k : RegIx} (h : regionOf o = .op k b) : b < Config.maxBytes := by
  unfold regionOf at h
  split_ifs at h
  have := (Region.op.inj h).2
  unfold Config.maxBytes
  omega

theorem regionOf_key_lt {o b : Nat} {k : RegIx} (h : regionOf o = .key k b) : b < Config.maxBytes := by
  unfold regionOf at h
  split_ifs at h
  have := (Region.key.inj h).2
  unfold Config.maxBytes
  omega

/-- A byte written in a window reads back (rule R38). -/
theorem State.readByteAt_writeByteAt_self (s : State) {o : Nat} (x : Byte) (hw : s.buf.wf = true) (h : isWindow o = true) :
    (s.writeByteAt o x).readByteAt o = x := by
  unfold State.readByteAt State.writeByteAt
  cases hr : regionOf o with
  | control => simp [isWindow, hr] at h
  | reserved => simp [isWindow, hr] at h
  | buf a => exact Memory.read_write_self x (regionOf_buf_lt hr) hw
  | op k b =>
    simp only [State.opReg_setOpReg_self]
    exact slotByte_setSlotByte_self _ _ _ (regionOf_op_lt hr)
  | key k b =>
    simp only [State.keyReg_setKeyReg_self]
    exact slotByte_setSlotByte_self _ _ _ (regionOf_key_lt hr)

/-- A byte written in a window leaves every other offset alone (rule R38). -/
theorem State.readByteAt_writeByteAt_ne (s : State) {o p : Nat} (x : Byte) (h : isWindow o = true) (hne : p ≠ o) :
    (s.writeByteAt o x).readByteAt p = s.readByteAt p := by
  have hrn : regionOf p ≠ regionOf o := fun e => hne (regionOf_inj h e)
  unfold State.readByteAt State.writeByteAt
  cases hr : regionOf o with
  | control => rfl
  | reserved => rfl
  | buf a =>
    cases hp : regionOf p with
    | buf a' => exact Memory.read_write_ne x _ fun e => hrn (by rw [hr, hp, e])
    | _ => rfl
  | op k b =>
    cases hp : regionOf p with
    | op k' b' =>
      by_cases hk : k' = k
      · subst hk
        simp only [State.opReg_setOpReg_self]
        exact slotByte_setSlotByte_ne _ _ (regionOf_op_lt hr) (regionOf_op_lt hp) fun e => hrn (by rw [hr, hp, e])
      · simp only [State.opReg_setOpReg_ne _ _ hk]
    | _ => rfl
  | key k b =>
    cases hp : regionOf p with
    | key k' b' =>
      by_cases hk : k' = k
      · subst hk
        simp only [State.keyReg_setKeyReg_self]
        exact slotByte_setSlotByte_ne _ _ (regionOf_key_lt hr) (regionOf_key_lt hp) fun e => hrn (by rw [hr, hp, e])
      · simp only [State.keyReg_setKeyReg_ne _ _ hk]
    | _ => rfl

end Sys2Proof.Machine
end

