-- ==== Sys2Proof/Tests/Slice0.lean ====
section
/-! SUPPORT. Tests. Each expected value is a vector or an example of spec/, named in the comment, or hand calculation from a rule. The
witnesses at the end meet the hypotheses of the statements in Certificates/Slice0. -/

namespace Sys2Proof.Tests

set_option Elab.async false

open Sys2Proof.Machine

/-! ### Helpers -/

/-- A field of the next state, none where there is no next state. -/
def field {α : Type} (o : Host.Outcome State Fault Refusal) (f : State → α) : Option α :=
  match o with
  | .next s => some (f s)
  | .fault _ => none
  | .refused _ => none

/-- Some registers and KEY slots given values. -/
def loaded (op key : List (RegIx × Nat)) : State :=
  key.foldl (fun s p => s.setKeyReg p.1 (BitVec.ofNat 8192 p.2)) (op.foldl (fun s p => s.setOp p.1 p.2) State.reset)

/-- One step of the command word `w`, just issued. -/
def run1 {α : Type} (s : State) (w : Nat) (f : State → α) : Option α := field (step (s.withFetchWord 32 w)) f

/-- One host access as a step. -/
def bus1 {α : Type} (s : State) (a : Access) (f : State → α) : Option α := field (step { s with moves := [.host a] }) f

/-- Key K2 of 95_test_vectors.md section 2.4: 3233 = 61·53, PUBE = 17. -/
def keyK2 : List (RegIx × Nat) := [(0, 3233), (2, 17), (3, 61), (4, 53), (7, 53), (8, 49), (12, 38)]

/-- Key K3 of 95_test_vectors.md section 2.4: 2431 = 11·13·17. -/
def keyK3 : List (RegIx × Nat) :=
  [(0, 2431), (2, 7), (3, 11), (4, 13), (5, 17), (7, 3), (8, 7), (9, 7), (12, 6), (13, 5)]

/-- The state with argument registers A = (a, la), B = (b, lb), D = (d, ld). -/
def withArgs (s : State) (a la b lb d ld : Nat) : State :=
  { s with args := ⟨.ofNat 16 a, .ofNat 16 la, .ofNat 16 b, .ofNat 16 lb, .ofNat 16 d, .ofNat 16 ld⟩ }

/-! ### Encoding (section 2.2) -/

theorem test_decode_nop : decode 0x00000000#32 = .ok .nop := by decide                              -- ENC-1
theorem test_decode_modred : decode 0x00001201#32 = .ok (.modred 2 1 0) := by decide               -- ENC-2
theorem test_decode_modmul : decode 0x00021302#32 = .ok (.modmul 3 1 2 0) := by decide             -- ENC-3
theorem test_decode_montmul : decode 0x00021303#32 = .ok (.montmul 3 1 2 0) := by decide           -- ENC-4
theorem test_decode_modexp : decode 0x00FFFF04#32 = .ok (.modexp 15 15 15 15) := by decide         -- ENC-6
theorem test_decode_rsaep : decode 0x00000108#32 = .ok (.rsaep 1 0) := by decide                   -- ENC-7
theorem test_decode_rsadp : decode 0x00001209#32 = .ok (.rsadp 2 1) := by decide                   -- ENC-8
theorem test_decode_i2osp : decode 0x00003010#32 = .ok (.i2osp 3) := by decide                     -- ENC-9
theorem test_decode_os2ip : decode 0x00000411#32 = .ok (.os2ip 4) := by decide                     -- ENC-10
theorem test_decode_cmp : decode 0x00000018#32 = .ok .cmp := by decide                             -- ENC-11
theorem test_decode_mgf1 : decode 0x01000020#32 = .ok (.mgf1 true) := by decide                    -- ENC-13
/-- MODEXP r7, r5, r4, r6 bit by bit: RES1, FLAGS, RM 6, RB 4, RA 5, RD 7, RES0, OPC 4 (program P3, line 8). -/
theorem test_decode_bits : decode 0b0000_0000_0110_0100_0101_0111_00_000100#32 = .ok (.modexp 7 5 4 6) := by decide
theorem test_decode_reserved : (decode 0x00000005#32, decode 0x00000021#32, decode 0x0000003F#32) =
    (.error .reservedOpcode, .error .reservedOpcode, .error .reservedOpcode) := by decide           -- ENC-19
theorem test_decode_illegal : (decode 0x00000118#32, decode 0x00010001#32, decode 0x00100008#32, decode 0x01000001#32) =
    (.error .unusedField, .error .unusedField, .error .unusedField, .error .unusedField) := by decide -- ENC-15, 16, 21, 20

/-! ### The checks of WellFormed, each with a term it refuses -/

theorem test_wf_res0 : (fieldsOf 0x00000040#32).wellFormed = false := by decide      -- ENC-17
theorem test_wf_res1 : (fieldsOf 0x10000001#32).wellFormed = false := by decide      -- ENC-18
theorem test_wf_opcode : (fieldsOf 0x0000000A#32).wellFormed = false := by decide    -- ENC-19
theorem test_wf_rd : (fieldsOf 0x00000118#32).wellFormed = false := by decide        -- ENC-15
theorem test_wf_ra : (fieldsOf 0x00001011#32).wellFormed = false := by decide        -- OS2IP with RA ≠ 0 (rule R53)
theorem test_wf_rb : (fieldsOf 0x00010001#32).wellFormed = false := by decide        -- ENC-16
theorem test_wf_rm : (fieldsOf 0x00100008#32).wellFormed = false := by decide        -- ENC-21
theorem test_wf_flags : (fieldsOf 0x02000020#32).wellFormed = false := by decide     -- ENC-14
theorem test_wf_legal : (fieldsOf 0x00FFFF04#32).wellFormed = true := by decide      -- ENC-6

/-! ### The commands -/

theorem test_nop : run1 { State.reset with status := ⟨false, false, false, true, .noError⟩ } 0x00000000
    (fun t => (t.status.word, t.intStatus)) = some (0x0000000A#32, 1#4) := by decide +kernel        -- SYS-1, CMP-7
theorem test_modred_big : run1 (loaded [(1, 2 ^ 8192 - 1), (0, 3233)] []) 0x00001201 (·.opNat 2) = some 3228 := by
  decide +kernel                                                                                    -- MOD-2
theorem test_modred_even : run1 (loaded [(1, 100), (0, 3232), (2, 77)] []) 0x00001201
    (fun t => (t.status.word, t.opNat 2)) = some (0x00000406#32, 77) := by decide +kernel           -- MOD-4
theorem test_modmul_big : run1 (loaded [(1, 2 ^ 8192 - 1), (2, 2 ^ 8192 - 1), (0, 3233)] []) 0x00021302 (·.opNat 3) =
    some 25 := by decide +kernel                                                                    -- MOD-6
theorem test_modmul_alias : run1 (loaded [(1, 65), (2, 3233)] []) 0x00211102 (·.opNat 1) = some 992 := by
  decide +kernel                                                                                    -- MOD-7
theorem test_montmul : run1 (loaded [(1, 1), (2, 1), (0, 3233)] []) 0x00021303 (·.opNat 3) = some 808 := by
  decide +kernel                                                                                    -- MOD-8
theorem test_montmul_big : run1 (loaded [(1, 2 ^ 8192 - 1), (2, 2 ^ 8192 - 1), (0, 3233)] []) 0x00021303 (·.opNat 3) =
    some 802 := by decide +kernel                                                                   -- MOD-10
theorem test_modexp_big : run1 (loaded [(1, 3), (2, 2 ^ 8192 - 1), (0, 3233)] []) 0x00021304 (·.opNat 3) = some 2927 := by
  decide +kernel                                                                                    -- MOD-17
theorem test_modexp_zero_zero : run1 (loaded [(0, 3233)] []) 0x00021304 (·.opNat 3) = some 1 := by decide +kernel -- MOD-14
theorem test_rsaep : run1 (loaded [(0, 3232)] [(0, 3233), (1, 17)]) 0x00000108 (·.opNat 1) = some 3232 := by
  decide +kernel                                                                                    -- RSA-2
theorem test_rsaep_range : run1 (loaded [(0, 3233), (1, 5)] [(0, 3233), (1, 17)]) 0x00000108
    (fun t => (t.status.word, t.opNat 1)) = some (0x00000206#32, 5) := by decide +kernel            -- RSA-3
theorem test_rsadp_crt : run1 { loaded [(1, 1159)] keyK3 with keycfg := ⟨3#3, false, false⟩ } 0x00001209 (·.opNat 2) =
    some 2000 := by decide +kernel                                                                  -- RSA-7
/-- RSA-9 with r = 2: an inconsistent PUBE makes the result depend on the draw. -/
theorem test_rsadp_blinded : field (exec (.rsadp 2 1)
    { loaded [(1, 2790)] (keyK2 ++ [(2, 7)]) with
      keycfg := ⟨2#3, true, false⟩, seq := .waitRng 0x00001209#32, blind := some 2 }) (·.opNat 2) = some 497 := by
  decide +kernel
theorem test_i2osp : run1 (withArgs (loaded [(3, 65537)] []) 0 0 0 0 0x10 5) 0x00003010
    (·.buf.readBytes 0x10 5) = some [0, 0, 1, 0, 1] := by decide +kernel                            -- OCT-3
theorem test_i2osp_order : run1 (withArgs (loaded [(3, 65537)] []) 0 0 0 0 4096 1) 0x00003010 (·.status.word) =
    some 0x00000606#32 := by decide +kernel                                                         -- OCT-8
theorem test_os2ip : run1 (withArgs { State.reset with buf := [(0x20, 1), (0x22, 1)] } 0x20 3 0 0 0 0) 0x00000411
    (·.opNat 4) = some 65537 := by decide +kernel                                                   -- OCT-7
theorem test_os2ip_length : run1 (withArgs State.reset 0 1025 0 0 0 0) 0x00000411 (·.status.word) =
    some 0x00000306#32 := by decide +kernel                                                         -- OCT-11
theorem test_cmp : run1 (withArgs { State.reset with buf := [(0, 0xDE), (1, 0xAD), (0x100, 0xDE), (0x101, 0xAC)] }
    0 2 0x100 2 0 0) 0x00000018 (·.status.word) = some 0x00000002#32 := by decide +kernel           -- as CMP-1
theorem test_cmp_empty : run1 (withArgs State.reset 0 0 0x200 0 0 0) 0x00000018 (·.status.word) = some 0x0000000A#32 := by
  decide +kernel                                                                                    -- CMP-2
/-- MGF-7: the last block of an XOR mask; D starts `1a c9 07 5c d4` (MGF-2), the destination holds "hello". -/
theorem test_mgf1_xor : field (exec (.mgf1 true)
    { withArgs { State.reset with
        buf := [(0x40, 0x68), (0x41, 0x65), (0x42, 0x6C), (0x43, 0x6C), (0x44, 0x6F), (0x45, 0xEE)] } 0 3 0 0 0x40 5 with
      seq := .waitHash 0x01000020#32 0, digest := some ([0x1A, 0xC9, 0x07, 0x5C, 0xD4] ++ List.replicate 15 0xFF) })
    (·.buf.readBytes 0x40 6) = some [0x72, 0xAC, 0x6B, 0x30, 0xBB, 0xEE] := by decide +kernel
theorem test_mgf1_overlap : run1 (withArgs State.reset 0 3 0 0 2 5) 0x00000020 (·.status.word) =
    some 0x00000706#32 := by decide +kernel                                                         -- MGF-12

/-! ### Bus, completion, interrupts -/

theorem test_bus_byte_order : bus1 State.reset ⟨0x83FC#16, .four, .write 0xA10C0000#32⟩ (·.keyN) = some 3233 := by
  decide +kernel                                                                                    -- MEM-1
theorem test_bus_lanes : bus1 (loaded [(1, 2790)] []) ⟨0x47FC#16, .four, .read⟩ (·.reply) =
    some (some ⟨.okay, some 0xE60A0000#32⟩) := by decide +kernel                                     -- MEM-2
theorem test_bus_misaligned : bus1 State.reset ⟨0x1002#16, .four, .read⟩ (·.reply) =
    some (some ⟨.slverr, some 0#32⟩) := by decide +kernel                                            -- MEM-4
theorem test_keycfg_readback : bus1 State.reset ⟨0x01C#16, .four, .write 0xFFFFFFFF#32⟩ (·.readReg .keycfg) =
    some 0x00000307#32 := by decide +kernel                                                         -- MEM-6
theorem test_set_beats_clear : field (step { State.reset with
      seq := .run 0#32, intStatus := 1#4, moves := [.ackWithSequencer 1#32] }) (·.intStatus) = some 1#4 := by
  decide +kernel                                                                                    -- SYS-12

/-! ### Witnesses: states and operands that meet the hypotheses of the statements, clause by clause -/

/-- `s` with the command word `w` issued and running. -/
def running (s : State) (w : Word) : State :=
  { s with seq := .run w, cmdLast := w, status := ⟨true, false, false, false, .noError⟩ }

/-- `s` with an abort pending. -/
def aborting (s : State) : State := { s with abortPending := true }

/-- Key K2 with two CRT primes and OP[1] = 2790, not blinded. -/
def k2 : State := { loaded [(1, 2790)] keyK2 with keycfg := ⟨2#3, false, false⟩ }

/-- Key K2, blinded, RSADP r2, r1 waiting for its draw. -/
def k2Waiting : State :=
  { running k2 0x00001209#32 with keycfg := ⟨2#3, true, false⟩, seq := .waitRng 0x00001209#32, rngReq := some 52 }

/-- Key K2, blinded, with the largest draw received. -/
def k2Drawn : State := { k2Waiting with rngReq := none, blind := some 52 }

/-- A composite first prime (RSA-10), with a draw that has no inverse. -/
def k10Drawn : State :=
  { loaded [(1, 10)] [(0, 105), (3, 15), (4, 7), (7, 1), (8, 1), (12, 13), (2, 1)] with
    keycfg := ⟨2#3, true, false⟩, seq := .waitRng 0x00001209#32, blind := some 3 }

/-- RSA-11: an abort while RSADP waits on the RNG. The answer is discarded, and OP[2] is unchanged. -/
theorem test_aborted : field (step (aborting k2Drawn)) (fun t => (t.status.word, t.intStatus, t.opNat 2)) =
    some (0x00000B06#32, 3#4, 0) := by decide +kernel

/-- Rules R92, R100: an abort never hides an error the checks find, here the gcd check of RSA-10. -/
theorem test_abort_hides_no_error : field (step (aborting k10Drawn)) (fun t => (t.status.word, t.intStatus)) =
    some (0x00000A06#32, 3#4) := by decide +kernel

/-- Rule R114: a run has ended although the reset input is still to come, and not while an access is. -/
theorem test_runEnded : ({ State.reset with moves := [.reset, .sequencer] } : State).RunEnded ∧
    ¬({ State.reset with moves := [.reset, .host ⟨0x000#16, .four, .read⟩] } : State).RunEnded := by
  unfold State.RunEnded
  decide

/-- Two primes whose product exceeds a slot, and a huge coefficient: the Garner value is too wide. -/
def wideKey : List (RegIx × Nat) :=
  [(0, 2 ^ 8192 - 1), (3, 2 ^ 8192 - 1), (4, 2 ^ 8192 - 3), (7, 1), (8, 1), (12, 1)]

/-- The wide key, not blinded, x = 2^8192 − 2. -/
def wide : State := { loaded [(1, 2 ^ 8192 - 2)] wideKey with keycfg := ⟨2#3, false, false⟩ }

/-- MGF1 running over the seed (0, 3) and the destination (0x40, 21). -/
def mgfRunning : State := running (withArgs State.reset 0 3 0 0 0x40 21) 0x00000020#32

/-- MGF1 waiting for the answer to request 0. -/
def mgfWaiting : State :=
  { mgfRunning with seq := .waitHash 0x00000020#32 0, hashReq := some [0, 0, 0, 0, 0, 0, 0] }

/-- MGF1 with the answer to request 1 received; one byte of the mask is left. -/
def mgfAnswered : State :=
  { mgfRunning with seq := .waitHash 0x00000020#32 1, mgfBlock := 1, digest := some (List.replicate 20 0x4C#8) }

/-- For DecodedWordIsTheEncoding. -/
theorem witness_decodedWord : decode 0x00FFFF04#32 = .ok (.modexp 15 15 15 15) := by decide

/-- For StepRunsTheDecodedCommand. -/
theorem witness_stepRuns :
    (running State.reset 0#32).SequencerNext ∧ (running State.reset 0#32).holds? = some 0#32 ∧
      ({ running State.reset 0#32 with moves := [.sequencer, .reset] } : State).SequencerNext ∧ mgfWaiting.holds? = some 0x00000020#32 ∧
        decode 0#32 = .ok .nop ∧ decode 0x00000020#32 = .ok (.mgf1 false) :=
  ⟨.inl rfl, rfl, .inr rfl, rfl, by decide, by decide⟩

/-- For IllegalWordCompletesWithIllegalCmd and LegalWordsAreTheWellFormedOnes. -/
theorem witness_illegalWord : (running State.reset 0x00000005#32).SequencerNext ∧
    (running State.reset 0x00000005#32).seq = .run 0x00000005#32 ∧ decode 0x00000005#32 = .error .reservedOpcode ∧
      (fieldsOf 0x00000005#32).wellFormed = false ∧ decode 0x00000118#32 = .error .unusedField ∧ State.reset.seq = .idle :=
  ⟨.inl rfl, rfl, by decide, by decide, by decide, rfl⟩

/-- For CmdWriteIssuesOrIsDropped. -/
theorem witness_cmdWrite : State.reset.seq = .idle ∧ (running State.reset 0#32).seq ≠ .idle := ⟨rfl, by decide⟩

/-- For LeavingRunIsACompletion. -/
theorem witness_leavingRun : (running State.reset 0#32).seq ≠ .idle ∧
    ∃ t, sequencerStep (running State.reset 0#32) = .next t ∧ t.seq = .idle := ⟨by decide, _, rfl, rfl⟩

/-- For CommandsWithoutAgentsCompleteInOneStep. -/
theorem witness_oneStep : (∀ x, Instr.cmp ≠ .mgf1 x) ∧ ∀ rd ra, Instr.cmp ≠ .rsadp rd ra := ⟨nofun, nofun⟩

/-- For NopOnlyCompletes. -/
theorem witness_nop : State.reset.abortPending = false ∧ (aborting State.reset).abortPending = true := ⟨rfl, rfl⟩

/-- For the four modular statements: Moduli 0, 1 and 2^8192 − 1, with and without an abort, for MODRED, MODMUL, MONTMUL and MODEXP. -/
theorem witness_modular : State.reset.opNat 0 % 2 = 0 ∧ (loaded [(0, 1)] []).opNat 0 % 2 = 1 ∧
    (loaded [(0, 1)] []).abortPending = false ∧ (aborting (loaded [(0, 2 ^ 8192 - 1)] [])).opNat 0 % 2 = 1 ∧
      (aborting (loaded [(0, 2 ^ 8192 - 1)] [])).abortPending = true := by decide +kernel

/-- For MontmulIsTheMontgomeryProduct: The inverse that the last clause on MONTMUL speaks of (vectors of section 2.3). -/
theorem witness_montmul : 2 ^ 8192 * 808 ≡ 1 [MOD 3233] := by decide +kernel

/-- For RsaepChecksThenRaisesToExp: N even; x = n; x = n − 1 with and without an abort. -/
theorem witness_rsaep : State.reset.keyN % 2 = 0 ∧ (loaded [(0, 3233)] keyK2).keyN % 2 = 1 ∧
    (loaded [(0, 3233)] keyK2).keyN ≤ (loaded [(0, 3233)] keyK2).opNat 0 ∧
      (loaded [(0, 3232)] keyK2).opNat 0 < (loaded [(0, 3232)] keyK2).keyN ∧
        (loaded [(0, 3232)] keyK2).abortPending = false ∧
          (aborting (loaded [(0, 3232)] keyK2)).opNat 0 < (aborting (loaded [(0, 3232)] keyK2)).keyN ∧
            (aborting (loaded [(0, 3232)] keyK2)).abortPending = true := by decide +kernel

/-- For RsadpRejectsIllegalU. -/
theorem witness_rsadpIllegalU : (∀ u : BitVec 3, ∀ w, ({ k2 with keycfg := ⟨u, false, false⟩ } : State).seq ≠ .waitRng w) ∧
    (∀ u ∈ [1#3, 5#3, 6#3, 7#3], u = 1#3 ∨ u = 5#3 ∨ u = 6#3 ∨ u = 7#3) ∧
      (∀ u ∈ [0#3, 2#3, 3#3, 4#3], u = 0#3 ∨ u = 2#3 ∨ u = 3#3 ∨ u = 4#3) ∧ k2.status.errcode = .noError :=
  ⟨fun _ _ => nofun, by decide, by decide, rfl⟩

/-- For RsadpChecksInOrder: N = 0; x = n; a prime 52 and a prime 1, each with a legal U. -/
theorem witness_rsadpChecks :
    (∀ w, (running k2 0x00001209#32).seq ≠ .waitRng w) ∧ k2.keycfg.u = 2#3 ∧ State.reset.keyN % 2 = 0 ∧ k2.keyN % 2 = 1 ∧
      k2.keyN ≤ (k2.setOp 1 3233).opNat 1 ∧ k2.opNat 1 < k2.keyN ∧ k2.keycfg.u ≠ 0#3 ∧
        (k2.setKeyReg 4 52#8192).keyP 2 % 2 = 0 ∧ (k2.setKeyReg 3 1#8192).keyP 1 < 3 := by
  refine ⟨fun _ => nofun, ?_⟩
  decide +kernel

/-- For RsadpWithoutCrtMaterial. -/
theorem witness_rsadpNoCrt : (∀ w, (loaded [(1, 3232)] keyK2).seq ≠ .waitRng w) ∧ (loaded [(1, 3232)] keyK2).keycfg.u = 0#3 ∧
    (loaded [(1, 3232)] keyK2).keyN % 2 = 1 ∧ (loaded [(1, 3232)] keyK2).opNat 1 < (loaded [(1, 3232)] keyK2).keyN ∧
      (loaded [(1, 3232)] keyK2).abortPending = false ∧ (aborting (loaded [(1, 3232)] keyK2)).abortPending = true := by
  refine ⟨fun _ => nofun, ?_⟩
  decide +kernel

theorem k2_primes : ∀ i, 1 ≤ i → i ≤ 2 → k2.keyP i % 2 = 1 ∧ 3 ≤ k2.keyP i := by
  intro i h1 h2
  obtain rfl | rfl : i = 1 ∨ i = 2 := by omega
  all_goals decide +kernel

/-- For RsadpAsksForOneDraw. -/
theorem witness_rsadpDraw : ∀ s, s = running { k2 with keycfg := ⟨2#3, true, false⟩ } 0x00001209#32 →
    s.seq = .run 0x00001209#32 ∧ s.keycfg.u = 2#3 ∧ s.keyN % 2 = 1 ∧ s.opNat 1 < s.keyN ∧
      (∀ i, 1 ≤ i → i ≤ s.keycfg.u.toNat → s.keyP i % 2 = 1 ∧ 3 ≤ s.keyP i) ∧ s.keycfg.pubeV = true ∧ s.keycfg.noBlind = false := by
  rintro s rfl
  refine ⟨rfl, rfl, by decide +kernel, by decide +kernel, ?_, rfl, rfl⟩
  intro i h1 h2
  obtain rfl | rfl : i = 1 ∨ i = 2 := by
    have h2 : i ≤ 2 := h2
    omega
  all_goals decide +kernel

/-- For RsadpWithoutBlindingCommitsGarner: Both ways to do without blinding, and for the result both sides of the width limit. -/
theorem witness_rsadpUnblinded : (∀ w, k2.seq ≠ .waitRng w) ∧ k2.keycfg.u = 2#3 ∧ k2.keyN % 2 = 1 ∧ k2.opNat 1 < k2.keyN ∧
    (∀ i, 1 ≤ i → i ≤ k2.keycfg.u.toNat → k2.keyP i % 2 = 1 ∧ 3 ≤ k2.keyP i) ∧ k2.keycfg.pubeV = false ∧
      ({ k2 with keycfg := ⟨2#3, true, true⟩ } : State).keycfg.noBlind = true ∧ k2.abortPending = false ∧
        (aborting k2).abortPending = true ∧ garner (k2.crtPrimes.map fun c => (k2.opNat 1 ^ c.dx % c.p, c)) < 2 ^ 8192 :=
  ⟨fun _ => nofun, rfl, by decide +kernel, by decide +kernel, k2_primes, rfl, rfl, rfl, rfl, by decide +kernel⟩

/-- For RsadpWithoutBlindingCommitsGarner, the result too wide. -/
theorem witness_rsadpWide : (∀ w, wide.seq ≠ .waitRng w) ∧ wide.keycfg.u = 2#3 ∧ wide.keyN % 2 = 1 ∧ wide.opNat 1 < wide.keyN ∧
    (∀ i, 1 ≤ i → i ≤ wide.keycfg.u.toNat → wide.keyP i % 2 = 1 ∧ 3 ≤ wide.keyP i) ∧ wide.keycfg.pubeV = false ∧
      2 ^ 8192 ≤ garner (wide.crtPrimes.map fun c => (wide.opNat 1 ^ c.dx % c.p, c)) := by
  refine ⟨fun _ => nofun, rfl, by decide +kernel, by decide +kernel, ?_, rfl, by decide +kernel⟩
  intro i h1 h2
  obtain rfl | rfl : i = 1 ∨ i = 2 := by
    have h2 : i ≤ 2 := h2
    omega
  all_goals decide +kernel

/-- For RsadpWithBlindingCommitsGarner. -/
theorem witness_rsadpBlinded : k2Drawn.seq = .waitRng 0x00001209#32 ∧ k2Drawn.blind = some 52 ∧
    k2Drawn.abortPending = false ∧ (aborting k2Drawn).abortPending = true ∧ (∀ c ∈ k2Drawn.crtPrimes, Nat.gcd 52 c.p = 1) ∧
      garner (k2Drawn.crtPrimes.map fun c =>
        (((k2Drawn.opNat 1 * (52 ^ k2Drawn.keyPube % c.p) % c.p) ^ c.dx % c.p) * inv 52 c.p % c.p, c)) < 2 ^ 8192 ∧
        k10Drawn.seq = .waitRng 0x00001209#32 ∧ k10Drawn.blind = some 3 ∧ ∃ c ∈ k10Drawn.crtPrimes, Nat.gcd 3 c.p ≠ 1 := by
  refine ⟨rfl, rfl, rfl, rfl, ?_⟩
  decide +kernel

/-- For GarnerHasEveryResidue: Key K3's three primes with the residues of RSA-7. -/
theorem witness_garner : ∀ all : List (Nat × CrtPrime), all = [(9, ⟨11, 3, 0⟩), (11, ⟨13, 7, 6⟩), (11, ⟨17, 7, 5⟩)] →
    (∀ t ∈ all, 0 < t.2.p ∧ t.1 < t.2.p) ∧ 6 * 13 ≡ 1 [MOD 11] ∧
      ∀ (pre post : List (Nat × CrtPrime)) (t : Nat × CrtPrime), all = pre ++ t :: post → 2 ≤ pre.length →
        t.2.cf * (pre.map fun u => u.2.p).prod ≡ 1 [MOD t.2.p] := by
  rintro all rfl
  refine ⟨by decide, by decide, ?_⟩
  intro pre post t h hl
  match pre, hl with
  | [a, b], _ =>
    injection h with ha h
    injection h with hb h
    injection h with ht _
    subst ha hb ht
    decide
  | a :: b :: c :: pre, _ =>
    have := congrArg List.length h
    simp at this

/-- For BlindingCancels. -/
theorem witness_blindingCancels : Nat.Prime 61 ∧ 17 * 53 ≡ 1 [MOD 61 - 1] ∧ 1 ≤ 1 ∧ 60 < 61 := by
  refine ⟨by norm_num, by decide, by decide, by decide⟩

theorem k2_crt : k2.crtPrimes = [⟨61, 53, 0⟩, ⟨53, 49, 38⟩] := by decide +kernel

/-- For ConsistentKeyGivesThePower: Key K2 is consistent for e = 17 and d = 2753, and the draws 1 and 52 are both ends of the range; with
U = 0, any exponent. -/
theorem witness_consistentKey : k2.KeyConsistent 17 2753 ∧ k2.keycfg.u = 2#3 ∧ k2.opNat 1 < k2.keyN ∧
    (∀ w, k2.seq ≠ .waitRng w) ∧ k2.keycfg.pubeV = false ∧ k2Drawn.seq = .waitRng 0x00001209#32 ∧ k2Drawn.blind = some 52 ∧
      k2Drawn.keyPube = 17 ∧ 1 ≤ 52 ∧ (∀ c ∈ k2Drawn.crtPrimes, 52 < c.p) ∧ (loaded [(1, 3232)] keyK2).keycfg.u = 0#3 ∧
        (loaded [(1, 3232)] keyK2).keyN % 2 = 1 ∧ (loaded [(1, 3232)] keyK2).opNat 1 < (loaded [(1, 3232)] keyK2).keyN := by
  refine ⟨⟨?_, by decide +kernel, by decide +kernel, ?_⟩, rfl, by decide +kernel, fun _ => nofun, rfl, rfl, rfl, by decide +kernel,
    by decide, by decide +kernel, rfl, by decide +kernel, by decide +kernel⟩
  · have hp : Nat.Prime 61 ∧ Nat.Prime 53 := by norm_num
    rw [k2_crt]
    intro c hc
    simp only [List.mem_cons, List.not_mem_nil, or_false] at hc
    rcases hc with rfl | rfl
    · exact ⟨hp.1, by decide, by decide, by decide⟩
    · exact ⟨hp.2, by decide, by decide, by decide⟩
  · intro i h1 h2
    have h2 : i ≤ 2 := h2
    omega

/-- For AbortedDrawIsDiscarded: K2 with its largest draw, and a composite prime with a draw that has no inverse. -/
theorem witness_abortedDraw : (aborting k2Waiting).seq = .waitRng 0x00001209#32 ∧ (aborting k2Waiting).abortPending = true ∧
    (aborting k2Waiting).rngStale = 0 ∧ (aborting k2Waiting).rngReq = some 52 ∧ 1 ≤ 52 ∧ 52 ≤ 52 ∧
      ∃ c ∈ ({ aborting k10Drawn with rngReq := some 6, blind := none } : State).crtPrimes, Nat.gcd 3 c.p ≠ 1 :=
  ⟨rfl, rfl, rfl, rfl, by decide, by decide, by decide +kernel⟩

/-- For I2ospWritesTheBigEndianBytes: Ranges that end at 4097 and at 4096, a value one too large and the largest that fits. -/
theorem witness_i2osp : ∀ s a l, s = withArgs (loaded [(3, 256)] []) 0 0 0 0 a l → s.abortPending = false ∧ s.buf.wf = true ∧
    (a = 4095 → l = 2 → 4096 < s.args.addrD.toNat + s.args.lenD.toNat) ∧
    (a = 4095 → l = 1 → s.args.addrD.toNat + s.args.lenD.toNat ≤ 4096 ∧ 256 ^ s.args.lenD.toNat ≤ s.opNat 3) ∧
    (a = 4094 → l = 2 → s.args.addrD.toNat + s.args.lenD.toNat ≤ 4096 ∧ s.opNat 3 < 256 ^ s.args.lenD.toNat ∧
      (aborting s).abortPending = true) := by
  rintro s a l rfl
  refine ⟨rfl, rfl, ?_, ?_, ?_⟩ <;> rintro rfl rfl <;> decide +kernel

/-- For Os2ipReadsTheBigEndianValue: Lengths 1025 and 1024, a range that ends at 4097. -/
theorem witness_os2ip : ∀ s a l, s = withArgs State.reset a l 0 0 0 0 → s.abortPending = false ∧
    (a = 0xFFFF → l = 1 → 4096 < s.args.addrA.toNat + s.args.lenA.toNat) ∧
    (a = 3071 → l = 1025 → s.args.addrA.toNat + s.args.lenA.toNat ≤ 4096 ∧ 1024 < s.args.lenA.toNat) ∧
    (a = 3072 → l = 1024 → s.args.addrA.toNat + s.args.lenA.toNat ≤ 4096 ∧ s.args.lenA.toNat ≤ 1024 ∧
      (aborting s).abortPending = true) := by
  rintro s a l rfl
  refine ⟨rfl, ?_, ?_, ?_⟩ <;> rintro rfl rfl <;> decide +kernel

/-- For OctetStringRoundTrip: The longest string, source and destination the same range. -/
theorem witness_roundTrip : ∀ s, s = withArgs State.reset 3072 1024 0 0 3072 1024 → s.buf.wf = true ∧ s.abortPending = false ∧
    s.args.lenA.toNat ≤ 1024 ∧ s.args.addrA.toNat + s.args.lenA.toNat ≤ 4096 ∧
      s.args.addrD.toNat + s.args.lenA.toNat ≤ 4096 ∧ s.args.lenD = s.args.lenA := by
  rintro s rfl
  refine ⟨rfl, rfl, ?_⟩
  decide +kernel

/-- For CmpComparesAllBytes. -/
theorem witness_cmp : (∀ s, s = withArgs State.reset 0 4097 0 0 0 0 → 4096 < s.args.addrA.toNat + s.args.lenA.toNat) ∧
    (∀ s, s = withArgs State.reset 0 0 4096 1 0 0 → 4096 < s.args.addrB.toNat + s.args.lenB.toNat) ∧
    ∀ s, s = withArgs State.reset 0 4096 4096 0 0 0 → s.args.addrA.toNat + s.args.lenA.toNat ≤ 4096 ∧
      s.args.addrB.toNat + s.args.lenB.toNat ≤ 4096 ∧ s.abortPending = false ∧ (aborting s).abortPending = true := by
  refine ⟨?_, ?_, ?_⟩ <;> rintro s rfl <;> decide +kernel

/-- For Mgf1ChecksInOrder: HLEN 21; a destination to 4097; ranges that share one byte. -/
theorem witness_mgfChecks : (∀ w j, mgfRunning.seq ≠ .waitHash w j) ∧
    (∀ s : State, s = { mgfRunning with hlen := 21#7 } → s.hlen.toNat ∉ [16, 20, 28, 32, 48, 64]) ∧
    (∀ s, s = withArgs mgfRunning 0 3 0 0 4090 7 → s.hlen.toNat ∈ [16, 20, 28, 32, 48, 64] ∧
      4096 < s.args.addrD.toNat + s.args.lenD.toNat) ∧
    ∀ s, s = withArgs mgfRunning 0 3 0 0 2 5 → s.hlen.toNat ∈ [16, 20, 28, 32, 48, 64] ∧
      s.args.addrA.toNat + s.args.lenA.toNat ≤ 4096 ∧ s.args.addrD.toNat + s.args.lenD.toNat ≤ 4096 ∧ 0 < s.args.lenA.toNat ∧
        0 < s.args.lenD.toNat ∧ s.args.addrA.toNat < s.args.addrD.toNat + s.args.lenD.toNat ∧
          s.args.addrD.toNat < s.args.addrA.toNat + s.args.lenA.toNat := by
  refine ⟨fun _ _ => nofun, ?_, ?_, ?_⟩ <;> rintro s rfl <;> decide +kernel

/-- For Mgf1SendsTheNextRequest: The first block with and without an abort, and after the second and last. -/
theorem witness_mgfRequest : mgfRunning.seq = .run 0x00000020#32 ∧ mgfRunning.mgfCheck = none ∧
    mgfRunning.mgfBlock * mgfRunning.hlen.toNat < mgfRunning.args.lenD.toNat ∧ mgfRunning.abortPending = false ∧
      (aborting mgfRunning).abortPending = true ∧
        mgfRunning.args.lenD.toNat ≤ ({ mgfRunning with mgfBlock := 2 } : State).mgfBlock * mgfRunning.hlen.toNat := by
  decide +kernel

/-- For Mgf1WritesOneBlock. -/
theorem witness_mgfBlock : mgfAnswered.seq = .waitHash 0x00000020#32 1 ∧ mgfAnswered.digest = some (List.replicate 20 0x4C#8) ∧
    (List.replicate 20 0x4C#8).length = mgfAnswered.hlen.toNat ∧ mgfAnswered.args.addrD.toNat + mgfAnswered.args.lenD.toNat ≤ 4096 ∧
      1 * mgfAnswered.hlen.toNat < mgfAnswered.args.lenD.toNat ∧ mgfAnswered.buf.wf = true ∧ mgfAnswered.abortPending = false ∧
        (aborting mgfAnswered).abortPending = true := by decide +kernel

/-- For Mgf1WritesTheWholeMask. -/
theorem witness_mgfMask : mgfRunning.seq = .run 0x00000020#32 ∧ mgfRunning.mgfBlock = 0 ∧ mgfRunning.mgfCheck = none ∧
    mgfRunning.abortPending = false ∧ mgfRunning.buf.wf = true ∧
      ∀ j : Nat, ((fun _ => List.replicate 20 0x4C#8) j : List Byte).length = mgfRunning.hlen.toNat := by
  refine ⟨rfl, rfl, by decide +kernel, rfl, rfl, fun _ => rfl⟩

/-- For HashCoreAnswersTheRequest. -/
theorem witness_hashCore : 0 < ({ State.reset with hashStale := 1 } : State).hashStale ∧ State.reset.hashStale = 0 ∧
    State.reset.hashReq = none ∧ mgfWaiting.hashStale = 0 ∧ mgfWaiting.hashReq = some [0, 0, 0, 0, 0, 0, 0] :=
  ⟨by decide, rfl, rfl, rfl, rfl⟩

/-- For RngAnswersWithinTheRange: Draws 0, 1, 52 and 53 for the range [1, 52], no request, and an answer owed. -/
theorem witness_rng : k2Waiting.rngStale = 0 ∧ k2Waiting.rngReq = some 52 ∧ ¬(1 ≤ 0 ∧ 0 ≤ 52) ∧ (1 ≤ 1 ∧ 1 ≤ 52) ∧ (1 ≤ 52 ∧ 52 ≤ 52) ∧
    ¬(1 ≤ 53 ∧ 53 ≤ 52) ∧ State.reset.rngReq = none ∧ 0 < ({ State.reset with rngStale := 1 } : State).rngStale := by decide

theorem k2Waiting_coherent : k2Waiting.StatusCoherent ∧ k2Waiting.SequencerCoherent ∧ k2Waiting.DrawInRange := by
  refine ⟨⟨by decide, by decide, by decide⟩, ⟨rfl, ⟨2, 1, by decide⟩, rfl, rfl, fun _ => rfl, fun _ => rfl⟩, ?_, nofun⟩
  intro hi h
  obtain rfl : 52 = hi := by injection h
  decide +kernel

/-- For OnlyTheAgentOrAResetEndsAWait: an abort and the other agent's move, in either wait. -/
theorem witness_wait : k2Waiting.SequencerCoherent ∧ k2Waiting.rngReq.isSome = true ∧ k2Waiting.hashReq.isSome = false ∧
    (∃ t, moveStep (.host ⟨0x008#16, .four, .write 2#32⟩) k2Waiting = .next t) ∧ (∃ t, moveStep .hashCore k2Waiting = .next t) ∧
      mgfWaiting.SequencerCoherent ∧ mgfWaiting.hashReq.isSome = true ∧ mgfWaiting.rngReq.isSome = false ∧
        ∃ t, moveStep (.rng 1) mgfWaiting = .next t :=
  ⟨k2Waiting_coherent.2.1, rfl, rfl, ⟨_, rfl⟩, ⟨_, rfl⟩, ⟨rfl, ⟨false, by decide⟩, rfl, by decide, rfl, rfl⟩, rfl, rfl, ⟨_, rfl⟩⟩

/-- For IllegalAccessHasNoEffect. -/
theorem witness_illegalAccess :
    ((0x020#16).toNat < 0x1000 ∧ (Size.two ≠ .four ∨ (0x020#16).toNat % 4 ≠ 0)) ∧
    ((0xFFE#16).toNat < 0x1000 ∧ (Size.four ≠ .four ∨ (0xFFE#16).toNat % 4 ≠ 0)) ∧
    (0x1000 ≤ (0x1002#16).toNat ∧ (0x1002#16).toNat % Size.four.bytes ≠ 0) ∧
    (0x1000 ≤ (0xFFFF#16).toNat ∧ (0xFFFF#16).toNat % Size.two.bytes ≠ 0) := by decide

/-- For ReservedAddressesReadZero: The ends of the reserved areas, with a legal size and an illegal one. -/
theorem witness_reserved :
    (∀ off ∈ [0x03C#16, 0xFFC#16], 0x03C ≤ off.toNat ∧ off.toNat < 0x1000 ∧
      (Resp.okay = .okay ↔ Size.four = .four ∧ off.toNat % 4 = 0) ∧ (Resp.slverr = .okay ↔ Size.two = .four ∧ off.toNat % 4 = 0)) ∧
    (∀ off ∈ [0x2000#16, 0x3FFF#16], 0x2000 ≤ off.toNat ∧ off.toNat < 0x4000 ∧
      (Resp.okay = .okay ↔ off.toNat % Size.one.bytes = 0)) ∧
    (∀ off ∈ [0xBC00#16, 0xFFFE#16], 0xBC00 ≤ off.toNat ∧ (Resp.okay = .okay ↔ off.toNat % Size.two.bytes = 0)) ∧
    0xBC00 ≤ (0xFFFF#16).toNat ∧ (Resp.slverr = .okay ↔ (0xFFFF#16).toNat % Size.four.bytes = 0) := by
  refine ⟨?_, ?_, ?_, ?_⟩ <;> simp [Size.bytes]

/-- For BusyProtectsTheOperands. -/
theorem witness_busy : mgfRunning.status.busy = true ∧ mgfRunning.seq ≠ .idle ∧
    (∀ off ∈ [0x1000#16, 0x1FFC#16, 0x4000#16, 0xBBFC#16], off.toNat % Size.four.bytes = 0 ∧
      ((0x1000 ≤ off.toNat ∧ off.toNat < 0x2000) ∨ (0x4000 ≤ off.toNat ∧ off.toNat < 0xBC00))) ∧
    (∀ off ∈ [0x01C#16, 0x038#16], 0x01C ≤ off.toNat ∧ off.toNat < 0x03C ∧ off.toNat % 4 = 0) ∧
    ∀ off ∈ [0x000#16, 0x014#16], off.toNat < 0x018 ∧ off.toNat % 4 = 0 := by
  refine ⟨rfl, by decide, ?_, ?_, ?_⟩ <;> simp [Size.bytes]

/-- For WindowReadReturnsTheBytes and WindowWriteStoresTheBytes: The first and last offsets of the windows, idle; also for ConfigurationReadsBack. -/
theorem witness_window : State.reset.status.busy = false ∧ State.reset.buf.wf = true ∧
    ∀ off ∈ [0x1000#16, 0x1FFF#16, 0x4000#16, 0xBBFF#16], off.toNat % Size.one.bytes = 0 ∧
      ((0x1000 ≤ off.toNat ∧ off.toNat < 0x2000) ∨ (0x4000 ≤ off.toNat ∧ off.toNat < 0xBC00)) := by
  refine ⟨rfl, rfl, ?_⟩
  simp [Size.bytes]

/-- For SlotsAreBigEndian. -/
theorem witness_slots : 4095 < 4096 ∧ (14#4 : RegIx) ≠ 15#4 := by decide

/-- For IntStatusClearsOnWriteOne: a completion without error and one with an error, and an idle block. -/
theorem witness_ack :
    (∃ t, moveStep (.ackWithSequencer 3#32) (running State.reset 0#32) = .next t ∧ t.seq = .idle ∧ t.status.err = false) ∧
    (∃ t, moveStep (.ackWithSequencer 3#32) (running State.reset 5#32) = .next t ∧ t.seq = .idle ∧ t.status.err = true) ∧
    (∃ t, moveStep (.ackWithSequencer 3#32) State.reset = .next t) ∧
    (running State.reset 0#32).seq ≠ .idle ∧ (running State.reset 5#32).seq ≠ .idle :=
  ⟨⟨_, rfl, rfl, rfl⟩, ⟨_, rfl, rfl, rfl⟩, ⟨_, rfl⟩, by decide, by decide⟩

/-- For AbortIsLatchedWhileBusy. -/
theorem witness_abort : (2#32 : Word).getLsbD 0 = false ∧ (2#32 : Word).getLsbD 1 = true ∧ mgfWaiting.seq ≠ .idle ∧
    State.reset.seq = .idle ∧ (0xFFFFFFFC#32 : Word).getLsbD 0 = false ∧ (0xFFFFFFFC#32 : Word).getLsbD 1 = false := by decide

/-- For ResetZeroisesEverything. -/
theorem witness_reset : (3#32 : Word).getLsbD 0 = true ∧ (∃ t, moveStep .reset mgfWaiting = .next t) ∧
    ∃ t, moveStep (.host ⟨0x008#16, .four, .write 3#32⟩) k2Waiting = .next t := ⟨by decide, ⟨_, rfl⟩, ⟨_, rfl⟩⟩

/-- For ResetDiscardsTheAnswerOwed: a second hash request in flight while an older answer is owed; a draw in flight. -/
theorem witness_owed : (3#32 : Word).getLsbD 0 = true ∧
    (2 : Nat) = ({ mgfWaiting with hashStale := 1 } : State).hashStale + (if mgfWaiting.hashReq.isSome then 1 else 0) ∧
      (0 : Nat) = mgfWaiting.rngStale + (if mgfWaiting.rngReq.isSome then 1 else 0) ∧
        (1 : Nat) = k2Waiting.rngStale + (if k2Waiting.rngReq.isSome then 1 else 0) := by decide

/-- For CommandFrame, OnlyCmpChangesEq and ErrorsWriteNothing: A command that ends with an error, for the frame statements and the rule on EQ. -/
theorem witness_frame : (running State.reset 0x00000001#32).status.err = false ∧
    ∃ t, exec (.modred 0 0 0) (running State.reset 0x00000001#32) = .next t ∧ t.status.err = true ∧
      destOf (.modred 0 0 0) ≠ some 1 ∧ writesBuf (.modred 0 0 0) = false := by
  refine ⟨rfl, _, rfl, ?_⟩
  decide +kernel

/-- For HostCannotDisturbARunningCommand. -/
theorem witness_disturb : mgfRunning.status.busy = true ∧ mgfRunning.seq ≠ .idle ∧
    ∀ z v, v.getLsbD 0 = true → (⟨0x4000#16, .four, .write 1#32⟩ : Access) ≠ ⟨0x008#16, z, .write v⟩ := by
  refine ⟨rfl, by decide, ?_⟩
  intro z v _ h
  injection h with h _ _
  exact absurd h (by decide)

/-- For the five invariants of every step. -/
theorem witness_invariants : k2Waiting.buf.wf = true ∧ k2Waiting.keyReg 15#4 = 0#8192 ∧ k2Waiting.StatusCoherent ∧
    k2Waiting.SequencerCoherent ∧ k2Waiting.DrawInRange ∧ ∃ t, step { k2Waiting with moves := [.rng 52] } = .next t := by
  refine ⟨rfl, by decide +kernel, k2Waiting_coherent.1, k2Waiting_coherent.2.1, k2Waiting_coherent.2.2, _, rfl⟩

end Sys2Proof.Tests
end

section
namespace Sys2Proof.Machine

/-- Rule R36, source by source: the word comparison of `State.irq` against its four bits. -/
theorem State.irq_eq_true_iff (s : State) :
    s.irq = true ↔ ∃ b, b < 4 ∧ s.intStatus.getLsbD b = true ∧ s.intEn.getLsbD b = true := by
  have hzero : s.intStatus &&& s.intEn = 0#4 ↔
      ∀ b, b < 4 → ¬(s.intStatus.getLsbD b = true ∧ s.intEn.getLsbD b = true) := by
    simp [BitVec.eq_of_getLsbD_eq_iff]
  calc s.irq = true ↔ ¬(s.intStatus &&& s.intEn = 0#4) := bne_iff_ne
    _ ↔ ∃ b, b < 4 ∧ s.intStatus.getLsbD b = true ∧ s.intEn.getLsbD b = true := by
      simp only [hzero, not_forall, not_not, exists_prop]

/-- No source is pending or enabled after reset (rules R28, R29, R36). -/
@[simp] theorem State.reset_irq : State.reset.irq = false := rfl

/-- Settles O47: bit by bit over all states, and at reset. -/
theorem irqIsPendingAndEnabled : Obligations.IrqIsPendingAndEnabled :=
  ⟨State.irq_eq_true_iff, State.reset_irq⟩

end Sys2Proof.Machine
end

section
/-! The host bus of 20_memory.md, said once per case: which accesses are legal, how each kind of access is answered, and what
a legal access does to a register, to a reserved offset, and to a window of a busy block. -/

namespace Sys2Proof.Machine

/-! ### Legal accesses and their answers (rule R40) -/

theorem Access.legal_iff_of_control {off : BitVec 16} {z : Size} {d : Direction} (h : off.toNat < 0x1000) :
    Access.legal ⟨off, z, d⟩ = true ↔ z = .four ∧ off.toNat % 4 = 0 := by
  simp [Access.legal, h]

theorem Access.legal_iff_of_data {off : BitVec 16} {z : Size} {d : Direction} (h : 0x1000 ≤ off.toNat) :
    Access.legal ⟨off, z, d⟩ = true ↔ off.toNat % z.bytes = 0 := by
  simp [Access.legal, not_lt.2 h]

/-- The illegal accesses of rule R40, by class. -/
theorem Access.not_legal_iff {off : BitVec 16} {z : Size} {d : Direction} :
    ¬Access.legal ⟨off, z, d⟩ = true ↔
      (off.toNat < 0x1000 ∧ (z ≠ .four ∨ off.toNat % 4 ≠ 0)) ∨ (0x1000 ≤ off.toNat ∧ off.toNat % z.bytes ≠ 0) := by
  rcases Nat.lt_or_ge off.toNat 0x1000 with h | h
  · simp only [Access.legal_iff_of_control h, h, not_le.2 h, true_and, false_and, or_false, not_and_or]
  · simp only [Access.legal_iff_of_data h, h, not_lt.2 h, true_and, false_and, false_or]

theorem hostAccess_read_of_legal {off : BitVec 16} {z : Size} (s : State) (h : Access.legal ⟨off, z, .read⟩ = true) :
    hostAccess ⟨off, z, .read⟩ s =
      (s.legalRead off.toNat z.bytes).1.answer .okay (some (s.legalRead off.toNat z.bytes).2) :=
  if_pos h

theorem hostAccess_write_of_legal {off : BitVec 16} {z : Size} {v : Word} (s : State)
    (h : Access.legal ⟨off, z, .write v⟩ = true) :
    hostAccess ⟨off, z, .write v⟩ s = (s.legalWrite off.toNat z.bytes v).answer .okay none :=
  if_pos h

theorem hostAccess_read_of_illegal {off : BitVec 16} {z : Size} (s : State) (h : ¬Access.legal ⟨off, z, .read⟩ = true) :
    hostAccess ⟨off, z, .read⟩ s = s.answer .slverr (some 0#32) :=
  if_neg h

theorem hostAccess_write_of_illegal {off : BitVec 16} {z : Size} {v : Word} (s : State)
    (h : ¬Access.legal ⟨off, z, .write v⟩ = true) : hostAccess ⟨off, z, .write v⟩ s = s.answer .slverr none :=
  if_neg h

/-- Settles O37: the statement's condition is `Access.not_legal_iff`, and each class of access has one kind of answer. -/
theorem illegalAccessHasNoEffect : Obligations.IllegalAccessHasNoEffect := by
  intro off z v s
  split
  case isTrue h =>
    exact ⟨hostAccess_read_of_illegal s (Access.not_legal_iff.2 h), hostAccess_write_of_illegal s (Access.not_legal_iff.2 h)⟩
  case isFalse h =>
    have hl : ∀ d, Access.legal ⟨off, z, d⟩ = true := fun d => not_not.1 (mt Access.not_legal_iff.1 h)
    rw [hostAccess_read_of_legal s (hl _), hostAccess_write_of_legal s (hl _)]
    exact ⟨⟨_, State.answer_reply _ _ _⟩, State.answer_reply _ _ _⟩

/-! ### Reserved offsets (rule R39) -/

/-- The registers stand at the aligned offsets below 0x03C (rule R23). -/
theorem ctrlRegAt?_bounds {off : Nat} {r : CtrlReg} (h : ctrlRegAt? off = some r) : off < 0x03C ∧ off % 4 = 0 := by
  unfold ctrlRegAt? at h
  split at h <;> cases h <;> decide

theorem ctrlRegAt?_eq_none {off : Nat} (h : 0x03C ≤ off) : ctrlRegAt? off = none :=
  Option.eq_none_iff_forall_ne_some.2 fun _ hr => absurd (ctrlRegAt?_bounds hr).1 (not_lt.2 h)

theorem isWindow_eq_false {off : Nat} (h : (0x2000 ≤ off ∧ off < 0x4000) ∨ 0xBC00 ≤ off) : isWindow off = false := by
  rw [← Bool.not_eq_true, isWindow_iff]
  omega

theorem readLanes_reserved (s : State) {off n : Nat} (h1 : 0x1000 ≤ off) (hr : isWindow off = false)
    (hn : n = 1 ∨ n = 2 ∨ n = 4) (ha : off % n = 0) : ∀ k, k ≤ n → s.readLanes off k = 0#32
  | 0, _ => rfl
  | k + 1, hk => by
    rw [State.readLanes, readLanes_reserved s h1 hr hn ha k (by omega), State.readByteAt,
      reserved_lanes h1 hr hn ha (show k < n by omega)]
    simp

/-- The offsets that hold neither a register nor a byte of a window (rule R39). -/
def reservedOffset (off : Nat) : Prop :=
  (0x03C ≤ off ∧ off < 0x1000) ∨ (0x2000 ≤ off ∧ off < 0x4000) ∨ 0xBC00 ≤ off

theorem legalRead_reserved (s : State) {off : BitVec 16} {z : Size} {d : Direction} (hr : reservedOffset off.toNat)
    (hl : Access.legal ⟨off, z, d⟩ = true) : s.legalRead off.toNat z.bytes = (s, 0#32) := by
  unfold State.legalRead
  rcases hr with ⟨h, h'⟩ | h
  · rw [if_pos h', ctrlRegAt?_eq_none h]
  · have h1 : 0x1000 ≤ off.toNat := by omega
    have hw := isWindow_eq_false h
    simp [not_lt.2 h1, hw, readLanes_reserved s h1 hw z.bytes_cases ((Access.legal_iff_of_data h1).1 hl) _ le_rfl]

theorem legalWrite_reserved (s : State) {off : BitVec 16} {z : Size} {d : Direction} (v : Word)
    (hr : reservedOffset off.toNat) (hl : Access.legal ⟨off, z, d⟩ = true) : s.legalWrite off.toNat z.bytes v = s := by
  unfold State.legalWrite
  rcases hr with ⟨h, h'⟩ | h
  · rw [if_pos h', ctrlRegAt?_eq_none h]
  · have h1 : 0x1000 ≤ off.toNat := by omega
    have hw := isWindow_eq_false h
    simp [not_lt.2 h1, hw, writeLanes_reserved s v h1 hw z.bytes_cases ((Access.legal_iff_of_data h1).1 hl) _ le_rfl]

/-- An access to a reserved offset, with the response that tells whether it was legal (rules R39, R40). -/
theorem hostAccess_reserved {off : BitVec 16} {z : Size} (v : Word) (s : State) {resp : Resp}
    (hr : reservedOffset off.toNat) (hresp : ∀ d, resp = .okay ↔ Access.legal ⟨off, z, d⟩ = true) :
    hostAccess ⟨off, z, .read⟩ s = s.answer resp (some 0#32) ∧ hostAccess ⟨off, z, .write v⟩ s = s.answer resp none := by
  cases resp with
  | okay =>
    have hl : ∀ d, Access.legal ⟨off, z, d⟩ = true := fun d => (hresp d).1 rfl
    rw [hostAccess_read_of_legal s (hl _), hostAccess_write_of_legal s (hl _), legalRead_reserved s hr (hl .read),
      legalWrite_reserved s v hr (hl .read)]
    exact ⟨rfl, rfl⟩
  | slverr =>
    have hl : ∀ d, ¬Access.legal ⟨off, z, d⟩ = true := fun d h => nomatch (hresp d).2 h
    exact ⟨hostAccess_read_of_illegal s (hl _), hostAccess_write_of_illegal s (hl _)⟩

/-- Settles O38: in either class the response the statement gives is the one of a legal access. -/
theorem reservedAddressesReadZero : Obligations.ReservedAddressesReadZero := by
  intro off z v s resp h
  rcases h with ⟨hlo, hhi, hresp⟩ | ⟨hoff, hresp⟩
  · exact hostAccess_reserved v s (.inl ⟨hlo, hhi⟩) fun _ => hresp.trans (Access.legal_iff_of_control hhi).symm
  · exact hostAccess_reserved v s (.inr hoff) fun _ => hresp.trans (Access.legal_iff_of_data (by omega)).symm

/-! ### Windows of a busy block (rules R43(a), R43(b)) -/

theorem legalRead_window_of_busy {s : State} {off : Nat} (n : Nat) (hb : s.status.busy = true)
    (hw : isWindow off = true) : s.legalRead off n = (s.setInt accBit, 0#32) := by
  have h1 : ¬off < 0x1000 := by have := isWindow_iff.1 hw; omega
  simp [State.legalRead, h1, hw, hb]

theorem legalWrite_window_of_busy {s : State} {off : Nat} (n : Nat) (v : Word) (hb : s.status.busy = true)
    (hw : isWindow off = true) : s.legalWrite off n v = s.setInt accBit := by
  have h1 : ¬off < 0x1000 := by have := isWindow_iff.1 hw; omega
  simp [State.legalWrite, h1, hw, hb]

theorem hostAccess_window_of_busy {off : BitVec 16} {z : Size} (v : Word) {s : State} (hb : s.status.busy = true)
    (hw : isWindow off.toNat = true) (ha : off.toNat % z.bytes = 0) :
    hostAccess ⟨off, z, .write v⟩ s = (s.setInt accBit).answer .okay none ∧
      hostAccess ⟨off, z, .read⟩ s = (s.setInt accBit).answer .okay (some 0#32) := by
  have h1 : 0x1000 ≤ off.toNat := by have := isWindow_iff.1 hw; omega
  have hl : ∀ d, Access.legal ⟨off, z, d⟩ = true := fun _ => (Access.legal_iff_of_data h1).2 ha
  rw [hostAccess_write_of_legal s (hl _), hostAccess_read_of_legal s (hl _), legalWrite_window_of_busy _ v hb hw,
    legalRead_window_of_busy _ hb hw]
  exact ⟨rfl, rfl⟩

/-! ### Control registers (rules R23, R43(c) to (e)) -/

/-- The configuration registers a busy block protects (rule R43(c)). -/
def configRegs : List CtrlReg := [.keycfg, .mgfcfg, .addrA, .lenA, .addrB, .lenB, .addrD, .lenD]

/-- Every word of the control region below 0x03C is a register, a protected one from 0x01C on (rule R23). -/
theorem ctrlRegAt?_of_lt {off : Nat} (h : off < 0x03C) (ha : off % 4 = 0) :
    ∃ r, ctrlRegAt? off = some r ∧ (0x01C ≤ off → r ∈ configRegs) := by
  obtain ⟨k, rfl⟩ := Nat.dvd_of_mod_eq_zero ha
  have hk : k < 15 := by omega
  interval_cases k <;> exact ⟨_, rfl, by decide⟩

/-- A 4-byte access to a register is legal (rules R23, R40). -/
theorem Access.legal_of_register {off : BitVec 16} {d : Direction} {r : CtrlReg} (h : ctrlRegAt? off.toNat = some r) :
    Access.legal ⟨off, .four, d⟩ = true := by
  obtain ⟨hlt, ha⟩ := ctrlRegAt?_bounds h
  exact (Access.legal_iff_of_control (by omega)).2 ⟨rfl, ha⟩

theorem legalRead_register {off : Nat} {r : CtrlReg} (s : State) (n : Nat) (h : ctrlRegAt? off = some r) :
    s.legalRead off n = (s, s.readReg r) := by
  have hlt := (ctrlRegAt?_bounds h).1
  rw [State.legalRead, if_pos (by omega), h]

theorem legalWrite_register {off : Nat} {r : CtrlReg} (s : State) (n : Nat) (v : Word) (h : ctrlRegAt? off = some r) :
    s.legalWrite off n v = s.writeReg r v := by
  have hlt := (ctrlRegAt?_bounds h).1
  rw [State.legalWrite, if_pos (by omega), h]

theorem hostAccess_read_register {off : BitVec 16} {r : CtrlReg} (s : State) (h : ctrlRegAt? off.toNat = some r) :
    hostAccess ⟨off, .four, .read⟩ s = s.answer .okay (some (s.readReg r)) := by
  rw [hostAccess_read_of_legal s (Access.legal_of_register h), legalRead_register s _ h]

theorem hostAccess_write_register {off : BitVec 16} {r : CtrlReg} (v : Word) (s : State)
    (h : ctrlRegAt? off.toNat = some r) : hostAccess ⟨off, .four, .write v⟩ s = (s.writeReg r v).answer .okay none := by
  rw [hostAccess_write_of_legal s (Access.legal_of_register h), legalWrite_register s _ v h]

theorem protectedWrite_of_busy {s : State} (t : State) (hb : s.status.busy = true) : s.protectedWrite t = s.setInt accBit :=
  if_pos hb

theorem writeReg_config_of_busy {s : State} {r : CtrlReg} (v : Word) (hb : s.status.busy = true) (hr : r ∈ configRegs) :
    s.writeReg r v = s.setInt accBit := by
  simp only [configRegs, List.mem_cons, List.not_mem_nil, or_false] at hr
  rcases hr with rfl | rfl | rfl | rfl | rfl | rfl | rfl | rfl <;> exact protectedWrite_of_busy _ hb

theorem writeReg_cmd_of_running {s : State} (v : Word) (hs : s.seq ≠ .idle) : s.writeReg .cmd v = s.setInt ovrBit :=
  (s.issue_cases v).elim (fun h => absurd h.1 hs) And.right

/-- Settles O39: one rule per kind of offset, the windows, the configuration registers, CMD and the other registers. -/
theorem busyProtectsTheOperands : Obligations.BusyProtectsTheOperands := by
  intro off z v s hb hs
  refine ⟨fun hw ha => hostAccess_window_of_busy v hb (isWindow_iff.2 hw) ha, ?config, ?cmd, ?other⟩
  case config =>
    intro hlo hhi ha
    obtain ⟨r, hr, hconfig⟩ := ctrlRegAt?_of_lt hhi ha
    refine ⟨?_, r, hr, hostAccess_read_register s hr⟩
    rw [hostAccess_write_register v s hr, writeReg_config_of_busy v hb (hconfig hlo)]
    rfl
  case cmd =>
    rw [hostAccess_write_register (r := .cmd) v s rfl, writeReg_cmd_of_running v hs]
    rfl
  case other =>
    intro hlt ha
    obtain ⟨r, hr, -⟩ := ctrlRegAt?_of_lt (by omega) ha
    exact ⟨r, hr, hostAccess_read_register s hr, hostAccess_write_register v s hr⟩

end Sys2Proof.Machine
end

section
/-! The decoder against the zero-field rule, and the life of a command word from the write of CMD to its first step. -/

namespace Sys2Proof

/-! ### The decoder and the zero-field rule (rules R53, R56, R58) -/

theorem exists_okIf_eq_ok_iff {c : Bool} {i : Instr} : (∃ j, okIf c i = .ok j) ↔ c = true := by
  cases c <;> simp [okIf]

/-- The mask of a row that defines no flag (rule R55), as `~~~0#4` evaluates. -/
theorem flags_and_undefined_of_none (flags : BitVec 4) : flags &&& 15#4 = 0#4 ↔ flags = 0#4 := by
  rw [show 15#4 = BitVec.allOnes 4 from rfl, BitVec.and_allOnes]

/-- The mask of a row that defines FLAGS[0] only (rule R55), as `~~~1#4` evaluates. -/
theorem flags_and_undefined_of_bit0 :
    ∀ flags : BitVec 4, flags &&& 14#4 = 0#4 ↔ flags.extractLsb' 1 3 = 0#3 := by decide

theorem Fields.reservedZero_iff (f : Fields) : f.reservedZero = true ↔ f.res0 = 0#2 ∧ f.res1 = 0#4 := by
  simp [Fields.reservedZero]

theorem decodeFields_of_reservedBits {f : Fields} (h : ¬f.reservedZero = true) :
    decodeFields f = .error .reservedBits :=
  if_pos (by simpa [Fields.reservedZero_iff, or_iff_not_imp_left] using h)

theorem decodeFields_of_no_row {f : Fields} (hres : f.reservedZero = true) (hrow : fieldUse? f.opc = none) :
    decodeFields f = .error .reservedOpcode := by
  obtain ⟨h0, h1⟩ := f.reservedZero_iff.1 hres
  unfold fieldUse? at hrow
  split at hrow <;> cases hrow
  simp [decodeFields, *]

/-- Row by row, the "ok if" condition of rule R58 is the row's zero-field check. -/
theorem decodeFields_ok_iff_admits {f : Fields} {u : FieldUse} (hres : f.reservedZero = true)
    (hrow : fieldUse? f.opc = some u) : (∃ i, decodeFields f = .ok i) ↔ u.admits f = true := by
  obtain ⟨h0, h1⟩ := f.reservedZero_iff.1 hres
  unfold fieldUse? at hrow
  split at hrow <;> cases hrow <;>
    simp [decodeFields, FieldUse.admits, exists_okIf_eq_ok_iff, flags_and_undefined_of_none,
      flags_and_undefined_of_bit0, *]

theorem Fields.wellFormed_of_row {f : Fields} {u : FieldUse} (hres : f.reservedZero = true)
    (hrow : fieldUse? f.opc = some u) : f.wellFormed = u.admits f := by
  rw [Fields.wellFormed, hres, hrow, Bool.true_and]

theorem decodeFields_ok_iff_wellFormed (f : Fields) : (∃ i, decodeFields f = .ok i) ↔ f.wellFormed = true := by
  by_cases hres : f.reservedZero = true
  case neg => simp [decodeFields_of_reservedBits hres, Fields.wellFormed, hres]
  case pos =>
    cases hrow : fieldUse? f.opc with
    | none => simp [decodeFields_of_no_row hres hrow, Fields.wellFormed, hrow]
    | some u => rw [decodeFields_ok_iff_admits hres hrow, Fields.wellFormed_of_row hres hrow]

theorem decode_eq_error_of_not_wellFormed {w : Word} (h : (fieldsOf w).wellFormed = false) : ∃ r, decode w = .error r := by
  cases hd : decode w with
  | error r => exact ⟨r, rfl⟩
  | ok i => exact absurd ((decodeFields_ok_iff_wellFormed _).1 ⟨i, hd⟩) (Bool.eq_false_iff.1 h)

end Sys2Proof

namespace Sys2Proof.Machine

/-! ### The first step of an issued word (rules R59, R97) -/

theorem sequencerStep_of_run {s : State} {w : Word} (h : s.seq = .run w) : sequencerStep s = runWord w s := by
  rw [sequencerStep, h]

theorem runWord_of_legal {w : Word} {i : Instr} (s : State) (h : decode w = .ok i) : runWord w s = exec i s := by
  rw [runWord, h]

theorem runWord_of_illegal {w : Word} {r : Reject} (s : State) (h : decode w = .error r) :
    runWord w s = .next (s.complete .illegalCmd) := by
  rw [runWord, h]

theorem sequencerStep_of_illegal {s : State} {w : Word} {r : Reject} (hs : s.seq = .run w) (h : decode w = .error r) :
    ∃ t, sequencerStep s = .next t ∧ Completed .illegalCmd s t :=
  ⟨_, (sequencerStep_of_run hs).trans (runWord_of_illegal s h), .of_complete _ rfl⟩

/-- Settles O3: the decoder agrees with the zero-field rule on every word, and what it rejects completes with ILLEGAL_CMD. -/
theorem legalWordsAreTheWellFormedOnes : Obligations.LegalWordsAreTheWellFormedOnes := by
  intro w
  refine ⟨decodeFields_ok_iff_wellFormed (fieldsOf w), fun hw s hs => ?_⟩
  obtain ⟨r, hr⟩ := decode_eq_error_of_not_wellFormed hw
  exact sequencerStep_of_illegal hs hr

/-! ### A write of CMD (rule R59) -/

theorem moveStep_write_cmd (s : State) (w : Word) :
    moveStep (.host ⟨0x018#16, .four, .write w⟩) s = .next ((s.issue w).answer .okay none) :=
  congrArg Host.Outcome.next (hostAccess_write_register (r := .cmd) w s rfl)

/-- Settles O7: the two branches of `State.issue`; what an accepted word does next is the rule of its decoding. -/
theorem cmdWriteIssuesOrIsDropped : Obligations.CmdWriteIssuesOrIsDropped := by
  intro s w
  refine ⟨_, moveStep_write_cmd s w, State.answer_reply _ _ _, ?_⟩
  rcases s.issue_cases w with ⟨hidle, he⟩ | ⟨hbusy, he⟩ <;> rw [he]
  case inl =>
    refine ⟨absurd hidle, fun _ => ⟨rfl, rfl, rfl, rfl, ?eq, rfl, rfl, rfl, rfl, fun _ => rfl, fun _ => rfl, fun _ => rfl,
      rfl, rfl, rfl, rfl, fun i hi => ?legal, fun r hr => sequencerStep_of_illegal rfl hr⟩⟩
    case eq => simp [opcOf]
    case legal => exact (sequencerStep_of_run rfl).trans (runWord_of_legal _ hi)
  case inr => exact ⟨fun _ => rfl, fun hidle => absurd hidle hbusy⟩

end Sys2Proof.Machine
end

section
/-! The modular commands of 40_modarith.md: how a command of the family ends, and the Montgomery product. -/

namespace Sys2Proof.Machine

/-! ### How a modular command ends (rules R65, R66, R92) -/

theorem State.modular_of_even {s : State} {rm : RegIx} (rd : RegIx) (f : Nat → Nat) (h : s.opNat rm % 2 = 0) :
    EndsWith .evenModulus s (s.modular rd rm f) := by
  rw [State.modular, if_pos h]
  exact .of_complete _ _

theorem State.modular_of_odd {s : State} {rm : RegIx} (rd : RegIx) (f : Nat → Nat) (h : s.opNat rm % 2 = 1) :
    s.modular rd rm f = s.finish (·.setOp rd (f (s.opNat rm))) :=
  if_neg (by omega)

theorem State.modular_of_abort {s : State} {rm : RegIx} (rd : RegIx) (f : Nat → Nat) (h : s.opNat rm % 2 = 1)
    (ha : s.abortPending = true) : EndsWith .aborted s (s.modular rd rm f) := by
  rw [State.modular_of_odd rd f h]
  exact .of_finish _ ha

/-- A residue modulo OP[rm] lies below the modulus, so it fits the destination (rule R65). -/
theorem State.mod_opNat_lt {s : State} {rm : RegIx} (x : Nat) (h : s.opNat rm % 2 = 1) : x % s.opNat rm < s.opNat rm :=
  Nat.mod_lt _ (Nat.pos_of_ne_zero fun h0 => by simp [h0] at h)

theorem State.modular_of_no_abort {s : State} {rm : RegIx} (rd : RegIx) (g : Nat → Nat) (h : s.opNat rm % 2 = 1)
    (ha : s.abortPending = false) : CommitsOp rd (g (s.opNat rm) % s.opNat rm) s (s.modular rd rm fun m => g m % m) := by
  rw [State.modular_of_odd rd _ h]
  exact .of_finish rd ha ((State.mod_opNat_lt _ h).trans (s.opNat_lt rm))

/-- The three ends of a command whose step is the family's, `g m` being the value it reduces modulo m (rules R66, R92, R65). -/
theorem exec_modular_ends {i : Instr} {s : State} {rd rm : RegIx} (g : Nat → Nat)
    (hexec : exec i s = .next (s.modular rd rm fun m => g m % m)) :
    (s.opNat rm % 2 = 0 → ∃ t, exec i s = .next t ∧ EndsWith .evenModulus s t) ∧
    (s.opNat rm % 2 = 1 → s.abortPending = true → ∃ t, exec i s = .next t ∧ EndsWith .aborted s t) ∧
    (s.opNat rm % 2 = 1 → s.abortPending = false →
      ∃ t, exec i s = .next t ∧ CommitsOp rd (g (s.opNat rm) % s.opNat rm) s t) :=
  ⟨fun h => ⟨_, hexec, State.modular_of_even rd _ h⟩,
    fun h ha => ⟨_, hexec, State.modular_of_abort rd _ h ha⟩,
    fun h ha => ⟨_, hexec, State.modular_of_no_abort rd g h ha⟩⟩

/-- Settles O11: MODRED reduces OP[ra]. -/
theorem modredReducesModuloAnOddModulus : Obligations.ModredReducesModuloAnOddModulus := fun rd ra rm s =>
  ⟨(Laws.TableRow.modred rd ra rm).1, exec_modular_ends (fun _ => s.opNat ra) rfl⟩

/-- Settles O12: MODMUL reduces the exact product. -/
theorem modmulMultipliesModuloAnOddModulus : Obligations.ModmulMultipliesModuloAnOddModulus := fun rd ra rb rm s =>
  ⟨(Laws.TableRow.modmul rd ra rb rm).1, exec_modular_ends (fun _ => s.opNat ra * s.opNat rb) rfl⟩

/-! ### The Montgomery product (rules R67, R70) -/

/-- `montRinv_spec` as a congruence, which m = 1 satisfies too. -/
theorem radix_mul_montRinv_modEq {m : Nat} (ho : m % 2 = 1) : 2 ^ Config.rbits * montRinv m ≡ 1 [MOD m] := by
  rcases Nat.lt_or_ge 1 m with hm | hm
  · exact (montRinv_spec m hm ho).trans (Nat.mod_eq_of_lt hm).symm
  · obtain rfl : m = 1 := by omega
    exact Nat.modEq_one

theorem coprime_radix {m : Nat} (ho : m % 2 = 1) : m.Coprime (2 ^ Config.rbits) :=
  .pow_right _ (Nat.coprime_two_right.2 (Nat.odd_iff.2 ho))

/-- The Montgomery product times the radix is the product (rule R70). -/
theorem montgomeryProduct_mul_radix {m : Nat} (ho : m % 2 = 1) (x : Nat) :
    x * montRinv m % m * 2 ^ Config.rbits ≡ x [MOD m] :=
  calc x * montRinv m % m * 2 ^ Config.rbits
    _ ≡ x * montRinv m * 2 ^ Config.rbits [MOD m] := (Nat.mod_modEq _ _).mul_right _
    _ = x * (2 ^ Config.rbits * montRinv m) := by rw [mul_assoc, mul_comm (montRinv m)]
    _ ≡ x * 1 [MOD m] := (radix_mul_montRinv_modEq ho).mul_left x
    _ = x := mul_one x

/-- The radix has one inverse modulo an odd m, so the Montgomery product is the same whichever is taken (rule R67). -/
theorem montgomeryProduct_eq_of_inverse {m y : Nat} (ho : m % 2 = 1) (x : Nat) (hy : 2 ^ Config.rbits * y ≡ 1 [MOD m]) :
    x * montRinv m % m = x * y % m :=
  have hinv : montRinv m ≡ y [MOD m] :=
    ((radix_mul_montRinv_modEq ho).trans hy.symm).cancel_left_of_coprime (coprime_radix ho)
  hinv.mul_left x

/-- Settles O13: MONTMUL reduces a·b·Rinv_m, which is the Montgomery product of a·b. -/
theorem montmulIsTheMontgomeryProduct : Obligations.MontmulIsTheMontgomeryProduct := by
  intro rd ra rb rm s
  obtain ⟨heven, habort, hcommit⟩ := exec_modular_ends (i := .montmul rd ra rb rm) (s := s)
    (fun m => s.opNat ra * s.opNat rb * montRinv m) rfl
  refine ⟨(Laws.TableRow.montmul rd ra rb rm).1, heven, habort, fun ho ha => ?_⟩
  obtain ⟨t, ht, hv⟩ := hcommit ho ha
  exact ⟨t, _, ht, hv, State.mod_opNat_lt _ ho, montgomeryProduct_mul_radix ho _,
    fun _ hy => montgomeryProduct_eq_of_inverse ho _ hy⟩

end Sys2Proof.Machine
end

section
/-! The commands of 41_rsa.md: the checks of RSAEP in their order, and what RSADP makes of KEYCFG.U. -/

namespace Sys2Proof.Machine

/-! ### RSAEP (rule R74) -/

theorem exec_rsaep_of_even {s : State} (rd ra : RegIx) (h : s.keyN % 2 = 0) :
    exec (.rsaep rd ra) s = .next (s.complete .evenModulus) :=
  congrArg Host.Outcome.next (if_pos h)

theorem exec_rsaep_of_out_of_range {s : State} (rd : RegIx) {ra : RegIx} (ho : s.keyN % 2 = 1)
    (hx : s.keyN ≤ s.opNat ra) : exec (.rsaep rd ra) s = .next (s.complete .outOfRange) :=
  congrArg Host.Outcome.next ((if_neg (by omega)).trans (if_pos hx))

theorem exec_rsaep_of_in_range {s : State} (rd : RegIx) {ra : RegIx} (ho : s.keyN % 2 = 1) (hx : s.opNat ra < s.keyN) :
    exec (.rsaep rd ra) s = .next (s.finish (·.setOp rd (s.opNat ra ^ s.keyExp % s.keyN))) := by
  rw [← modPow_eq]
  exact congrArg Host.Outcome.next ((if_neg (by omega)).trans (if_neg (not_le.2 hx)))

/-- A residue modulo KEY.N fits an integer register (rules R19, R22). -/
theorem State.mod_keyN_lt_radix {s : State} (x : Nat) (hn : 0 < s.keyN) : x % s.keyN < 2 ^ Config.rbits :=
  (Nat.mod_lt x hn).trans (s.keyNat_lt _)

/-- Settles O15: one rule per check, in order; the value committed is below KEY.N. -/
theorem rsaepChecksThenRaisesToExp : Obligations.RsaepChecksThenRaisesToExp := by
  intro rd ra s
  refine ⟨(Laws.TableRow.rsaep rd ra).1, fun he => ⟨_, exec_rsaep_of_even rd ra he, .of_complete _ _⟩,
    fun ho hx => ⟨_, exec_rsaep_of_out_of_range rd ho hx, .of_complete _ _⟩,
    fun ho hx ha => ⟨_, exec_rsaep_of_in_range rd ho hx, .of_finish _ ha⟩,
    fun ho hx ha => ⟨_, exec_rsaep_of_in_range rd ho hx, .of_finish rd ha ?fits⟩⟩
  case fits => exact State.mod_keyN_lt_radix _ (Nat.zero_lt_of_lt hx)

/-! ### KEYCFG.U (rules R31, R76) -/

theorem State.crtConfigBad_iff (s : State) : s.crtConfigBad = true ↔
    s.keycfg.u = 1#3 ∨ s.keycfg.u = 5#3 ∨ s.keycfg.u = 6#3 ∨ s.keycfg.u = 7#3 := by
  have hall : ∀ u : BitVec 3, [1, 5, 6, 7].contains u.toNat = true ↔ u = 1#3 ∨ u = 5#3 ∨ u = 6#3 ∨ u = 7#3 := by decide
  exact hall s.keycfg.u

/-- The eight values of U are the four illegal ones and these. -/
theorem State.crtConfigBad_eq_false_iff (s : State) : s.crtConfigBad = false ↔
    s.keycfg.u = 0#3 ∨ s.keycfg.u = 2#3 ∨ s.keycfg.u = 3#3 ∨ s.keycfg.u = 4#3 := by
  have hall : ∀ u : BitVec 3, [1, 5, 6, 7].contains u.toNat = false ↔ u = 0#3 ∨ u = 2#3 ∨ u = 3#3 ∨ u = 4#3 := by decide
  exact hall s.keycfg.u

@[simp] theorem State.crtPrimes_length (s : State) : s.crtPrimes.length = s.keycfg.u.toNat := by
  simp [State.crtPrimes]

/-! ### The first step of RSADP (rules R75, R76) -/

theorem exec_rsadp_start {s : State} (rd ra : RegIx) (h : ∀ w, s.seq ≠ .waitRng w) :
    exec (.rsadp rd ra) s = .next (s.rsadpStart rd ra) := by
  change execRsadp rd ra s = _
  unfold execRsadp
  split
  case h_4 w hw => exact absurd hw (h w)
  all_goals rfl

theorem State.rsadpStart_of_illegal_u {s : State} (rd ra : RegIx) (h : s.crtConfigBad = true) :
    s.rsadpStart rd ra = s.complete .keyConfig :=
  if_pos h

/-! ### Only an illegal U gives KEY_CONFIG -/

theorem State.complete_errcode (s : State) (c : ErrCode) : (s.complete c).status.errcode = c := rfl

theorem State.finish_errcode_ne_keyConfig (s : State) (f : State → State) :
    (s.finish f).status.errcode ≠ .keyConfig := by
  rcases s.finish_cases f with ⟨-, h⟩ | ⟨-, h⟩ <;> rw [h, State.complete_errcode] <;> decide

theorem State.crtFinish_errcode_ne_keyConfig (s : State) (rd ra : RegIx) (blind : Option (Nat × Nat)) :
    (s.crtFinish rd ra blind).status.errcode ≠ .keyConfig := by
  unfold State.crtFinish
  split
  · exact nofun
  · split
    · exact nofun
    · exact s.finish_errcode_ne_keyConfig _

/-- Past its first check RSADP completes with another code, or asks for a draw and leaves STATUS alone. -/
theorem State.rsadpStart_errcode_ne_keyConfig {s : State} (rd ra : RegIx) (hu : s.crtConfigBad = false)
    (he : s.status.errcode = .noError) : (s.rsadpStart rd ra).status.errcode ≠ .keyConfig := by
  unfold State.rsadpStart
  rw [if_neg (Bool.eq_false_iff.1 hu)]
  split_ifs with heven hrange hnoCrt hprimes hblinds
  · exact nofun
  · exact nofun
  · exact s.finish_errcode_ne_keyConfig _
  · exact nofun
  · rw [State.requestDraw_status, he]
    decide
  · exact s.crtFinish_errcode_ne_keyConfig rd ra none

/-- Settles O16: U alone decides the first check, and every later end has another code. -/
theorem rsadpRejectsIllegalU : Obligations.RsadpRejectsIllegalU := by
  intro rd ra s hseq
  have hexec := exec_rsadp_start rd ra hseq
  refine ⟨fun hu => ?illegal, fun hu he => ⟨s.crtPrimes_length, _, hexec, ?legal⟩⟩
  case illegal =>
    rw [hexec, State.rsadpStart_of_illegal_u rd ra (s.crtConfigBad_iff.2 hu)]
    exact ⟨_, rfl, .of_complete _ _⟩
  case legal => exact State.rsadpStart_errcode_ne_keyConfig rd ra (s.crtConfigBad_eq_false_iff.2 hu) he

end Sys2Proof.Machine
end

section
/-! The octet-string commands of 42_octet.md: how I2OSP and OS2IP end, the bytes one writes and the value the other commits. -/

namespace Sys2Proof.Machine

/-! ### Byte strings and their values (rule R13) -/

/-- Byte j counts from the most significant. -/
theorem i2osp_getElem (x : Nat) {l j : Nat} (hj : j < (i2osp x l).length) :
    (i2osp x l)[j] = BitVec.ofNat 8 (x / 256 ^ (l - 1 - j)) := by
  induction l generalizing j with
  | zero => exact absurd hj (Nat.not_lt_zero j)
  | succ l ih =>
    cases j with
    | zero => rfl
    | succ j =>
      have hexp : l + 1 - 1 - (j + 1) = l - 1 - j := by omega
      rw [hexp]
      exact ih (Nat.lt_of_succ_lt_succ hj)

/-- The value of a range of BUF, byte by byte. -/
theorem os2ip_readBytes (m : Memory) (a l : Nat) :
    os2ip (m.readBytes a l) = ∑ j ∈ Finset.range l, (m.read (a + j)).toNat * 256 ^ (l - 1 - j) := by
  induction l generalizing a with
  | zero => rfl
  | succ l ih =>
    rw [Memory.readBytes, os2ip_cons, Memory.readBytes_length, ih, Finset.sum_range_succ', add_comm]
    congr 1
    refine Finset.sum_congr rfl fun j _ => ?_
    rw [show a + 1 + j = a + (j + 1) by omega, show l + 1 - 1 - (j + 1) = l - 1 - j by omega]

@[simp] theorem State.bytesOf_length (s : State) (r : BufRange) : (s.bytesOf r).length = r.len :=
  s.buf.readBytes_length r.len r.addr

/-- A string of at most 1024 bytes has a value that fits an integer register (rules R7, R19). -/
theorem os2ip_lt_radix {bs : List Byte} (h : bs.length ≤ Config.maxBytes) : os2ip bs < 2 ^ Config.rbits :=
  calc os2ip bs
    _ < 256 ^ bs.length := os2ip_lt bs
    _ = 2 ^ (8 * bs.length) := (pow_mul 2 8 bs.length).symm
    _ ≤ 2 ^ Config.rbits := Nat.pow_le_pow_right Nat.two_pos (Nat.mul_le_mul_left 8 h)

/-! ### The range check both commands begin with (rule R98) -/

theorem BufRange.inBounds_eq_false_iff (r : BufRange) : r.inBounds = false ↔ 4096 < r.addr + r.len := by
  rw [← Bool.not_eq_true, r.inBounds_iff, not_le]

theorem BufRange.ite_of_out_of_bounds {r : BufRange} (bad good : State) (h : 4096 < r.addr + r.len) :
    (if !r.inBounds then bad else good) = bad := by
  rw [r.inBounds_eq_false_iff.2 h]
  rfl

theorem BufRange.ite_of_in_bounds {r : BufRange} (bad good : State) (h : r.addr + r.len ≤ 4096) :
    (if !r.inBounds then bad else good) = good := by
  rw [r.inBounds_iff.2 h]
  rfl

/-! ### A commit to BUF (rules R14, R60) -/

/-- What a commit of a byte string leaves unchanged. -/
theorem State.finish_bufWrite_frame {s t : State} {a : Nat} {bs : List Byte} (h : s.abortPending = false)
    (ht : t = s.finish (·.bufWrite a bs)) :
    Completed .noError s t ∧ OpSame s t ∧ RestSame s t ∧ t.status.eq = s.status.eq ∧ BufSameOutside a bs.length s t := by
  rw [ht, State.finish_of_no_abort _ h]
  exact ⟨.of_complete _ rfl, fun _ => rfl, ⟨fun _ => rfl, rfl, rfl, rfl, rfl, rfl, rfl, rfl, rfl, rfl⟩, rfl,
    fun _ hb => Memory.read_writeBytes_outside bs s.buf a hb⟩

/-- A commit of a byte string puts byte j at a + j. -/
theorem State.read_finish_bufWrite {s : State} {a j : Nat} {bs : List Byte} (h : s.abortPending = false)
    (hwf : s.buf.wf = true) (ha : a + bs.length ≤ 4096) (hj : j < bs.length) :
    (s.finish (·.bufWrite a bs)).buf.read (a + j) = bs[j] := by
  rw [State.finish_of_no_abort _ h]
  exact Memory.read_writeBytes bs a hj ha hwf

/-! ### I2OSP (rule R81) -/

theorem exec_i2osp_of_out_of_bounds {s : State} (ra : RegIx) (h : 4096 < s.args.addrD.toNat + s.args.lenD.toNat) :
    exec (.i2osp ra) s = .next (s.complete .bufBounds) :=
  congrArg Host.Outcome.next (BufRange.ite_of_out_of_bounds _ _ h)

theorem exec_i2osp_of_in_bounds {s : State} (ra : RegIx) (h : s.args.addrD.toNat + s.args.lenD.toNat ≤ 4096) :
    exec (.i2osp ra) s = .next (if 256 ^ s.args.lenD.toNat ≤ s.opNat ra then s.complete .length
      else s.finish (·.bufWrite s.args.addrD.toNat (i2osp (s.opNat ra) s.args.lenD.toNat))) :=
  congrArg Host.Outcome.next (BufRange.ite_of_in_bounds _ _ h)

theorem exec_i2osp_of_too_long {s : State} {ra : RegIx} (hb : s.args.addrD.toNat + s.args.lenD.toNat ≤ 4096)
    (hx : 256 ^ s.args.lenD.toNat ≤ s.opNat ra) : exec (.i2osp ra) s = .next (s.complete .length) := by
  rw [exec_i2osp_of_in_bounds ra hb, if_pos hx]

theorem exec_i2osp_of_fits {s : State} {ra : RegIx} (hb : s.args.addrD.toNat + s.args.lenD.toNat ≤ 4096)
    (hx : s.opNat ra < 256 ^ s.args.lenD.toNat) : exec (.i2osp ra) s =
      .next (s.finish (·.bufWrite s.args.addrD.toNat (i2osp (s.opNat ra) s.args.lenD.toNat))) := by
  rw [exec_i2osp_of_in_bounds ra hb, if_neg (not_le.2 hx)]

/-- Settles O26: one rule per check, in order; the bytes committed are I2OSP's, each read back by its index. -/
theorem i2ospWritesTheBigEndianBytes : Obligations.I2ospWritesTheBigEndianBytes := by
  intro ra s
  refine ⟨(Laws.TableRow.i2osp ra).1, fun hb => ⟨_, exec_i2osp_of_out_of_bounds ra hb, .of_complete _ _⟩,
    fun hb hx => ⟨_, exec_i2osp_of_too_long hb hx, .of_complete _ _⟩,
    fun hb hx ha => ⟨_, exec_i2osp_of_fits hb hx, .of_finish _ ha⟩,
    fun hb hx ha hwf => ⟨_, exec_i2osp_of_fits hb hx, ?commit⟩⟩
  case commit =>
    have hlen := i2osp_length (s.opNat ra) s.args.lenD.toNat
    obtain ⟨hdone, hop, hrest, heq, hout⟩ := State.finish_bufWrite_frame ha rfl
    rw [hlen] at hout
    refine ⟨hdone, hop, hrest, heq, hout, fun j hj => ?_⟩
    rw [State.read_finish_bufWrite ha hwf (by rwa [hlen]) (by rwa [hlen]), i2osp_getElem, BitVec.toNat_ofNat]

/-! ### OS2IP (rule R82) -/

theorem exec_os2ip_of_out_of_bounds {s : State} (rd : RegIx) (h : 4096 < s.args.addrA.toNat + s.args.lenA.toNat) :
    exec (.os2ip rd) s = .next (s.complete .bufBounds) :=
  congrArg Host.Outcome.next (BufRange.ite_of_out_of_bounds _ _ h)

theorem exec_os2ip_of_in_bounds {s : State} (rd : RegIx) (h : s.args.addrA.toNat + s.args.lenA.toNat ≤ 4096) :
    exec (.os2ip rd) s = .next (if 1024 < s.args.lenA.toNat then s.complete .length
      else s.finish (·.setOp rd (os2ip (s.bytesOf s.rangeA)))) :=
  congrArg Host.Outcome.next (BufRange.ite_of_in_bounds _ _ h)

theorem exec_os2ip_of_too_long {s : State} (rd : RegIx) (hb : s.args.addrA.toNat + s.args.lenA.toNat ≤ 4096)
    (hl : 1024 < s.args.lenA.toNat) : exec (.os2ip rd) s = .next (s.complete .length) := by
  rw [exec_os2ip_of_in_bounds rd hb, if_pos hl]

theorem exec_os2ip_of_fits {s : State} (rd : RegIx) (hb : s.args.addrA.toNat + s.args.lenA.toNat ≤ 4096)
    (hl : s.args.lenA.toNat ≤ 1024) :
    exec (.os2ip rd) s = .next (s.finish (·.setOp rd (os2ip (s.bytesOf s.rangeA)))) := by
  rw [exec_os2ip_of_in_bounds rd hb, if_neg (not_lt.2 hl)]

theorem State.os2ip_rangeA_lt_radix {s : State} (hl : s.args.lenA.toNat ≤ 1024) :
    os2ip (s.bytesOf s.rangeA) < 2 ^ Config.rbits :=
  os2ip_lt_radix ((s.bytesOf_length s.rangeA).le.trans hl)

/-- Settles O27: one rule per check, in order; the value committed is the sum over the bytes. -/
theorem os2ipReadsTheBigEndianValue : Obligations.Os2ipReadsTheBigEndianValue := by
  intro rd s
  refine ⟨(Laws.TableRow.os2ip rd).1, fun hb => ⟨_, exec_os2ip_of_out_of_bounds rd hb, .of_complete _ _⟩,
    fun hb hl => ⟨_, exec_os2ip_of_too_long rd hb hl, .of_complete _ _⟩,
    fun hb hl ha => ⟨_, exec_os2ip_of_fits rd hb hl, .of_finish _ ha⟩,
    fun hb hl ha => ⟨_, exec_os2ip_of_fits rd hb hl, ?commit⟩⟩
  case commit =>
    rw [← os2ip_readBytes]
    exact .of_finish rd ha (State.os2ip_rangeA_lt_radix hl)

/-! ### The round trip (rule R83) -/

/-- OS2IP hands the next command the string's value and leaves it BUF and the argument registers. -/
theorem exec_os2ip_hands_on {s : State} (rd : RegIx) (hb : s.args.addrA.toNat + s.args.lenA.toNat ≤ 4096)
    (hl : s.args.lenA.toNat ≤ 1024) (ha : s.abortPending = false) :
    ∃ t, exec (.os2ip rd) s = .next t ∧ t.opNat rd = os2ip (s.bytesOf s.rangeA) ∧ t.buf = s.buf ∧ t.args = s.args ∧
      t.abortPending = false := by
  refine ⟨_, exec_os2ip_of_fits rd hb hl, ?_⟩
  rw [State.finish_of_no_abort _ ha]
  exact ⟨s.opNat_setOp_self rd (State.os2ip_rangeA_lt_radix hl), rfl, rfl, rfl⟩

/-- I2OSP of a string's value, at the string's length, commits the string. -/
theorem exec_i2osp_of_os2ip {t : State} {ra : RegIx} {bs : List Byte} (hx : t.opNat ra = os2ip bs)
    (hl : t.args.lenD.toNat = bs.length) (hb : t.args.addrD.toNat + bs.length ≤ 4096) :
    exec (.i2osp ra) t = .next (t.finish (·.bufWrite t.args.addrD.toNat bs)) := by
  rw [← hl] at hb
  have hfits : t.opNat ra < 256 ^ t.args.lenD.toNat := by
    rw [hx, hl]
    exact os2ip_lt bs
  rw [exec_i2osp_of_fits hb hfits, hx, hl, i2osp_os2ip]

/-- Settles O28: I2OSP commits the string OS2IP read, so each byte of the destination is the source's. -/
theorem octetStringRoundTrip : Obligations.OctetStringRoundTrip := by
  intro r s hwf ha hl hA hD hlen
  obtain ⟨t, hread, hval, hbuf, hargs, hta⟩ := exec_os2ip_hands_on r hA hl ha
  have hbytes : (s.bytesOf s.rangeA).length = s.args.lenA.toNat := s.bytesOf_length s.rangeA
  have hlenD : t.args.lenD.toNat = (s.bytesOf s.rangeA).length := by rw [hargs, hlen, hbytes]
  have hfit : t.args.addrD.toNat + (s.bytesOf s.rangeA).length ≤ 4096 := by rwa [hargs, hbytes]
  refine ⟨t, _, hread, exec_i2osp_of_os2ip hval hlenD hfit, ?code, fun j hj => ?bytes⟩
  case code => rw [State.finish_of_no_abort _ hta, State.complete_errcode]
  case bytes =>
    rw [← hbytes] at hj
    rw [← hbuf] at hwf
    calc _ = (s.bytesOf s.rangeA)[j] := by rw [← hargs, State.read_finish_bufWrite hta hwf hfit hj]
      _ = s.buf.read (s.args.addrA.toNat + j) := s.buf.readBytes_getElem _ _ j hj

end Sys2Proof.Machine
end

section
/-! The system commands of 45_system.md: how NOP completes, and the state both resets leave. -/

namespace Sys2Proof.Machine

/-! ### NOP (rule R91) -/

/-- NOP's row of the encoding table masks no bit, so its word is the row's own. -/
theorem encode_nop : encode .nop = 0x00000000#32 :=
  BitVec.and_allOnes.symm.trans Laws.TableRow.nop.1

/-- A command that commits nothing and has no abort pending completes without error. -/
theorem EndsWith.of_finish_id {s : State} (h : s.abortPending = false) : EndsWith .noError s (s.finish fun t => t) := by
  rw [State.finish_of_no_abort _ h]
  exact .of_complete _ _

/-- Settles O10: NOP's step is `State.finish` without a commit, which has one end per value of abort_pending. -/
theorem nopOnlyCompletes : Obligations.NopOnlyCompletes := fun _ =>
  ⟨encode_nop, fun h => ⟨_, rfl, .of_finish_id h⟩, fun h => ⟨_, rfl, .of_finish _ h⟩⟩

/-! ### Reset (rules R93, R107, R109) -/

/-- Every register and byte of the block is at its reset value: only the counts of answers owed, the last bus answer and the moves
to come may differ from `State.reset` (log entries 1, 2 and 8). -/
def State.Zeroised (t : State) : Prop :=
  ∃ owedHash owedRng answer rest,
    t = { State.reset with hashStale := owedHash, rngStale := owedRng, reply := answer, moves := rest }

theorem State.reset_zeroised : State.reset.Zeroised := ⟨0, 0, none, [], rfl⟩

theorem State.resetBlock_zeroised (s : State) : s.resetBlock.Zeroised := ⟨_, _, _, _, rfl⟩

/-- The bus answer is the environment's, not the block's. -/
theorem State.Zeroised.answer {t : State} (h : t.Zeroised) (r : Resp) (d : Option Word) : (t.answer r d).Zeroised := by
  obtain ⟨_, _, _, _, rfl⟩ := h
  exact ⟨_, _, _, _, rfl⟩

/-- SOFTRST wins over ABORT (rules R26, R93). -/
theorem State.writeCtrl_of_softrst {v : Word} (s : State) (h : v.getLsbD 0 = true) : s.writeCtrl v = s.resetBlock :=
  if_pos h

theorem moveStep_softrst {v : Word} (s : State) (h : v.getLsbD 0 = true) :
    moveStep (.host ⟨0x008#16, .four, .write v⟩) s = .next (s.resetBlock.answer .okay none) := by
  rw [← s.writeCtrl_of_softrst h]
  exact congrArg Host.Outcome.next (hostAccess_write_register (r := .ctrl) v s rfl)

theorem State.Zeroised.opNat {t : State} (h : t.Zeroised) (i : RegIx) : t.opNat i = 0 := by
  have hzero : t.opReg i = 0#8192 := by
    obtain ⟨_, _, _, _, rfl⟩ := h
    exact State.reset_opReg i
  rw [State.opNat, hzero, BitVec.toNat_zero]

theorem State.Zeroised.keyNat {t : State} (h : t.Zeroised) (k : RegIx) : t.keyNat k = 0 := by
  have hzero : t.keyReg k = 0#8192 := by
    obtain ⟨_, _, _, _, rfl⟩ := h
    exact State.reset_keyReg k
  rw [State.keyNat, hzero, BitVec.toNat_zero]

theorem State.Zeroised.buf_read {t : State} (h : t.Zeroised) (a : Nat) : t.buf.read a = 0#8 := by
  obtain ⟨_, _, _, _, rfl⟩ := h
  rfl

theorem State.Zeroised.irq {t : State} (h : t.Zeroised) : t.irq = false := by
  obtain ⟨_, _, _, _, rfl⟩ := h
  exact State.reset_irq

/-- No command runs and nothing of one is left over (rules R35, R93). -/
theorem State.Zeroised.no_command {t : State} (h : t.Zeroised) :
    t.seq = .idle ∧ t.abortPending = false ∧ t.hashReq = none ∧ t.rngReq = none ∧ t.digest = none ∧ t.blind = none := by
  obtain ⟨_, _, _, _, rfl⟩ := h
  exact ⟨rfl, rfl, rfl, rfl, rfl, rfl⟩

/-- A control register shows the host its reset value. -/
theorem State.Zeroised.readReg {t : State} (h : t.Zeroised) (r : CtrlReg) : t.readReg r = State.reset.readReg r := by
  obtain ⟨_, _, _, _, rfl⟩ := h
  cases r <;> rfl

/-- The argument registers read 0 after reset (rule R33). -/
theorem State.reset_readReg_args :
    ∀ r ∈ [CtrlReg.addrA, .lenA, .addrB, .lenB, .addrD, .lenD], State.reset.readReg r = 0#32 := by decide

/-- Every way to reset the block leaves it at its reset values. -/
theorem zeroised_of_reset {v : Word} {s t : State} (hv : v.getLsbD 0 = true)
    (h : moveStep (.host ⟨0x008#16, .four, .write v⟩) s = .next t ∨ moveStep .reset s = .next t ∨ t = State.reset) :
    t.Zeroised := by
  rcases h with hsoft | hinput | rfl
  · rw [moveStep_softrst s hv] at hsoft
    cases hsoft
    exact s.resetBlock_zeroised.answer _ _
  · cases hinput
    exact s.resetBlock_zeroised
  · exact State.reset_zeroised

/-- Settles O49: every way to reset leaves a zeroised block, whose registers read as those of `State.reset`. -/
theorem resetZeroisesEverything : Obligations.ResetZeroisesEverything := by
  intro v s hv t hreset
  have hz : t.Zeroised := zeroised_of_reset hv hreset
  exact ⟨hz.opNat, hz.keyNat, hz.buf_read, hz.readReg .id, hz.readReg .param, hz.readReg .ctrl, hz.readReg .status,
    hz.readReg .intStatus, hz.readReg .intEn, hz.irq, hz.readReg .cmd, hz.readReg .keycfg, hz.readReg .mgfcfg,
    fun r hr => (hz.readReg r).trans (State.reset_readReg_args r hr), hz.no_command⟩

end Sys2Proof.Machine
end

section
/-! The exceptions of 60_exceptions.md: a word that decodes to ILLEGAL, from the write of CMD to its completion. -/

namespace Sys2Proof.Machine

/-- When the next move is the sequencer's, listed or by default (log entry 1), the step is the sequencer's. -/
theorem step_of_sequencerNext {s : State} (h : s.SequencerNext) : step s = sequencerStep s.popMove := by
  unfold step nextMove
  rcases h with hnone | hsome
  · have hm : s.moves = [] := List.head?_eq_none_iff.1 hnone
    have hpop : s.popMove = s := by rw [State.popMove, hm, List.tail_nil, ← hm]
    rw [hm, hpop]
  · obtain ⟨ms, hm⟩ := List.head?_eq_some_iff.1 hsome
    rw [State.popMove, hm]
    rfl

/-- Settles O6: the issue is that of any word (rule R59), and only the step after it depends on the decoder. -/
theorem illegalWordCompletesWithIllegalCmd : Obligations.IllegalWordCompletesWithIllegalCmd := by
  intro s w r hr
  refine ⟨fun hidle => ?issue, fun hnext hrun => ?firstStep⟩
  case issue =>
    obtain ⟨t, ht, -, -, hissue⟩ := cmdWriteIssuesOrIsDropped s w
    obtain ⟨-, -, -, -, heq, -, -, hseq, -, hop, hbuf, hkey, -⟩ := hissue hidle
    exact ⟨t, ht, hseq, heq, hop, hbuf, hkey⟩
  case firstStep =>
    rw [step_of_sequencerNext hnext]
    exact ⟨_, (sequencerStep_of_run (s := s.popMove) hrun).trans (runWord_of_illegal _ hr), .of_complete _ _⟩

end Sys2Proof.Machine
end

section
/-! The decoder and the encoder of 30_encoding.md undo each other. -/

namespace Sys2Proof

/-- The case analysis of rule R58 accepts the fields of every command. -/
theorem decodeFields_instrFields (i : Instr) : decodeFields (instrFields i) = .ok i := by
  cases i with
  | mgf1 x => cases x <;> rfl
  | _ => simp [decodeFields, instrFields, okIf]

/-- Settles O1: packing loses no field, and each command is read back from its fields. -/
theorem encodedCommandDecodesToItself : Obligations.EncodedCommandDecodesToItself := by
  intro i
  rw [decode, encode, fieldsOf_packFields]
  exact decodeFields_instrFields i

theorem okIf_eq_ok_iff {c : Bool} {i j : Instr} : okIf c i = .ok j ↔ c = true ∧ i = j := by
  cases c <;> simp [okIf]

/-- FLAGS of MGF1 is its bit 0 alone when the other bits are 0 (rule R55). -/
theorem flags_eq_of_bit0 : ∀ flags : BitVec 4, flags.extractLsb' 1 3 = 0#3 →
    (if flags.getLsbD 0 then 1#4 else 0#4) = flags := by decide

/-- The fields the case analysis of rule R58 accepts are the command's own: what it does not use is 0. -/
theorem instrFields_of_decodeFields {f : Fields} {i : Instr} (h : decodeFields f = .ok i) : instrFields i = f := by
  obtain ⟨opc, res0, rd, ra, rb, rm, flags, res1⟩ := f
  unfold decodeFields at h
  split at h
  case isTrue => cases h
  case isFalse hres =>
    obtain ⟨h0, h1⟩ : res0 = 0#2 ∧ res1 = 0#4 := by simpa [not_or] using hres
    split at h
    case h_12 => cases h
    case h_11 hc =>
      rw [okIf_eq_ok_iff] at h
      simp only [Bool.and_eq_true, beq_iff_eq] at h
      obtain ⟨⟨⟨⟨⟨h2, h3⟩, h4⟩, h5⟩, h6⟩, rfl⟩ := h
      obtain rfl : opc = 0x20#6 := BitVec.eq_of_toNat_eq hc
      simp only [instrFields, flags_eq_of_bit0 flags h6, *]
    all_goals
      rename_i hc
      rw [okIf_eq_ok_iff] at h
      obtain ⟨hzero, rfl⟩ := h
      simp_all [instrFields, ← BitVec.toNat_inj]

/-- Settles O2: the word is packed from its own fields, which are the command's. -/
theorem decodedWordIsTheEncoding : Obligations.DecodedWordIsTheEncoding := by
  intro w i h
  rw [encode, instrFields_of_decodeFields h, packFields_fieldsOf]

/-- Settles O4: the decoder evaluates on the words written out. -/
theorem specWordsDecode : Obligations.SpecWordsDecode := by
  unfold Obligations.SpecWordsDecode
  decide

end Sys2Proof
end

section
/-! The invariants of every step: what a property of the state must survive to hold along every execution, said once, and the five
invariants of Safety.lean held to it. -/

namespace Sys2Proof.Machine

/-! ### What every step keeps (rules R9, R44) -/

/-- A property of the state that each kind of effect keeps: the list of moves and the bus answer do not matter to it, and a host
access, a step of a running sequencer, an agent's answer and a reset lead from one of its states to another. -/
structure StepInvariant (P : State → Prop) : Prop where
  moves : ∀ {s : State} (ms : List Move), P s → P { s with moves := ms }
  answer : ∀ {s : State} (r : Resp) (d : Option Word), P s → P (s.answer r d)
  bus : ∀ {s t : State}, P s → BusEffect s t → P t
  sequencer : ∀ {s t : State}, P s → s.seq ≠ .idle → SeqEffect s (decode s.cmdWord).toOption t → P t
  hash : ∀ {s t : State}, P s → hashAnswer s = .next t → P t
  rng : ∀ {s : State} (r : Nat), P s → P (rngAnswer r s)
  reset : ∀ {s : State}, P s → P s.resetBlock

theorem StepInvariant.sequencerStep {P : State → Prop} (hP : StepInvariant P) {s t : State} (hs : P s)
    (h : sequencerStep s = .next t) : P t := by
  rcases sequencerStep_inv h with ⟨-, rfl⟩ | ⟨hbusy, he⟩
  · exact hs
  · exact hP.sequencer hs hbusy he

/-- Every step keeps such a property. -/
theorem StepInvariant.step {P : State → Prop} (hP : StepInvariant P) {s t : State} (hs : P s) (h : step s = .next t) :
    P t := by
  have hpop : P s.popMove := hP.moves _ hs
  cases step_effect h with
  | sequencer t h => exact hP.sequencerStep hpop h
  | bus u r d he => exact hP.answer r d (hP.bus hpop he)
  | elsewhere => exact hpop
  | ack b t h => exact hP.sequencerStep (hP.answer _ _ (hP.bus hpop (.ack b))) h
  | hash t h => exact hP.hash hpop h
  | rng r => exact hP.rng r hpop
  | reset => exact hP.reset hpop

/-- Two invariants hold together. -/
theorem StepInvariant.and {P Q : State → Prop} (hP : StepInvariant P) (hQ : StepInvariant Q) :
    StepInvariant fun s => P s ∧ Q s where
  moves ms := And.imp (hP.moves ms) (hQ.moves ms)
  answer r d := And.imp (hP.answer r d) (hQ.answer r d)
  bus := fun ⟨hp, hq⟩ he => ⟨hP.bus hp he, hQ.bus hq he⟩
  sequencer := fun ⟨hp, hq⟩ hs he => ⟨hP.sequencer hp hs he, hQ.sequencer hq hs he⟩
  hash := fun ⟨hp, hq⟩ he => ⟨hP.hash hp he, hQ.hash hq he⟩
  rng r := And.imp (hP.rng r) (hQ.rng r)
  reset := And.imp hP.reset hQ.reset

/-! ### Storage the agents' answers leave alone -/

/-- The hash core's move changes the hash port and the digest at most. -/
theorem hashAnswer_frame {s t : State} (h : hashAnswer s = .next t) :
    t = { s with hashStale := t.hashStale, hashReq := t.hashReq, digest := t.digest } := by
  rcases hashAnswer_cases s with ⟨-, e⟩ | ⟨-, -, e⟩ | ⟨m, -, -, -, e⟩ | ⟨m, -, -, -, e⟩ <;> rw [e] at h <;> cases h <;> rfl

/-- The RNG's move changes the RNG port and the blinding factor at most. -/
theorem rngAnswer_frame (r : Nat) (s : State) : rngAnswer r s =
    { s with rngStale := (rngAnswer r s).rngStale, rngReq := (rngAnswer r s).rngReq, blind := (rngAnswer r s).blind } := by
  rcases rngAnswer_cases r s with ⟨-, e⟩ | ⟨-, e⟩ | ⟨hi, -, -, -, -, e⟩ <;> rw [e]

/-! ### BUF and the reserved slot (rules R21, R22, R108) -/

/-- No host access breaks the canonical form of BUF. -/
theorem BusEffect.buf_wf {s t : State} (he : BusEffect s t) (h : s.buf.wf = true) : t.buf.wf = true := by
  cases he with
  | data _ hd _ => exact hd.canonical h
  | reset => exact Memory.reset_wf
  | _ => exact h

/-- A command writes BUF by BufWrite, if at all. -/
theorem SeqEffect.buf_wf {s t : State} {i : Option Instr} (he : SeqEffect s i t) (h : s.buf.wf = true) : t.buf.wf = true := by
  cases he with
  | buf bs _ _ _ => exact Memory.writeBytes_wf bs _ h
  | block x w j d _ _ _ _ => exact Memory.writeBytes_wf _ _ h
  | _ => exact h

theorem stepInvariant_buf_wf : StepInvariant fun s => s.buf.wf = true where
  moves _ h := h
  answer _ _ h := h
  bus h he := he.buf_wf h
  sequencer h _ he := he.buf_wf h
  hash h he := by rw [hashAnswer_frame he]; exact h
  rng r h := by rw [rngAnswer_frame]; exact h
  reset _ := Memory.reset_wf

/-- Settles O55: BUF is written by the memory's own writes and by reset alone, which keep the form. -/
theorem bufferStaysCanonical : Obligations.BufferStaysCanonical := fun _ _ => stepInvariant_buf_wf.step

/-- No command writes a KEY slot. -/
theorem SeqEffect.key_eq {s t : State} {i : Option Instr} (he : SeqEffect s i t) : t.key = s.key := by
  cases he <;> rfl

theorem BusEffect.keyReg15 {s t : State} (he : BusEffect s t) (h : s.keyReg 15#4 = 0#8192) : t.keyReg 15#4 = 0#8192 := by
  cases he with
  | data _ hd _ => exact hd.slot15.trans h
  | reset => exact State.reset_keyReg 15#4
  | _ => exact h

theorem stepInvariant_keyReg15 : StepInvariant fun s => s.keyReg 15#4 = 0#8192 where
  moves _ h := h
  answer _ _ h := h
  bus h he := he.keyReg15 h
  sequencer h _ he := (State.keyReg_congr he.key_eq 15#4).trans h
  hash h he := by rw [hashAnswer_frame he]; exact h
  rng r h := by rw [rngAnswer_frame]; exact h
  reset _ := State.reset_keyReg 15#4

/-- Settles O56: the KEY window ends below slot 15, and no command writes KEY. -/
theorem reservedSlotStaysZero : Obligations.ReservedSlotStaysZero := fun _ _ => stepInvariant_keyReg15.step

/-! ### STATUS (rules R27, R35) -/

/-- Coherence reads `status` and `seq` alone. -/
theorem State.StatusCoherent.congr {s t : State} (h : s.StatusCoherent) (hst : t.status = s.status) (hseq : t.seq = s.seq) :
    t.StatusCoherent := by
  rw [State.StatusCoherent, hst, hseq]
  exact h

theorem State.complete_statusCoherent (s : State) (c : ErrCode) : (s.complete c).StatusCoherent := by
  simp [State.StatusCoherent]

theorem State.accept_statusCoherent (s : State) (w : Word) : (s.accept w).StatusCoherent := by
  simp [State.StatusCoherent]

theorem State.resetBlock_statusCoherent (s : State) : s.resetBlock.StatusCoherent := by
  simp [State.StatusCoherent, State.reset]

/-- Coherence of a running block speaks of the same STATUS in every busy sequencer state. -/
theorem State.StatusCoherent.of_busy {s t : State} (h : s.StatusCoherent) (hs : s.seq ≠ .idle) (ht : t.seq ≠ .idle)
    (hst : t.status = s.status) : t.StatusCoherent := by
  obtain ⟨hbusy, hrun, herr⟩ := h
  rw [State.StatusCoherent, hst]
  exact ⟨hbusy.trans (iff_of_true hs ht), hrun, herr⟩

theorem BusEffect.statusCoherent {s t : State} (he : BusEffect s t) (h : s.StatusCoherent) : t.StatusCoherent := by
  cases he with
  | issue w _ => exact s.accept_statusCoherent w
  | reset => exact s.resetBlock_statusCoherent
  | data _ hd _ => exact h.congr (by rw [hd.rest]) (by rw [hd.rest])
  | _ => exact h

theorem SeqEffect.statusCoherent {s t : State} {i : Option Instr} (he : SeqEffect s i t) (hs : s.seq ≠ .idle)
    (h : s.StatusCoherent) : t.StatusCoherent := by
  cases he with
  | wait _ => exact h
  | finish c => exact s.complete_statusCoherent c
  | eq e c _ => exact State.complete_statusCoherent _ c
  | op rd v _ _ => exact State.complete_statusCoherent _ _
  | buf bs _ _ _ => exact State.complete_statusCoherent _ _
  | hash m _ _ => exact h.of_busy hs nofun rfl
  | draw _ _ => exact h.of_busy hs nofun rfl
  | block x w j d _ _ _ _ => exact h.of_busy hs nofun rfl

theorem stepInvariant_statusCoherent : StepInvariant State.StatusCoherent where
  moves _ h := h
  answer _ _ h := h
  bus h he := he.statusCoherent h
  sequencer h hs he := he.statusCoherent hs h
  hash h he := by rw [hashAnswer_frame he]; exact h
  rng r h := by rw [rngAnswer_frame]; exact h
  reset _ := State.resetBlock_statusCoherent _

/-- Settles O57: issue and completion set STATUS with `seq`, and nothing else changes whether `seq` is idle. -/
theorem statusStaysCoherent : Obligations.StatusStaysCoherent := fun _ _ => stepInvariant_statusCoherent.step

/-! ### The hidden sequencer state (rules R35, R85, R89, R101) -/

theorem State.SequencerCoherent.idle {s : State} (h : s.SequencerCoherent) (hs : s.seq = .idle) :
    s.abortPending = false ∧ s.mgfBlock = 0 ∧ s.hashReq = none ∧ s.digest = none ∧ s.rngReq = none ∧ s.blind = none := by
  rwa [State.SequencerCoherent, hs] at h

theorem State.SequencerCoherent.run {s : State} (h : s.SequencerCoherent) {w : Word} (hs : s.seq = .run w) :
    s.cmdLast = w ∧ s.hashReq = none ∧ s.digest = none ∧ s.rngReq = none ∧ s.blind = none := by
  rwa [State.SequencerCoherent, hs] at h

theorem State.SequencerCoherent.waitHash {s : State} (h : s.SequencerCoherent) {w : Word} {j : Nat}
    (hs : s.seq = .waitHash w j) :
    s.cmdLast = w ∧ (∃ x, decode w = .ok (.mgf1 x)) ∧ s.mgfBlock = j ∧ (s.hashReq.isSome = true ↔ s.digest = none) ∧
      s.rngReq = none ∧ s.blind = none := by
  rwa [State.SequencerCoherent, hs] at h

theorem State.SequencerCoherent.waitRng {s : State} (h : s.SequencerCoherent) {w : Word} (hs : s.seq = .waitRng w) :
    s.cmdLast = w ∧ (∃ rd ra, decode w = .ok (.rsadp rd ra)) ∧ s.hashReq = none ∧ s.digest = none ∧
      (s.rngReq.isSome = true ↔ s.blind = none) := by
  rwa [State.SequencerCoherent, hs] at h

/-- The latched word is CMD_LAST. -/
theorem State.SequencerCoherent.cmdWord {s : State} (h : s.SequencerCoherent) : s.cmdWord = s.cmdLast := by
  unfold State.cmdWord
  cases hs : s.seq with
  | idle => rfl
  | run w => exact (h.run hs).1.symm
  | waitHash w j => exact (h.waitHash hs).1.symm
  | waitRng w => exact (h.waitRng hs).1.symm

theorem decode_cmdWord {s : State} {i : Instr} (h : (decode s.cmdWord).toOption = some i) : decode s.cmdWord = .ok i := by
  cases hd : decode s.cmdWord with
  | ok j => rw [hd] at h; exact congrArg _ (Option.some.inj h)
  | error r => rw [hd] at h; cases h

/-- A hash request in flight is MGF1's, and its digest has not come. -/
theorem State.SequencerCoherent.of_hashReq {s : State} (h : s.SequencerCoherent) (hr : s.hashReq.isSome = true) :
    ∃ w j, s.seq = .waitHash w j ∧ s.digest = none := by
  cases hs : s.seq with
  | idle =>
    obtain ⟨-, -, hnone, -⟩ := h.idle hs
    simp [hnone] at hr
  | run w =>
    obtain ⟨-, hnone, -⟩ := h.run hs
    simp [hnone] at hr
  | waitHash w j =>
    obtain ⟨-, -, -, hport, -⟩ := h.waitHash hs
    exact ⟨w, j, rfl, hport.1 hr⟩
  | waitRng w =>
    obtain ⟨-, -, hnone, -⟩ := h.waitRng hs
    simp [hnone] at hr

/-- A draw in flight is RSADP's, and its value has not come. -/
theorem State.SequencerCoherent.of_rngReq {s : State} (h : s.SequencerCoherent) (hr : s.rngReq.isSome = true) :
    ∃ w, s.seq = .waitRng w ∧ s.blind = none := by
  cases hs : s.seq with
  | idle =>
    obtain ⟨-, -, -, -, hnone, -⟩ := h.idle hs
    simp [hnone] at hr
  | run w =>
    obtain ⟨-, -, -, hnone, -⟩ := h.run hs
    simp [hnone] at hr
  | waitHash w j =>
    obtain ⟨-, -, -, -, hnone, -⟩ := h.waitHash hs
    simp [hnone] at hr
  | waitRng w =>
    obtain ⟨-, -, -, -, hport⟩ := h.waitRng hs
    exact ⟨w, rfl, hport.1 hr⟩

/-- A command that is not RSADP does not wait for the RNG. -/
theorem State.SequencerCoherent.not_waitRng {s : State} (h : s.SequencerCoherent) {x : Bool}
    (hd : decode s.cmdWord = .ok (.mgf1 x)) (w : Word) : s.seq ≠ .waitRng w := by
  intro hs
  obtain ⟨-, ⟨rd, ra, hw⟩, -⟩ := h.waitRng hs
  rw [State.cmdWord, hs] at hd
  cases hw.symm.trans hd

/-- A command that is not MGF1 does not wait for the hash core. -/
theorem State.SequencerCoherent.not_waitHash {s : State} (h : s.SequencerCoherent) {rd ra : RegIx}
    (hd : decode s.cmdWord = .ok (.rsadp rd ra)) (w : Word) (j : Nat) : s.seq ≠ .waitHash w j := by
  intro hs
  obtain ⟨-, ⟨x, hw⟩, -⟩ := h.waitHash hs
  rw [State.cmdWord, hs] at hd
  cases hw.symm.trans hd

/-- A busy block that does not wait has no request in flight and no answer to use. -/
theorem State.SequencerCoherent.ports_empty {s : State} (h : s.SequencerCoherent) (hs : s.seq ≠ .idle)
    (hH : ∀ w j, s.seq ≠ .waitHash w j) (hR : ∀ w, s.seq ≠ .waitRng w) :
    s.hashReq = none ∧ s.digest = none ∧ s.rngReq = none ∧ s.blind = none := by
  cases hseq : s.seq with
  | idle => exact absurd hseq hs
  | run w => exact (h.run hseq).2
  | waitHash w j => exact absurd hseq (hH w j)
  | waitRng w => exact absurd hseq (hR w)

theorem State.complete_sequencerCoherent (s : State) (c : ErrCode) : (s.complete c).SequencerCoherent :=
  ⟨rfl, rfl, rfl, rfl, rfl, rfl⟩

theorem State.resetBlock_sequencerCoherent (s : State) : s.resetBlock.SequencerCoherent :=
  ⟨rfl, rfl, rfl, rfl, rfl, rfl⟩

theorem State.accept_sequencerCoherent {s : State} (w : Word) (h : s.SequencerCoherent) (hs : s.seq = .idle) :
    (s.accept w).SequencerCoherent := by
  obtain ⟨-, -, hports⟩ := h.idle hs
  exact ⟨rfl, hports⟩

/-- A request for a digest is coherent where the command is MGF1 and nothing is in flight. -/
theorem State.sendHash_sequencerCoherent {s : State} (m : List Byte) {x : Bool} (h : s.SequencerCoherent)
    (hs : s.seq ≠ .idle) (hH : ∀ w j, s.seq ≠ .waitHash w j) (hd : decode s.cmdWord = .ok (.mgf1 x)) :
    (s.sendHash s.mgfBlock m).SequencerCoherent := by
  obtain ⟨-, -, hreq, hblind⟩ := h.ports_empty hs hH (h.not_waitRng hd)
  exact ⟨h.cmdWord.symm, ⟨x, hd⟩, rfl, iff_of_true rfl rfl, hreq, hblind⟩

/-- A request for a draw is coherent where the command is RSADP and nothing is in flight. -/
theorem State.requestDraw_sequencerCoherent {s : State} (hi : Nat) {rd ra : RegIx} (h : s.SequencerCoherent)
    (hs : s.seq ≠ .idle) (hR : ∀ w, s.seq ≠ .waitRng w) (hd : decode s.cmdWord = .ok (.rsadp rd ra)) :
    (s.requestDraw hi).SequencerCoherent := by
  obtain ⟨hreq, hdigest, -, -⟩ := h.ports_empty hs (h.not_waitHash hd) hR
  exact ⟨h.cmdWord.symm, ⟨rd, ra, hd⟩, hreq, hdigest, iff_of_true rfl rfl⟩

/-- Writing a block uses up the digest, and no request is in flight when there is one. -/
theorem State.storeBlock_sequencerCoherent {s : State} (x : Bool) {w : Word} {j : Nat} {d : List Byte}
    (h : s.SequencerCoherent) (hs : s.seq = .waitHash w j) (hdigest : s.digest = some d) :
    (s.storeBlock x j d).SequencerCoherent := by
  obtain ⟨-, -, -, hport, hreq, hblind⟩ := h.waitHash hs
  have hnone : s.hashReq = none := by simpa [hdigest] using hport
  exact ⟨h.cmdWord.symm, hnone, rfl, hreq, hblind⟩

theorem SeqEffect.sequencerCoherent {s t : State} (he : SeqEffect s (decode s.cmdWord).toOption t) (hs : s.seq ≠ .idle)
    (h : s.SequencerCoherent) : t.SequencerCoherent := by
  cases he with
  | wait _ => exact h
  | finish c => exact s.complete_sequencerCoherent c
  | eq e c _ => exact State.complete_sequencerCoherent _ c
  | op rd v _ _ => exact State.complete_sequencerCoherent _ _
  | buf bs _ _ _ => exact State.complete_sequencerCoherent _ _
  | hash m hH hi =>
    obtain ⟨x, hi⟩ := hi
    exact State.sendHash_sequencerCoherent m h hs hH (decode_cmdWord hi)
  | draw hR hi =>
    obtain ⟨rd, ra, hi⟩ := hi
    exact State.requestDraw_sequencerCoherent _ h hs hR (decode_cmdWord hi)
  | block x w j d hw hd _ _ => exact State.storeBlock_sequencerCoherent x h hw hd

/-- An abort is latched in a running block only, whose coherence does not speak of it. -/
theorem State.SequencerCoherent.abort {s : State} (h : s.SequencerCoherent) (hs : s.seq ≠ .idle) :
    ({ s with abortPending := true } : State).SequencerCoherent := by
  unfold State.SequencerCoherent at h ⊢
  cases hseq : s.seq with
  | idle => exact absurd hseq hs
  | _ => simpa only [hseq] using h

/-- Coherence does not speak of storage. -/
theorem State.SequencerCoherent.of_dataOnly {s t : State} (h : s.SequencerCoherent) (hd : DataOnly s t) :
    t.SequencerCoherent := by
  rw [hd.rest]
  exact h

theorem BusEffect.sequencerCoherent {s t : State} (he : BusEffect s t) (h : s.SequencerCoherent) : t.SequencerCoherent := by
  cases he with
  | issue w hs => exact State.accept_sequencerCoherent w h hs
  | abort hs => exact h.abort hs
  | reset => exact s.resetBlock_sequencerCoherent
  | data _ hd _ => exact h.of_dataOnly hd
  | _ => exact h

/-- The hash core answers a request that MGF1 waits for. -/
theorem hashAnswer_sequencerCoherent {s t : State} (h : s.SequencerCoherent) (ht : hashAnswer s = .next t) :
    t.SequencerCoherent := by
  rcases hashAnswer_cases s with ⟨-, e⟩ | ⟨-, -, e⟩ | ⟨m, -, hm, -, e⟩ | ⟨m, -, -, -, e⟩ <;> rw [e] at ht <;> cases ht
  case inr.inr.inl =>
    obtain ⟨w, j, hs, -⟩ := h.of_hashReq (by rw [hm]; rfl)
    obtain ⟨hlast, hword, hj, -, hports⟩ := h.waitHash hs
    unfold State.SequencerCoherent
    simp only [hs]
    exact ⟨hlast, hword, hj, iff_of_false nofun nofun, hports⟩
  all_goals exact h

/-- The RNG answers a draw that RSADP waits for. -/
theorem rngAnswer_sequencerCoherent {s : State} (r : Nat) (h : s.SequencerCoherent) : (rngAnswer r s).SequencerCoherent := by
  rcases rngAnswer_cases r s with ⟨-, e⟩ | ⟨-, e⟩ | ⟨hi, -, hreq, -, -, e⟩ <;> rw [e]
  case inr.inr =>
    obtain ⟨w, hs, -⟩ := h.of_rngReq (by rw [hreq]; rfl)
    obtain ⟨hlast, hword, hhash, hdigest, -⟩ := h.waitRng hs
    unfold State.SequencerCoherent
    simp only [hs]
    exact ⟨hlast, hword, hhash, hdigest, iff_of_false nofun nofun⟩
  all_goals exact h

theorem stepInvariant_sequencerCoherent : StepInvariant State.SequencerCoherent where
  moves _ h := h
  answer _ _ h := h
  bus h he := he.sequencerCoherent h
  sequencer h hs he := he.sequencerCoherent hs h
  hash h he := hashAnswer_sequencerCoherent h he
  rng r h := rngAnswer_sequencerCoherent r h
  reset _ := State.resetBlock_sequencerCoherent _

/-- Settles O58: a request is sent by its own command with nothing in flight, and its answer comes to the wait it belongs to. -/
theorem sequencerStaysCoherent : Obligations.SequencerStaysCoherent := fun _ _ => stepInvariant_sequencerCoherent.step

/-! ### The draw (rule R73) -/

/-- The range of a draw is a function of KEY and KEYCFG. -/
theorem State.crtPrimes_congr {s t : State} (hkey : t.key = s.key) (hcfg : t.keycfg = s.keycfg) :
    t.crtPrimes = s.crtPrimes := by
  have hnat : ∀ k, t.keyNat k = s.keyNat k := fun k => congrArg BitVec.toNat (State.keyReg_congr hkey k)
  simp only [State.crtPrimes, State.keyP, State.keyDx, State.keyCf, hnat, hcfg]

theorem State.DrawInRange.congr {s t : State} (h : s.DrawInRange) (hprimes : t.crtPrimes = s.crtPrimes)
    (hreq : t.rngReq = s.rngReq) (hblind : t.blind = s.blind) : t.DrawInRange := by
  rw [State.DrawInRange, hprimes, hreq, hblind]
  exact h

/-- With no draw in flight and none held there is nothing to keep in range. -/
theorem State.DrawInRange.of_none {s : State} (hreq : s.rngReq = none) (hblind : s.blind = none) : s.DrawInRange := by
  rw [State.DrawInRange, hreq, hblind]
  exact ⟨nofun, nofun⟩

/-- An idle block has no draw. -/
theorem no_draw_of_idle {s : State} (hS : s.StatusCoherent) (hQ : s.SequencerCoherent) (hb : s.status.busy = false) :
    s.rngReq = none ∧ s.blind = none := by
  obtain ⟨hbusy, -⟩ := hS
  have hidle : s.seq = .idle := by
    by_contra hne
    exact Bool.eq_false_iff.1 hb (hbusy.2 hne)
  obtain ⟨-, -, -, -, hports⟩ := hQ.idle hidle
  exact hports

/-- KEY and KEYCFG are written in an idle block only (rule R43), which has no draw. -/
theorem BusEffect.drawInRange {s t : State} (he : BusEffect s t) (hS : s.StatusCoherent) (hQ : s.SequencerCoherent)
    (h : s.DrawInRange) : t.DrawInRange := by
  cases he with
  | config k hl a hb =>
    obtain ⟨hreq, hblind⟩ := no_draw_of_idle hS hQ hb
    exact .of_none hreq hblind
  | data _ hd hb =>
    obtain ⟨hreq, hblind⟩ := no_draw_of_idle hS hQ hb
    rw [hd.rest]
    exact .of_none hreq hblind
  | reset => exact .of_none rfl rfl
  | _ => exact h

theorem SeqEffect.drawInRange {s t : State} {i : Option Instr} (he : SeqEffect s i t) (h : s.DrawInRange) : t.DrawInRange := by
  cases he with
  | draw _ _ =>
    refine ⟨fun hi hhi => ?_, nofun⟩
    rw [State.crtPrimes_congr (s.requestDraw_key _) (s.requestDraw_keycfg _)]
    exact (Option.some.inj hhi).symm
  | wait _ => exact h
  | hash m _ _ => exact h
  | block x w j d _ _ _ _ => exact h
  | _ => exact .of_none rfl rfl

/-- A value that answers the draw lies in the range asked for. -/
theorem rngAnswer_drawInRange {s : State} (r : Nat) (h : s.DrawInRange) : (rngAnswer r s).DrawInRange := by
  rcases rngAnswer_cases r s with ⟨-, e⟩ | ⟨-, e⟩ | ⟨hi, -, hreq, h1, hle, e⟩ <;> rw [e]
  case inr.inr =>
    obtain ⟨hrange, -⟩ := h
    refine ⟨nofun, fun r' hr' => ?_⟩
    obtain rfl : r = r' := Option.some.inj hr'
    exact ⟨h1, hle.trans_eq (hrange hi hreq)⟩
  all_goals exact h

theorem stepInvariant_drawInRange :
    StepInvariant fun s => (s.StatusCoherent ∧ s.SequencerCoherent) ∧ s.DrawInRange :=
  have hQ := stepInvariant_statusCoherent.and stepInvariant_sequencerCoherent
  { moves := fun _ h => h
    answer := fun _ _ h => h
    bus := fun ⟨⟨hS, hC⟩, hD⟩ he => ⟨hQ.bus ⟨hS, hC⟩ he, he.drawInRange hS hC hD⟩
    sequencer := fun ⟨hC, hD⟩ hs he => ⟨hQ.sequencer hC hs he, he.drawInRange hD⟩
    hash := fun ⟨hC, hD⟩ he => ⟨hQ.hash hC he, by rw [hashAnswer_frame he]; exact hD⟩
    rng := fun r ⟨hC, hD⟩ => ⟨hQ.rng r hC, rngAnswer_drawInRange r hD⟩
    reset := fun ⟨hC, _⟩ => ⟨hQ.reset hC, .of_none rfl rfl⟩ }

/-- Settles O59: the range is fixed while a draw is in flight or held, since the operands are. -/
theorem drawStaysInRange : Obligations.DrawStaysInRange := fun _ _ hS hQ hD h =>
  (stepInvariant_drawInRange.step ⟨⟨hS, hQ⟩, hD⟩ h).2

/-- Settles O60: after reset the block is idle, with BUF empty and every slot 0. -/
theorem resetMeetsTheInvariants : Obligations.ResetMeetsTheInvariants :=
  ⟨Memory.reset_wf, State.reset_keyReg 15#4, State.reset.resetBlock_statusCoherent,
    State.reset.resetBlock_sequencerCoherent, .of_none rfl rfl⟩

end Sys2Proof.Machine
end

section
/-! How a step ends: the sequencer runs the decoded command, every return to idle is a completion, and a command without an agent
completes at once. -/

namespace Sys2Proof.Machine

/-! ### The sequencer's step (rules R35, R58, R59) -/

/-- A held word is the running command's. -/
theorem sequencerStep_of_holds {s : State} {w : Word} (h : s.holds? = some w) : sequencerStep s = runWord w s := by
  unfold State.holds? at h
  unfold sequencerStep
  cases hs : s.seq <;> rw [hs] at h <;> cases h <;> rfl

/-- Settles O5: the step is the sequencer's, which runs the held word, and that word is legal. -/
theorem stepRunsTheDecodedCommand : Obligations.StepRunsTheDecodedCommand := by
  intro s w i hnext hholds hd
  rw [step_of_sequencerNext hnext, sequencerStep_of_holds (s := s.popMove) hholds, runWord_of_legal _ hd]
  rfl

/-! ### Completion (rule R101) -/

/-- A step of a running command that returns to idle is one of the completions `SeqEffect` lists. -/
theorem SeqEffect.completed {s t : State} {i : Option Instr} (he : SeqEffect s i t) (hs : s.seq ≠ .idle)
    (ht : t.seq = .idle) : ∃ c, Completed c s t := by
  cases he with
  | wait _ => exact absurd ht hs
  | hash m _ _ => cases ht
  | draw _ _ => cases ht
  | block x w j d _ _ _ _ => cases ht
  | _ => exact ⟨_, .of_complete _ rfl⟩

/-- Settles O8: the other effects of a step leave the block busy. -/
theorem leavingRunIsACompletion : Obligations.LeavingRunIsACompletion := by
  intro s t hs h ht
  rcases sequencerStep_inv h with ⟨hidle, -⟩ | ⟨-, he⟩
  · exact absurd hidle hs
  · exact he.completed hs ht

/-! ### Commands that wait for no agent (log entry 5) -/

/-- The last step of a command completes it, whichever way the abort check goes. -/
theorem State.finish_completed {s : State} {f : State → State} (hf : (f s).intStatus = s.intStatus) :
    ∃ c, Completed c s (s.finish f) := by
  rcases s.finish_cases f with ⟨-, h⟩ | ⟨-, h⟩ <;> rw [h]
  · exact ⟨_, .of_complete _ rfl⟩
  · exact ⟨_, .of_complete _ hf⟩

/-- A check completes the command if both its outcomes do. -/
theorem completed_ite {s t u : State} {p : Prop} [Decidable p] (ht : ∃ c, Completed c s t) (hu : ∃ c, Completed c s u) :
    ∃ c, Completed c s (if p then t else u) := by
  split
  · exact ht
  · exact hu

theorem State.complete_completed (s : State) (c : ErrCode) : ∃ e, Completed e s (s.complete c) :=
  ⟨c, .of_complete c rfl⟩

theorem State.modular_completed (s : State) (rd rm : RegIx) (f : Nat → Nat) :
    ∃ c, Completed c s (s.modular rd rm f) :=
  completed_ite (s.complete_completed _) (State.finish_completed rfl)

/-- Two checks and a commit: the shape of RSAEP, I2OSP and OS2IP. -/
theorem State.completed_of_two_checks {s : State} {p q : Prop} [Decidable p] [Decidable q] {c d : ErrCode}
    {f : State → State} (hf : (f s).intStatus = s.intStatus) :
    ∃ e, Completed e s (if p then s.complete c else if q then s.complete d else s.finish f) :=
  completed_ite (s.complete_completed c) (completed_ite (s.complete_completed d) (State.finish_completed hf))

/-- Settles O9: each of these commands is checks, then a commit under the abort check. -/
theorem commandsWithoutAgentsCompleteInOneStep : Obligations.CommandsWithoutAgentsCompleteInOneStep := by
  intro i s hmgf hrsadp
  have of_completed : ∀ {t}, exec i s = .next t → (∃ c, Completed c s t) → ∃ t c, exec i s = .next t ∧ Completed c s t :=
    fun ht ⟨c, hc⟩ => ⟨_, c, ht, hc⟩
  cases i with
  | nop => exact of_completed rfl (State.finish_completed rfl)
  | modred rd ra rm => exact of_completed rfl (s.modular_completed rd rm _)
  | modmul rd ra rb rm => exact of_completed rfl (s.modular_completed rd rm _)
  | montmul rd ra rb rm => exact of_completed rfl (s.modular_completed rd rm _)
  | modexp rd ra rb rm => exact of_completed rfl (s.modular_completed rd rm _)
  | rsaep rd ra => exact of_completed rfl (State.completed_of_two_checks rfl)
  | rsadp rd ra => exact absurd rfl (hrsadp rd ra)
  | i2osp ra => exact of_completed rfl (State.completed_of_two_checks rfl)
  | os2ip rd => exact of_completed rfl (State.completed_of_two_checks rfl)
  | cmp =>
    exact of_completed rfl (completed_ite ((s.setEq false).complete_completed _) ((s.setEq false).finish_completed rfl))
  | mgf1 x => exact absurd rfl (hmgf x)

end Sys2Proof.Machine
end

section
/-! Frames: what a sequencer step leaves unchanged, and that an error writes nothing. -/

namespace Sys2Proof.Machine

/-! ### What a sequencer step leaves unchanged (rules R21, R22, R45, R54, R57) -/

/-- No command writes KEY, the configuration, CMD or the environment's fields. -/
theorem SeqEffect.restSame {s t : State} {i : Option Instr} (he : SeqEffect s i t) : RestSame s t := by
  cases he <;> exact ⟨fun _ => rfl, rfl, rfl, rfl, rfl, rfl, rfl, rfl, rfl, rfl⟩

/-- A command writes no integer register but its destination. -/
theorem SeqEffect.opReg_eq {s t : State} {i : Instr} (he : SeqEffect s (some i) t) {k : RegIx} (hk : destOf i ≠ some k) :
    t.opReg k = s.opReg k := by
  cases he with
  | op rd v _ hi =>
    have hne : k ≠ rd := fun e => hk (e ▸ hi)
    exact s.opReg_setOp_ne v hne
  | _ => rfl

/-- Only I2OSP and MGF1 write BUF. -/
theorem SeqEffect.bufSame {s t : State} {i : Instr} (he : SeqEffect s (some i) t) (hi : writesBuf i = false) :
    BufSame s t := by
  cases he with
  | buf bs _ _ h =>
    obtain ⟨ra, h⟩ := h
    cases h
    cases hi
  | block x w j d _ _ _ h =>
    cases h
    cases hi
  | _ => exact fun _ => rfl

/-- A block is no longer than its width, whatever the digest. -/
theorem State.mgfBlockBytes_length_le (s : State) (x : Bool) (j : Nat) (d : List Byte) :
    (s.mgfBlockBytes x j d).length ≤ s.mgfWidth j := by
  unfold State.mgfBlockBytes
  split <;> simp [xorBytes]

/-- A block lies inside the destination range; past the end of the mask it is empty. -/
theorem State.storeBlock_bufSameOutside (s : State) (x : Bool) (j : Nat) (d : List Byte) :
    BufSameOutside s.args.addrD.toNat s.args.lenD.toNat s (s.storeBlock x j d) := by
  intro a ha
  rw [State.storeBlock_buf]
  have hlen := s.mgfBlockBytes_length_le x j d
  unfold State.mgfWidth State.rangeD at hlen
  rcases Nat.eq_zero_or_pos (s.mgfBlockBytes x j d).length with h0 | hpos
  · rw [List.length_eq_zero_iff.1 h0]
    rfl
  · refine Memory.read_writeBytes_outside _ _ _ ?_
    unfold State.mgfAddr State.rangeD
    dsimp only at hlen ⊢
    omega

/-- A commit to BUF stays inside the destination range (rule R21). -/
theorem SeqEffect.bufSameOutside {s t : State} {i : Option Instr} (he : SeqEffect s i t) :
    BufSameOutside s.args.addrD.toNat s.args.lenD.toNat s t := by
  cases he with
  | buf bs _ hl _ =>
    intro a ha
    exact Memory.read_writeBytes_outside bs s.buf _ (by rwa [hl])
  | block x w j d _ _ _ _ => exact s.storeBlock_bufSameOutside x j d
  | _ => exact fun _ _ => rfl

/-- Settles O51: each part is a frame of the eight effects of a sequencer step. -/
theorem commandFrame : Obligations.CommandFrame := by
  intro i s t h
  have he := exec_inv h
  exact ⟨he.restSame, fun _ hk => he.opReg_eq hk, he.bufSame, he.bufSameOutside⟩

/-! ### STATUS.EQ (rule R27) -/

/-- Only CMP's completion sets EQ. -/
theorem SeqEffect.eq_same {s t : State} {i : Option Instr} (he : SeqEffect s i t) (hi : i ≠ some .cmp) :
    t.status.eq = s.status.eq := by
  cases he with
  | eq e c h => exact absurd h hi
  | _ => rfl

/-- Settles O52: of the effects of a step, only CMP's completion touches EQ. -/
theorem onlyCmpChangesEq : Obligations.OnlyCmpChangesEq := fun _ _ _ h hi =>
  (exec_inv h).eq_same fun e => hi (Option.some.inj e)

/-! ### Errors (rules R60, R101) -/

/-- ERR is set by a completion with an error code. -/
theorem State.errcode_ne_of_complete_err {s : State} {c : ErrCode} (h : (s.complete c).status.err = true) : c ≠ .noError := by
  simpa using h

/-- A step that sets ERR is a completion without a commit. -/
theorem SeqEffect.writes_nothing_of_err {s t : State} {i : Option Instr} (he : SeqEffect s i t) (hs : s.status.err = false)
    (ht : t.status.err = true) : OpSame s t ∧ BufSame s t ∧ t.status.errcode ≠ .noError := by
  have hstill : ¬s.status.err = true := Bool.eq_false_iff.1 hs
  cases he with
  | finish c => exact ⟨fun _ => rfl, fun _ => rfl, State.errcode_ne_of_complete_err ht⟩
  | eq e c _ => exact ⟨fun _ => rfl, fun _ => rfl, State.errcode_ne_of_complete_err ht⟩
  | op rd v _ _ => exact absurd rfl (State.errcode_ne_of_complete_err ht)
  | buf bs _ _ _ => exact absurd rfl (State.errcode_ne_of_complete_err ht)
  | _ => exact absurd ht hstill

/-- Settles O53: the steps that commit complete without an error. -/
theorem errorsWriteNothing : Obligations.ErrorsWriteNothing := fun _ _ _ hs h ht =>
  (exec_inv h).writes_nothing_of_err hs ht

end Sys2Proof.Machine
end

section
/-! The agents of the block: the answers of the hash core and the RNG, the reset that discards them, and what a host access and the
other agent leave of a running command. -/

namespace Sys2Proof.Machine

/-! ### The hash core and the RNG (rules R73, R85) -/

theorem hashAnswer_of_stale {s : State} (h : 0 < s.hashStale) :
    hashAnswer s = .next { s with hashStale := s.hashStale - 1 } :=
  if_pos h

theorem hashAnswer_of_no_request {s : State} (h0 : s.hashStale = 0) (hr : s.hashReq = none) : hashAnswer s = .next s := by
  simp [hashAnswer, h0, hr]

theorem hashAnswer_of_digest {s : State} {m : List Byte} (h0 : s.hashStale = 0) (hr : s.hashReq = some m)
    (hlen : (Config.hashFn m).length = s.hlen.toNat) :
    hashAnswer s = .next { s with hashReq := none, digest := some (Config.hashFn m) } := by
  simp [hashAnswer, h0, hr, hlen]

theorem hashAnswer_of_wrong_length {s : State} {m : List Byte} (h0 : s.hashStale = 0) (hr : s.hashReq = some m)
    (hlen : (Config.hashFn m).length ≠ s.hlen.toNat) : hashAnswer s = .refused .hashContract := by
  simp [hashAnswer, h0, hr, hlen]

/-- Settles O34: one rule per state of the port. -/
theorem hashCoreAnswersTheRequest : Obligations.HashCoreAnswersTheRequest := by
  intro s
  refine ⟨hashAnswer_of_stale, hashAnswer_of_no_request, fun m h0 hr => ?_⟩
  split
  case isTrue hlen => exact hashAnswer_of_digest h0 hr hlen
  case isFalse hlen => exact hashAnswer_of_wrong_length h0 hr hlen

theorem rngAnswer_of_stale {s : State} (r : Nat) (h : 0 < s.rngStale) :
    rngAnswer r s = { s with rngStale := s.rngStale - 1 } :=
  if_pos h

theorem rngAnswer_of_no_request {s : State} (r : Nat) (h0 : s.rngStale = 0) (hr : s.rngReq = none) : rngAnswer r s = s := by
  simp [rngAnswer, h0, hr]

theorem rngAnswer_of_in_range {s : State} {r hi : Nat} (h0 : s.rngStale = 0) (hr : s.rngReq = some hi)
    (hrange : 1 ≤ r ∧ r ≤ hi) : rngAnswer r s = { s with rngReq := none, blind := some r } := by
  simp [rngAnswer, h0, hr, hrange]

theorem rngAnswer_of_out_of_range {s : State} {r hi : Nat} (h0 : s.rngStale = 0) (hr : s.rngReq = some hi)
    (hrange : ¬(1 ≤ r ∧ r ≤ hi)) : rngAnswer r s = s := by
  simp [rngAnswer, h0, hr, hrange]

/-- The RNG's move always answers a next state. -/
theorem moveStep_rng {r : Nat} {s t : State} (h : rngAnswer r s = t) : moveStep (.rng r) s = .next t :=
  congrArg Host.Outcome.next h

/-- Settles O35: one rule per state of the port. -/
theorem rngAnswersWithinTheRange : Obligations.RngAnswersWithinTheRange := by
  intro r s
  refine ⟨fun h => moveStep_rng (rngAnswer_of_stale r h), fun h0 hr => moveStep_rng (rngAnswer_of_no_request r h0 hr),
    fun hi h0 hr => ?_⟩
  split
  case isTrue hrange => exact moveStep_rng (rngAnswer_of_in_range h0 hr hrange)
  case isFalse hrange => exact moveStep_rng (rngAnswer_of_out_of_range h0 hr hrange)

/-- Settles O50: a zeroised block has no request, so an answer changes the count of answers owed at most. -/
theorem resetDiscardsTheAnswerOwed : Obligations.ResetDiscardsTheAnswerOwed := by
  intro s v r h g hv hh hg
  refine ⟨s.resetBlock, rfl, moveStep_softrst s hv, hh.symm, hg.symm, fun u hu => ?_⟩
  have hports : u.hashReq = none ∧ u.rngReq = none := by rcases hu with rfl | rfl <;> exact ⟨rfl, rfl⟩
  obtain ⟨hhash, hrng⟩ := hports
  exact ⟨fun n _ => hashAnswer_of_stale (Nat.succ_pos n), fun n _ => moveStep_rng (rngAnswer_of_stale r (Nat.succ_pos n)),
    hashAnswer_of_no_request rfl hhash, moveStep_rng (rngAnswer_of_no_request r rfl hrng)⟩

/-! ### A host access while a command runs (rules R43, R48, R59, R92) -/

/-- The access is a write of CTRL with SOFTRST set (rule R93). -/
def Access.SoftReset (a : Access) : Prop := a.offset = 0x008#16 ∧ ∃ v : Word, a.dir = .write v ∧ v.getLsbD 0 = true

/-- What a running command has of its own is unchanged; its operands are, while BUSY = 1. -/
structure RunKept (s t : State) : Prop where
  seq : t.seq = s.seq
  status : t.status = s.status
  cmdLast : t.cmdLast = s.cmdLast
  hashReq : t.hashReq = s.hashReq
  digest : t.digest = s.digest
  rngReq : t.rngReq = s.rngReq
  blind : t.blind = s.blind
  mgfBlock : t.mgfBlock = s.mgfBlock
  operands : s.status.busy = true →
    t.op = s.op ∧ t.key = s.key ∧ t.buf = s.buf ∧ t.keycfg = s.keycfg ∧ t.hlen = s.hlen ∧ t.args = s.args

theorem RunKept.of_dataOnly {s t : State} (hd : DataOnly s t) (hb : s.status.busy = false) : RunKept s t := by
  have hbusy : ¬s.status.busy = true := Bool.eq_false_iff.1 hb
  rw [hd.rest]
  exact ⟨rfl, rfl, rfl, rfl, rfl, rfl, rfl, rfl, fun h => absurd h hbusy⟩

/-- A host access that does not end the command leaves it alone. -/
theorem BusEffect.runKept {s t : State} (he : BusEffect s t) (hs : s.seq ≠ .idle) (ht : t.seq ≠ .idle) : RunKept s t := by
  cases he with
  | issue w hidle => exact absurd hidle hs
  | reset => exact absurd rfl ht
  | data _ hd hb => exact .of_dataOnly hd hb
  | config k hl a hb =>
    exact ⟨rfl, rfl, rfl, rfl, rfl, rfl, rfl, rfl, fun h => absurd h (Bool.eq_false_iff.1 hb)⟩
  | _ => exact ⟨rfl, rfl, rfl, rfl, rfl, rfl, rfl, rfl, fun _ => ⟨rfl, rfl, rfl, rfl, rfl, rfl⟩⟩

theorem State.protectedWrite_seq {s t : State} (h : t.seq = s.seq) : (s.protectedWrite t).seq = s.seq := by
  unfold State.protectedWrite
  split
  · rfl
  · exact h

/-- A write of CTRL without SOFTRST ends no command. -/
theorem State.writeCtrl_seq {v : Word} (s : State) (h : v.getLsbD 0 = false) : (s.writeCtrl v).seq = s.seq := by
  unfold State.writeCtrl
  rw [h, if_neg Bool.false_ne_true]
  split
  · rcases s.abort_cases with ⟨-, e⟩ | ⟨-, e⟩ <;> rw [e]
  · rfl

/-- A write of a register ends no command unless it is a soft reset. -/
theorem State.writeReg_seq {s : State} {r : CtrlReg} {v : Word} (hs : s.seq ≠ .idle)
    (hr : r = .ctrl → v.getLsbD 0 = false) : (s.writeReg r v).seq = s.seq := by
  cases r with
  | ctrl => exact s.writeCtrl_seq (hr rfl)
  | cmd => rw [writeReg_cmd_of_running v hs, State.setInt_seq]
  | id => rfl
  | param => rfl
  | status => rfl
  | intStatus => rfl
  | intEn => rfl
  | _ => exact State.protectedWrite_seq rfl

/-- CTRL stands at 0x008 alone (rule R23). -/
theorem ctrlRegAt?_ctrl {off : Nat} (h : ctrlRegAt? off = some .ctrl) : off = 0x008 := by
  unfold ctrlRegAt? at h
  split at h <;> cases h
  rfl

theorem State.legalWrite_seq {s : State} {off : Nat} {v : Word} (n : Nat) (hs : s.seq ≠ .idle)
    (hr : off = 0x008 → v.getLsbD 0 = false) : (s.legalWrite off n v).seq = s.seq := by
  unfold State.legalWrite
  split
  · split
    · rfl
    · exact State.writeReg_seq hs fun e => hr (ctrlRegAt?_ctrl (e ▸ ‹_›))
  · split
    · rfl
    · rw [(writeLanes_dataOnly s off v n).rest]

theorem State.legalRead_seq (s : State) (off n : Nat) : (s.legalRead off n).1.seq = s.seq := by
  unfold State.legalRead
  split
  · split <;> rfl
  · split <;> rfl

/-- No host access but a soft reset ends a running command. -/
theorem hostAccess_seq {a : Access} {s : State} (hs : s.seq ≠ .idle) (ha : ¬a.SoftReset) : (hostAccess a s).seq = s.seq := by
  obtain ⟨off, z, dir⟩ := a
  cases dir with
  | read =>
    by_cases hl : Access.legal ⟨off, z, .read⟩ = true
    · rw [hostAccess_read_of_legal s hl]
      exact s.legalRead_seq _ _
    · rw [hostAccess_read_of_illegal s hl, State.answer_seq]
  | write v =>
    by_cases hl : Access.legal ⟨off, z, .write v⟩ = true
    · rw [hostAccess_write_of_legal s hl]
      refine State.legalWrite_seq z.bytes hs fun hoff => Bool.eq_false_iff.2 fun hv => ha ⟨?_, v, rfl, hv⟩
      exact BitVec.eq_of_toNat_eq hoff
    · rw [hostAccess_write_of_illegal s hl, State.answer_seq]

/-- No host access but a soft reset disturbs a running command. -/
theorem hostAccess_runKept {a : Access} {s : State} (hs : s.seq ≠ .idle) (ha : ¬a.SoftReset) : RunKept s (hostAccess a s) := by
  have hseq := hostAccess_seq hs ha
  obtain ⟨t, r, d, e, he⟩ := hostAccess_effect a s
  rw [e] at hseq ⊢
  have hkept := he.runKept hs (hseq.trans_ne hs)
  exact ⟨hkept.seq, hkept.status, hkept.cmdLast, hkept.hashReq, hkept.digest, hkept.rngReq, hkept.blind, hkept.mgfBlock,
    hkept.operands⟩

/-- An access that is none of the SOFTRST writes of CTRL. -/
theorem Access.not_softReset {a : Access}
    (h : ∀ z v, v.getLsbD 0 = true → a ≠ ⟨0x008#16, z, .write v⟩) : ¬a.SoftReset := by
  rintro ⟨hoff, v, hdir, hv⟩
  refine h a.size v hv ?_
  rw [← hoff, ← hdir]

/-- Settles O54: the access leaves the command and, the block being busy, its operands. -/
theorem hostCannotDisturbARunningCommand : Obligations.HostCannotDisturbARunningCommand := by
  rintro a s hb hs ha t rfl
  have hkept := hostAccess_runKept hs (Access.not_softReset ha)
  obtain ⟨hop, hkey, hbuf, hcfg, hhlen, hargs⟩ := hkept.operands hb
  exact ⟨hop, hkey, hbuf, hcfg, hhlen, hargs, hkept.cmdLast, hkept.seq, hkept.status, hkept.hashReq, hkept.digest,
    hkept.rngReq, hkept.blind, hkept.mgfBlock⟩

/-! ### What ends a wait (rules R92, R112) -/

/-- A request to the hash core or a draw is in flight. -/
def State.Waiting (s : State) : Prop := s.hashReq.isSome = true ∨ s.rngReq.isSome = true

theorem State.Waiting.seq_ne_idle {s : State} (hw : s.Waiting) (hQ : s.SequencerCoherent) : s.seq ≠ .idle := by
  rcases hw with hhash | hrng
  · obtain ⟨w, j, hs, -⟩ := hQ.of_hashReq hhash
    rw [hs]
    exact nofun
  · obtain ⟨w, hs, -⟩ := hQ.of_rngReq hrng
    rw [hs]
    exact nofun

theorem exec_mgf1_of_no_digest {s : State} {w : Word} {j : Nat} (x : Bool) (hs : s.seq = .waitHash w j)
    (hd : s.digest = none) : exec (.mgf1 x) s = .next s := by
  simp [exec, execMgf1, State.mgfResume, hs, hd]

theorem exec_rsadp_of_no_draw {s : State} {w : Word} (rd ra : RegIx) (hs : s.seq = .waitRng w)
    (hb : s.blind = none) : exec (.rsadp rd ra) s = .next s := by
  simp [exec, execRsadp, State.rsadpResume, hs, hb]

/-- The sequencer changes nothing while its request is unanswered (rule R112). -/
theorem sequencerStep_of_waiting {s : State} (hw : s.Waiting) (hQ : s.SequencerCoherent) : sequencerStep s = .next s := by
  rw [sequencerStep_busy (hw.seq_ne_idle hQ), State.cmdWord]
  rcases hw with hhash | hrng
  · obtain ⟨w, j, hs, hd⟩ := hQ.of_hashReq hhash
    obtain ⟨-, ⟨x, hx⟩, -⟩ := hQ.waitHash hs
    simp only [hs]
    rw [runWord_of_legal s hx, exec_mgf1_of_no_digest x hs hd]
  · obtain ⟨w, hs, hb⟩ := hQ.of_rngReq hrng
    obtain ⟨-, ⟨rd, ra, hx⟩, -⟩ := hQ.waitRng hs
    simp only [hs]
    rw [runWord_of_legal s hx, exec_rsadp_of_no_draw rd ra hs hb]

/-- An in-window platform access that is a soft reset is one at BASE + 0x008 (rule R8). -/
theorem platform_not_softReset {addr : Nat} {z : Size} {dir : Direction}
    (hin : Config.base ≤ addr ∧ addr < Config.base + 0x10000)
    (h : ∀ z' v, v.getLsbD 0 = true → Move.platform addr z dir ≠ .platform (Config.base + 0x008) z' (.write v)) :
    ¬Access.SoftReset ⟨BitVec.ofNat 16 (addr - Config.base), z, dir⟩ := by
  rintro ⟨hoff, v, hdir, hv⟩
  have haddr : addr = Config.base + 0x008 := by
    have := congrArg BitVec.toNat hoff
    simp only [BitVec.toNat_ofNat] at this
    omega
  obtain rfl : dir = .write v := hdir
  exact h z v hv (by rw [haddr])

/-- Settles O36: the sequencer waits, a host access leaves a running command alone, and the agent that is not asked has at most an
old answer to give. -/
theorem onlyTheAgentOrAResetEndsAWait : Obligations.OnlyTheAgentOrAResetEndsAWait := by
  intro m s t hQ hw h hhash hrng hreset hsoft
  have hs : s.seq ≠ .idle := State.Waiting.seq_ne_idle hw hQ
  have of_kept : ∀ {u}, RunKept s u → u.seq = s.seq ∧ u.hashReq = s.hashReq ∧ u.rngReq = s.rngReq ∧ u.status = s.status :=
    fun hk => ⟨hk.seq, hk.hashReq, hk.rngReq, hk.status⟩
  cases m with
  | sequencer =>
    cases (sequencerStep_of_waiting hw hQ).symm.trans h
    exact ⟨rfl, rfl, rfl, rfl⟩
  | host a =>
    cases h
    exact of_kept (hostAccess_runKept hs (Access.not_softReset fun z v hv e => (hsoft z v hv).1 (congrArg _ e)))
  | platform addr z dir =>
    cases h
    unfold platformAccess
    split
    · exact of_kept (hostAccess_runKept hs (platform_not_softReset ‹_› fun z' v hv => (hsoft z' v hv).2))
    · exact ⟨rfl, rfl, rfl, rfl⟩
  | ackWithSequencer v =>
    have hwait := sequencerStep_of_waiting (s := (s.clearInt (v.setWidth 4)).answer .okay none) hw hQ
    rw [← ackAccess_eq] at hwait
    cases hwait.symm.trans h
    rw [ackAccess_eq]
    exact ⟨rfl, rfl, rfl, rfl⟩
  | hashCore =>
    have hnone : s.hashReq = none := Option.not_isSome_iff_eq_none.1 fun hr => hhash hr rfl
    rcases hashAnswer_cases s with ⟨-, e⟩ | ⟨-, -, e⟩ | ⟨m, -, hm, -⟩ | ⟨m, -, hm, -⟩
    · cases e.symm.trans h
      exact ⟨rfl, rfl, rfl, rfl⟩
    · cases e.symm.trans h
      exact ⟨rfl, rfl, rfl, rfl⟩
    · cases hnone.symm.trans hm
    · cases hnone.symm.trans hm
  | rng r =>
    have hnone : s.rngReq = none := Option.not_isSome_iff_eq_none.1 fun hr => hrng hr r rfl
    cases h
    rcases rngAnswer_cases r s with ⟨-, e⟩ | ⟨-, e⟩ | ⟨hi, -, hm, -⟩
    · rw [e]
      exact ⟨rfl, rfl, rfl, rfl⟩
    · rw [e]
      exact ⟨rfl, rfl, rfl, rfl⟩
    · cases hnone.symm.trans hm
  | reset => exact absurd rfl hreset

end Sys2Proof.Machine
end

section
/-! The host bus of an idle block: its control registers, the windows and the bytes of a slot. -/

namespace Sys2Proof.Machine

/-! ### Control registers (rules R23 to R33) -/

theorem protectedWrite_of_idle {s : State} (t : State) (hb : s.status.busy = false) : s.protectedWrite t = t :=
  if_neg (Bool.eq_false_iff.1 hb)

/-- A write of a protected register of an idle block is not dropped. -/
theorem hostAccess_write_config {off : BitVec 16} {r : CtrlReg} {v : Word} {s t : State} (hb : s.status.busy = false)
    (h : ctrlRegAt? off.toNat = some r) (hw : s.writeReg r v = s.protectedWrite t) :
    hostAccess ⟨off, .four, .write v⟩ s = t.answer .okay none := by
  rw [hostAccess_write_register v s h, hw, protectedWrite_of_idle t hb]

/-- A register reads back through the mask of its unreserved bits if the state after the write shows that value. -/
theorem hostAccess_readback {off : BitVec 16} {r : CtrlReg} {v mask : Word} {s t : State}
    (h : ctrlRegAt? off.toNat = some r) (hw : hostAccess ⟨off, .four, .write v⟩ s = t.answer .okay none)
    (hr : t.readReg r = v &&& mask) :
    (hostAccess ⟨off, .four, .read⟩ (hostAccess ⟨off, .four, .write v⟩ s)).reply = some ⟨.okay, some (v &&& mask)⟩ := by
  have hans : (t.answer .okay none).readReg r = t.readReg r := by cases r <;> rfl
  rw [hw, hostAccess_read_register _ h, State.answer_reply, hans, hr]

/-- A field of k bits stores the low k bits of the word and reads them back, reserved bits 0. -/
theorem setWidth_setWidth_eq_and (v : Word) {k : Nat} (hk : k ≤ 32) :
    (v.setWidth k).setWidth 32 = v &&& BitVec.ofNat 32 (2 ^ k - 1) := by
  apply BitVec.eq_of_toNat_eq
  have hpow : 2 ^ k ≤ 2 ^ 32 := Nat.pow_le_pow_right Nat.two_pos hk
  have hmask : 2 ^ k - 1 < 2 ^ 32 := by omega
  have hlow : v.toNat % 2 ^ k < 2 ^ 32 := (Nat.mod_lt _ (Nat.two_pow_pos k)).trans_le hpow
  rw [BitVec.toNat_setWidth, BitVec.toNat_setWidth, BitVec.toNat_and, BitVec.toNat_ofNat, Nat.mod_eq_of_lt hmask,
    Nat.mod_eq_of_lt hlow, Nat.and_two_pow_sub_one_eq_mod]

/-- A write of INT_EN or of a configuration register of an idle block changes that register alone (rules R29, R31 to R33). -/
theorem hostAccess_write_registers {s : State} (v : Word) (hb : s.status.busy = false) :
    ∀ q ∈ [(0x014#16, { s with intEn := v.setWidth 4 }),
        (0x01C#16, { s with keycfg := ⟨v.setWidth 3, v.getLsbD 8, v.getLsbD 9⟩ }), (0x020#16, { s with hlen := v.setWidth 7 }),
        (0x024#16, { s with args.addrA := v.setWidth 16 }), (0x028#16, { s with args.lenA := v.setWidth 16 }),
        (0x02C#16, { s with args.addrB := v.setWidth 16 }), (0x030#16, { s with args.lenB := v.setWidth 16 }),
        (0x034#16, { s with args.addrD := v.setWidth 16 }), (0x038#16, { s with args.lenD := v.setWidth 16 })],
      hostAccess ⟨q.1, .four, .write v⟩ s = q.2.answer .okay none := by
  simp only [List.forall_mem_cons]
  exact ⟨hostAccess_write_register (r := .intEn) v s rfl, hostAccess_write_config (r := .keycfg) hb rfl rfl,
    hostAccess_write_config (r := .mgfcfg) hb rfl rfl, hostAccess_write_config (r := .addrA) hb rfl rfl,
    hostAccess_write_config (r := .lenA) hb rfl rfl, hostAccess_write_config (r := .addrB) hb rfl rfl,
    hostAccess_write_config (r := .lenB) hb rfl rfl, hostAccess_write_config (r := .addrD) hb rfl rfl,
    hostAccess_write_config (r := .lenD) hb rfl rfl, List.forall_mem_nil _⟩

/-- Settles O43: each offset names its register, and an idle block takes every write of an unreserved bit. -/
theorem configurationReadsBack : Obligations.ConfigurationReadsBack := by
  intro v s hb
  have hwrites := hostAccess_write_registers v hb
  refine ⟨?reads, ?readOnly, hwrites, ?readback⟩
  case reads =>
    simp only [List.forall_mem_cons, ← State.readReg_keycfg]
    exact ⟨hostAccess_read_register (r := .id) s rfl, hostAccess_read_register (r := .param) s rfl,
      hostAccess_read_register (r := .ctrl) s rfl, hostAccess_read_register (r := .intStatus) s rfl,
      hostAccess_read_register (r := .intEn) s rfl, hostAccess_read_register (r := .cmd) s rfl,
      hostAccess_read_register (r := .keycfg) s rfl, hostAccess_read_register (r := .mgfcfg) s rfl,
      hostAccess_read_register (r := .addrA) s rfl, hostAccess_read_register (r := .lenA) s rfl,
      hostAccess_read_register (r := .addrB) s rfl, hostAccess_read_register (r := .lenB) s rfl,
      hostAccess_read_register (r := .addrD) s rfl, hostAccess_read_register (r := .lenD) s rfl, List.forall_mem_nil _⟩
  case readOnly =>
    simp only [List.forall_mem_cons]
    exact ⟨hostAccess_write_register (r := .id) v s rfl, hostAccess_write_register (r := .param) v s rfl,
      hostAccess_write_register (r := .status) v s rfl, List.forall_mem_nil _⟩
  case readback =>
    simp only [List.forall_mem_cons] at hwrites ⊢
    obtain ⟨hen, hkey, hmgf, haA, hlA, haB, hlB, haD, hlD, -⟩ := hwrites
    have h4 := setWidth_setWidth_eq_and v (k := 4) (by decide)
    have h7 := setWidth_setWidth_eq_and v (k := 7) (by decide)
    have h16 := setWidth_setWidth_eq_and v (k := 16) (by decide)
    exact ⟨hostAccess_readback (r := .intEn) rfl hen h4,
      hostAccess_readback (r := .keycfg) rfl hkey ((State.readReg_keycfg _).trans (keycfg_readback v)),
      hostAccess_readback (r := .mgfcfg) rfl hmgf h7, hostAccess_readback (r := .addrA) rfl haA h16,
      hostAccess_readback (r := .lenA) rfl hlA h16, hostAccess_readback (r := .addrB) rfl haB h16,
      hostAccess_readback (r := .lenB) rfl hlB h16, hostAccess_readback (r := .addrD) rfl haD h16,
      hostAccess_readback (r := .lenD) rfl hlD h16, List.forall_mem_nil _⟩

/-! ### STATUS (rules R27, R96) -/

/-- The fields of STATUS at their bits. -/
theorem Status.word_fields (t : Status) :
    t.word.getLsbD 0 = t.busy ∧ t.word.getLsbD 1 = t.done ∧ t.word.getLsbD 2 = t.err ∧ t.word.getLsbD 3 = t.eq ∧
      t.word.extractLsb' 4 4 = 0#4 ∧ t.word.extractLsb' 12 20 = 0#20 ∧ t.word.extractLsb' 8 4 = t.errcode.code := by
  obtain ⟨busy, done, err, eq, code⟩ := t
  unfold Status.word
  generalize code.code = c
  dsimp only
  clear code
  revert c busy done err eq
  decide

/-- The codes of rule R96. -/
theorem ErrCode.code_table :
    ∀ q ∈ [(ErrCode.noError, 0x0#4), (.illegalCmd, 0x1#4), (.outOfRange, 0x2#4), (.length, 0x3#4), (.evenModulus, 0x4#4),
        (.keyConfig, 0x5#4), (.bufBounds, 0x6#4), (.bufOverlap, 0x7#4), (.hashConfig, 0x8#4), (.maskTooLong, 0x9#4),
        (.keyInvalid, 0xA#4), (.aborted, 0xB#4)], q.1.code = q.2 := by decide

/-- Settles O45: the word read is `Status.word`, whose fields stand at their bits. -/
theorem statusReadsItsFields : Obligations.StatusReadsItsFields := by
  intro s
  obtain ⟨hbusy, hdone, herr, heq, hlow, hhigh, hcode⟩ := s.status.word_fields
  refine ⟨s.status.word, hostAccess_read_register (r := .status) s rfl, hbusy, hdone, herr, heq, hlow, hhigh, ?_⟩
  intro q hq he
  rw [hcode, he, ErrCode.code_table q hq]

/-! ### CTRL.ABORT (rules R26, R92) -/

theorem State.abort_of_idle {s : State} (h : s.seq = .idle) : s.abort = s :=
  s.abort_cases.elim And.right fun hn => absurd h hn.1

theorem State.abort_of_running {s : State} (h : s.seq ≠ .idle) : s.abort = { s with abortPending := true } :=
  s.abort_cases.elim (fun hi => absurd hi.1 h) And.right

theorem State.writeCtrl_of_abort {v : Word} (s : State) (h0 : v.getLsbD 0 = false) (h1 : v.getLsbD 1 = true) :
    s.writeCtrl v = s.abort :=
  (if_neg (Bool.eq_false_iff.1 h0)).trans (if_pos h1)

theorem State.writeCtrl_of_zeros {v : Word} (s : State) (h0 : v.getLsbD 0 = false) (h1 : v.getLsbD 1 = false) :
    s.writeCtrl v = s :=
  (if_neg (Bool.eq_false_iff.1 h0)).trans (if_neg (Bool.eq_false_iff.1 h1))

theorem hostAccess_write_ctrl (v : Word) (s : State) :
    hostAccess ⟨0x008#16, .four, .write v⟩ s = (s.writeCtrl v).answer .okay none :=
  hostAccess_write_register (r := .ctrl) v s rfl

/-- Settles O48: a write of CTRL without SOFTRST is `State.abort` or nothing. -/
theorem abortIsLatchedWhileBusy : Obligations.AbortIsLatchedWhileBusy := by
  intro v s h0
  refine ⟨fun h1 hs => ?_, fun h1 hs => ?_, fun h1 => ?_⟩
  · rw [hostAccess_write_ctrl, s.writeCtrl_of_abort h0 h1, State.abort_of_running hs]
    rfl
  · rw [hostAccess_write_ctrl, s.writeCtrl_of_abort h0 h1, State.abort_of_idle hs]
    rfl
  · rw [hostAccess_write_ctrl, s.writeCtrl_of_zeros h0 h1]
    rfl

/-! ### INT_STATUS (rules R28, R101, R103) -/

/-- Write-1-to-clear, bit by bit. -/
theorem State.clearInt_getLsbD (s : State) (v : Word) {b : Nat} (hb : b < 4) :
    (s.clearInt (v.setWidth 4)).intStatus.getLsbD b = (s.intStatus.getLsbD b && !v.getLsbD b) := by
  simp [hb]

/-- A step that does not complete the command leaves INT_STATUS alone. -/
theorem SeqEffect.intStatus_eq {s t : State} {i : Option Instr} (he : SeqEffect s i t) (ht : t.seq ≠ .idle) :
    t.intStatus = s.intStatus := by
  cases he with
  | wait _ => rfl
  | hash m _ _ => rfl
  | draw _ _ => rfl
  | block x w j d _ _ _ _ => rfl
  | _ => exact absurd rfl ht

/-- A completion sets DONE_I, with an error ERR_I, and nothing else. -/
theorem Completed.intStatus_bits {c : ErrCode} {s t : State} (h : Completed c s t) :
    t.intStatus.getLsbD 0 = true ∧ t.intStatus.getLsbD 1 = (t.status.err || s.intStatus.getLsbD 1) ∧
      ∀ b, 2 ≤ b → b < 4 → t.intStatus.getLsbD b = s.intStatus.getLsbD b := by
  obtain ⟨-, -, herr, -, hint, -⟩ := h
  rw [hint]
  by_cases hc : c = .noError
  · have hfalse : t.status.err = false := Bool.eq_false_iff.2 fun he => herr.1 he hc
    rw [if_pos hc, hfalse]
    refine ⟨by simp, by simp, fun b h2 h4 => ?_⟩
    interval_cases b <;> simp
  · rw [if_neg hc, herr.2 hc]
    refine ⟨by simp, by simp, fun b h2 h4 => ?_⟩
    interval_cases b <;> simp

/-- Settles O46: the clear comes first, and the sequencer's step adds what its completion sets. -/
theorem intStatusClearsOnWriteOne : Obligations.IntStatusClearsOnWriteOne := by
  intro v s
  constructor
  · have hw : moveStep (.host ⟨0x010#16, .four, .write v⟩) s = .next ((s.clearInt (v.setWidth 4)).answer .okay none) :=
      congrArg _ (ackAccess_eq v s)
    exact ⟨_, hw, fun b hb => s.clearInt_getLsbD v hb, rfl⟩
  · intro t h
    have h' : sequencerStep ((s.clearInt (v.setWidth 4)).answer .okay none) = .next t := by
      rw [← ackAccess_eq]
      exact h
    rcases sequencerStep_inv h' with ⟨hidle, rfl⟩ | ⟨hbusy, he⟩
    · rw [if_neg fun hn => hn.1 hidle]
      exact fun b hb => s.clearInt_getLsbD v hb
    · by_cases ht : t.seq = .idle
      · rw [if_pos ⟨hbusy, ht⟩]
        obtain ⟨c, hc⟩ := he.completed hbusy ht
        obtain ⟨h0, h1, h23⟩ := hc.intStatus_bits
        refine ⟨h0, ?_, fun b h2 h4 => ?_⟩
        · rw [← s.clearInt_getLsbD v (by decide : 1 < 4)]
          exact h1
        · rw [← s.clearInt_getLsbD v h4]
          exact h23 b h2 h4
      · rw [if_neg fun hn => ht hn.2, he.intStatus_eq ht]
        exact fun b hb => s.clearInt_getLsbD v hb

/-! ### Reads (rule R42) -/

/-- A legal read sets ACC_I in a window of a busy block, and otherwise changes nothing. -/
theorem State.legalRead_state (s : State) (off n : Nat) :
    (s.legalRead off n).1 = s ∨
      (s.status.busy = true ∧ isWindow off = true ∧ (s.legalRead off n).1 = s.setInt accBit) := by
  unfold State.legalRead
  split
  · split <;> exact .inl rfl
  · split
    case isTrue h =>
      obtain ⟨hw, hb⟩ := Bool.and_eq_true_iff.1 h
      exact .inr ⟨hb, hw, rfl⟩
    case isFalse => exact .inl rfl

/-- Settles O44: an illegal read is answered only, and a legal one is `State.legalRead`. -/
theorem readsHaveNoOtherEffect : Obligations.ReadsHaveNoOtherEffect := by
  intro off z s
  by_cases hl : Access.legal ⟨off, z, .read⟩ = true
  · rw [hostAccess_read_of_legal s hl]
    rcases s.legalRead_state off.toNat z.bytes with e | ⟨hb, hw, e⟩ <;> rw [e]
    · exact ⟨_, .inl rfl⟩
    · exact ⟨_, .inr ⟨hb, isWindow_iff.1 hw, rfl⟩⟩
  · rw [hostAccess_read_of_illegal s hl]
    exact ⟨_, .inl rfl⟩

end Sys2Proof.Machine
end

section
/-! The data windows of an idle block: the lanes of a read and of a write, and a slot as the big-endian value of its bytes. -/

namespace Sys2Proof.Machine

/-! ### Aligned window accesses (rules R38, R40) -/

/-- An aligned access to a window stays in it: windows end at multiples of 4. -/
theorem isWindow_lanes {off n j : Nat} (hw : isWindow off = true) (hn : n = 1 ∨ n = 2 ∨ n = 4) (ha : off % n = 0)
    (hj : j < n) : isWindow (off + j) = true := by
  rw [isWindow_iff] at hw ⊢
  rcases hn with rfl | rfl | rfl <;> omega

theorem Access.legal_of_window {off : BitVec 16} {z : Size} {d : Direction} (hw : isWindow off.toNat = true)
    (ha : off.toNat % z.bytes = 0) : Access.legal ⟨off, z, d⟩ = true := by
  have h1 : 0x1000 ≤ off.toNat := by have := isWindow_iff.1 hw; omega
  exact (Access.legal_iff_of_data h1).2 ha

theorem legalRead_window_of_idle {s : State} {off : Nat} (n : Nat) (hb : s.status.busy = false)
    (hw : isWindow off = true) : s.legalRead off n = (s, s.readLanes off n) := by
  have h1 : ¬off < 0x1000 := by have := isWindow_iff.1 hw; omega
  simp [State.legalRead, h1, hb]

theorem legalWrite_window_of_idle {s : State} {off : Nat} (n : Nat) (v : Word) (hb : s.status.busy = false)
    (hw : isWindow off = true) : s.legalWrite off n v = s.writeLanes off v n := by
  have h1 : ¬off < 0x1000 := by have := isWindow_iff.1 hw; omega
  simp [State.legalWrite, h1, hb]

/-! ### Lanes (rule R41) -/

/-- A byte placed in lane n shows in lane n only. -/
theorem extractLsb'_byte_shift (x : Byte) {n j : Nat} (hn : n < 4) (hj : j < 4) :
    (x.setWidth 32 <<< (8 * n)).extractLsb' (8 * j) 8 = if j = n then x else 0#8 := by
  ext i hi
  rw [BitVec.getElem_extractLsb', BitVec.getLsbD_shiftLeft]
  rcases Nat.lt_trichotomy j n with h | rfl | h
  · have hlow : 8 * j + i < 8 * n := by omega
    simp [h.ne, hlow]
  · have hbit : 8 * j + i < 32 := by omega
    have hbyte : i < 32 := by omega
    simp [hbit, hbyte, BitVec.getLsbD_eq_getElem hi]
  · have habove : x.getLsbD (8 * j + i - 8 * n) = false := BitVec.getLsbD_of_ge _ _ (by omega)
    simp [h.ne', habove]

/-- The lanes of a read of n bytes: the byte at off + j in lane j, and nothing above. -/
theorem State.readLanes_lane (s : State) (off : Nat) {j : Nat} (hj : j < 4) : ∀ n, n ≤ 4 →
    (s.readLanes off n).extractLsb' (8 * j) 8 = if j < n then s.readByteAt (off + j) else 0#8
  | 0, _ => by simp [State.readLanes]
  | n + 1, hn => by
    rw [State.readLanes, BitVec.extractLsb'_or, s.readLanes_lane off hj n (by omega), extractLsb'_byte_shift _ hn hj]
    rcases Nat.lt_trichotomy j n with h | rfl | h
    · simp [h, h.ne, h.trans (Nat.lt_succ_self n)]
    · simp
    · simp [h.ne', not_lt.2 h.le, not_lt.2 (Nat.succ_le_of_lt h)]

/-- Settles O40: a legal read of n bytes returns n lanes. -/
theorem windowReadReturnsTheBytes : Obligations.WindowReadReturnsTheBytes := by
  intro off z s hb hoff ha
  have hw := isWindow_iff.2 hoff
  have hz : z.bytes ≤ 4 := by rcases z.bytes_cases with h | h | h <;> omega
  refine ⟨s.readLanes off.toNat z.bytes, ?_, fun j hj => ?_, fun j hj h4 => ?_⟩
  · rw [hostAccess_read_of_legal s (Access.legal_of_window hw ha), legalRead_window_of_idle _ hb hw]
    rfl
  · rw [s.readLanes_lane _ (hj.trans_le hz) _ hz, if_pos hj]
  · rw [s.readLanes_lane _ h4 _ hz, if_neg (not_lt.2 hj)]

/-- The bytes after a write of n lanes into a window: lane j at off + j, and the old byte at every other offset. -/
theorem State.readByteAt_writeLanes {s : State} {off : Nat} (v : Word) (hwf : s.buf.wf = true) : ∀ n,
    (∀ j, j < n → isWindow (off + j) = true) →
      (∀ j, j < n → (s.writeLanes off v n).readByteAt (off + j) = v.extractLsb' (8 * j) 8) ∧
        ∀ o, o < off ∨ off + n ≤ o → (s.writeLanes off v n).readByteAt o = s.readByteAt o
  | 0, _ => ⟨fun _ hj => absurd hj (Nat.not_lt_zero _), fun _ _ => rfl⟩
  | n + 1, hw => by
    obtain ⟨hlanes, hrest⟩ := readByteAt_writeLanes (s := s) v hwf n fun j hj => hw j (hj.trans (Nat.lt_succ_self n))
    have hlast := hw n (Nat.lt_succ_self n)
    have hwf' := (writeLanes_dataOnly s off v n).canonical hwf
    rw [State.writeLanes]
    refine ⟨fun j hj => ?_, fun o ho => ?_⟩
    · rcases Nat.lt_succ_iff_lt_or_eq.1 hj with h | rfl
      · rw [State.readByteAt_writeByteAt_ne _ _ hlast (by omega), hlanes j h]
      · exact State.readByteAt_writeByteAt_self _ _ hwf' hlast
    · rw [State.readByteAt_writeByteAt_ne _ _ hlast (by omega), hrest o (by omega)]

/-- Settles O41: the lanes are written one by one, each in the window. -/
theorem windowWriteStoresTheBytes : Obligations.WindowWriteStoresTheBytes := by
  intro off z v s hb hwf hoff ha
  have hw := isWindow_iff.2 hoff
  obtain ⟨hlanes, hrest⟩ := State.readByteAt_writeLanes v hwf z.bytes fun j hj => isWindow_lanes hw z.bytes_cases ha hj
  refine ⟨(s.writeLanes off.toNat v z.bytes).answer .okay none, ?_, rfl, hlanes, hrest, ?_⟩
  · rw [hostAccess_write_of_legal s (Access.legal_of_window hw ha), legalWrite_window_of_idle _ v hb hw]
  · exact congrArg (State.answer · .okay none) (writeLanes_dataOnly s off.toNat v z.bytes).rest

/-! ### Slots (rules R19, R22, R38) -/

theorem regionOf_buf {a : Nat} (h : a < 4096) : regionOf (0x1000 + a) = .buf a := by
  unfold regionOf
  rw [if_neg (by omega), if_pos (by omega), Nat.add_sub_cancel_left]

theorem regionOf_op (i : RegIx) {b : Nat} (h : b < 1024) : regionOf (0x4000 + 0x400 * i.toNat + b) = .op i b := by
  have hi := i.isLt
  unfold regionOf
  rw [if_neg (by omega), if_neg (by omega), if_neg (by omega), if_pos (by omega),
    show (0x4000 + 0x400 * i.toNat + b - 0x4000) / 0x400 = i.toNat by omega,
    show (0x4000 + 0x400 * i.toNat + b - 0x4000) % 0x400 = b by omega, BitVec.ofNat_toNat, BitVec.setWidth_eq]

theorem regionOf_key {k : RegIx} {b : Nat} (hk : k ≠ 15#4) (h : b < 1024) :
    regionOf (0x8000 + 0x400 * k.toNat + b) = .key k b := by
  have hlt : k.toNat < 15 := by bv_omega
  unfold regionOf
  rw [if_neg (by omega), if_neg (by omega), if_neg (by omega), if_neg (by omega), if_pos (by omega),
    show (0x8000 + 0x400 * k.toNat + b - 0x8000) / 0x400 = k.toNat by omega,
    show (0x8000 + 0x400 * k.toNat + b - 0x8000) % 0x400 = b by omega, BitVec.ofNat_toNat, BitVec.setWidth_eq]

theorem State.readByteAt_buf (s : State) {a : Nat} (h : a < 4096) : s.readByteAt (0x1000 + a) = s.buf.read a := by
  rw [State.readByteAt, regionOf_buf h]

theorem State.readByteAt_op (s : State) (i : RegIx) {b : Nat} (h : b < 1024) :
    s.readByteAt (0x4000 + 0x400 * i.toNat + b) = slotByte (s.opReg i) b := by
  rw [State.readByteAt, regionOf_op i h]

theorem State.readByteAt_key (s : State) {k : RegIx} {b : Nat} (hk : k ≠ 15#4) (h : b < 1024) :
    s.readByteAt (0x8000 + 0x400 * k.toNat + b) = slotByte (s.keyReg k) b := by
  rw [State.readByteAt, regionOf_key hk h]

/-- Byte b of a slot is digit 1023 − b in base 256. -/
theorem slotByte_toNat (v : IntReg) (b : Nat) :
    (slotByte v b).toNat = v.toNat / 256 ^ (Config.maxBytes - 1 - b) % 256 := by
  have hshift : 2 ^ slotShift b = 256 ^ (Config.maxBytes - 1 - b) := pow_mul 2 8 _
  rw [slotByte, BitVec.extractLsb'_toNat, Nat.shiftRight_eq_div_pow, hshift]

/-- The low l digits of a number in base 256. -/
theorem sum_digits (x : Nat) : ∀ l, ∑ j ∈ Finset.range l, x / 256 ^ j % 256 * 256 ^ j = x % 256 ^ l
  | 0 => by simp [Nat.mod_one]
  | l + 1 => by rw [Finset.sum_range_succ, sum_digits x l, Nat.mod_pow_succ, mul_comm (256 ^ l)]

/-- A slot is the big-endian value of its 1024 bytes. -/
theorem toNat_eq_sum_slotByte (v : IntReg) :
    v.toNat = ∑ b ∈ Finset.range Config.maxBytes, (slotByte v b).toNat * 256 ^ (Config.maxBytes - 1 - b) :=
  have hlt : v.toNat < 256 ^ Config.maxBytes := v.isLt.trans_eq (pow_mul 2 8 Config.maxBytes)
  calc v.toNat
    _ = v.toNat % 256 ^ Config.maxBytes := (Nat.mod_eq_of_lt hlt).symm
    _ = ∑ j ∈ Finset.range Config.maxBytes, v.toNat / 256 ^ j % 256 * 256 ^ j := (sum_digits _ _).symm
    _ = ∑ b ∈ Finset.range Config.maxBytes,
          v.toNat / 256 ^ (Config.maxBytes - 1 - b) % 256 * 256 ^ (Config.maxBytes - 1 - b) :=
      (Finset.sum_range_reflect (fun j => v.toNat / 256 ^ j % 256 * 256 ^ j) Config.maxBytes).symm
    _ = ∑ b ∈ Finset.range Config.maxBytes, (slotByte v b).toNat * 256 ^ (Config.maxBytes - 1 - b) :=
      Finset.sum_congr rfl fun b _ => by rw [slotByte_toNat v b]

/-- Settles O42: the map gives each byte's place, and a slot is the sum of its bytes. -/
theorem slotsAreBigEndian : Obligations.SlotsAreBigEndian := by
  intro s
  refine ⟨fun a ha => s.readByteAt_buf ha, fun i => ?_, fun k hk => ?_⟩
  · refine (toNat_eq_sum_slotByte (s.opReg i)).trans (Finset.sum_congr rfl fun b hb => ?_)
    rw [s.readByteAt_op i (Finset.mem_range.1 hb)]
    rfl
  · refine (toNat_eq_sum_slotByte (s.keyReg k)).trans (Finset.sum_congr rfl fun b hb => ?_)
    rw [s.readByteAt_key hk (Finset.mem_range.1 hb)]
    rfl

end Sys2Proof.Machine
end

section
/-! MODEXP (40_modarith.md), and RSADP (41_rsa.md) step by step: its checks, the draw it asks for, and how it ends once the residues
are known. -/

namespace Sys2Proof.Machine

/-! ### MODEXP (rule R71) -/

theorem exec_modexp (rd ra rb rm : RegIx) (s : State) :
    exec (.modexp rd ra rb rm) s = .next (s.modular rd rm fun m => s.opNat ra ^ s.opNat rb % m) := by
  simp only [← modPow_eq]
  rfl

/-- Settles O14: MODEXP reduces the exact power. -/
theorem modexpIsTheExactPower : Obligations.ModexpIsTheExactPower := fun rd ra rb rm s =>
  ⟨(Laws.TableRow.modexp rd ra rb rm).1, exec_modular_ends (fun _ => s.opNat ra ^ s.opNat rb) (exec_modexp rd ra rb rm s)⟩

/-! ### The CRT material (rules R22, R73, R77) -/

theorem State.mem_crtPrimes {s : State} {c : CrtPrime} :
    c ∈ s.crtPrimes ↔ ∃ i, 1 ≤ i ∧ i ≤ s.keycfg.u.toNat ∧ ⟨s.keyP i, s.keyDx i, s.keyCf i⟩ = c := by
  simp only [State.crtPrimes, List.mem_map, List.mem_range]
  constructor
  · rintro ⟨i, hi, rfl⟩
    exact ⟨i + 1, by omega, by omega, rfl⟩
  · rintro ⟨i, h1, hi, rfl⟩
    exact ⟨i - 1, by omega, by rw [Nat.sub_add_cancel h1]⟩

theorem CrtPrime.valid_iff (c : CrtPrime) : c.valid = true ↔ c.p % 2 = 1 ∧ 3 ≤ c.p := by
  simp [CrtPrime.valid]

theorem State.crtPrimes_valid_iff (s : State) : s.crtPrimes.all CrtPrime.valid = true ↔
    ∀ i, 1 ≤ i → i ≤ s.keycfg.u.toNat → s.keyP i % 2 = 1 ∧ 3 ≤ s.keyP i := by
  simp only [List.all_eq_true, CrtPrime.valid_iff]
  constructor
  · intro h i h1 hi
    exact h _ (State.mem_crtPrimes.2 ⟨i, h1, hi, rfl⟩)
  · rintro h c hc
    obtain ⟨i, h1, hi, rfl⟩ := State.mem_crtPrimes.1 hc
    exact h i h1 hi

theorem minPrime_le : ∀ {cs : List CrtPrime} {c : CrtPrime}, c ∈ cs → minPrime cs ≤ c.p
  | [b], c, h => by rw [List.mem_singleton.1 h, minPrime]
  | b :: d :: cs, c, h => by
    rw [minPrime]
    · rcases List.mem_cons.1 h with rfl | h
      · exact min_le_left _ _
      · exact (min_le_right _ _).trans (minPrime_le h)
    · exact nofun

theorem exists_minPrime : ∀ {cs : List CrtPrime}, cs ≠ [] → ∃ c ∈ cs, minPrime cs = c.p
  | [b], _ => ⟨b, List.mem_singleton_self b, rfl⟩
  | b :: d :: cs, _ => by
    obtain ⟨c, hc, he⟩ := exists_minPrime (List.cons_ne_nil d cs)
    rw [minPrime]
    · rcases min_choice b.p (minPrime (d :: cs)) with h | h
      · exact ⟨b, List.mem_cons_self, h⟩
      · exact ⟨c, List.mem_cons_of_mem b hc, h.trans he⟩
    · exact nofun

/-! ### The checks of RSADP in their order (rules R75, R77, R100) -/

section Checks
variable {s : State} (rd ra : RegIx)

theorem State.rsadpStart_of_even (hu : s.crtConfigBad = false) (he : s.keyN % 2 = 0) :
    s.rsadpStart rd ra = s.complete .evenModulus := by
  simp [State.rsadpStart, hu, he]

theorem State.rsadpStart_of_out_of_range (hu : s.crtConfigBad = false) (ho : s.keyN % 2 = 1) (hx : s.keyN ≤ s.opNat ra) :
    s.rsadpStart rd ra = s.complete .outOfRange := by
  simp [State.rsadpStart, hu, ho, hx]

theorem State.rsadpStart_of_no_crt (hu : s.keycfg.u = 0#3) (ho : s.keyN % 2 = 1) (hx : s.opNat ra < s.keyN) :
    s.rsadpStart rd ra = s.finish (·.setOp rd (s.opNat ra ^ s.keyExp % s.keyN)) := by
  have hlegal : s.crtConfigBad = false := s.crtConfigBad_eq_false_iff.2 (.inl hu)
  simp [State.rsadpStart, hlegal, ho, not_le.2 hx, hu, modPow_eq]

/-- U is 2, 3 or 4: there is CRT material (rule R76). -/
def State.HasCrt (s : State) : Prop := s.keycfg.u = 2#3 ∨ s.keycfg.u = 3#3 ∨ s.keycfg.u = 4#3

theorem State.HasCrt.legal (h : s.HasCrt) : s.crtConfigBad = false := s.crtConfigBad_eq_false_iff.2 (.inr h)

theorem State.HasCrt.ne_zero (h : s.HasCrt) : s.keycfg.u ≠ 0#3 := by
  rcases h with h | h | h <;> rw [h] <;> decide

theorem State.HasCrt.two_le (h : s.HasCrt) : 2 ≤ s.keycfg.u.toNat := by
  rcases h with h | h | h <;> rw [h] <;> decide

/-- A legal U other than 0 has CRT material. -/
theorem State.hasCrt_of_legal (hu : s.keycfg.u = 0#3 ∨ s.keycfg.u = 2#3 ∨ s.keycfg.u = 3#3 ∨ s.keycfg.u = 4#3)
    (h0 : s.keycfg.u ≠ 0#3) : s.HasCrt :=
  hu.resolve_left h0

theorem State.rsadpStart_of_bad_prime (hu : s.HasCrt) (ho : s.keyN % 2 = 1) (hx : s.opNat ra < s.keyN)
    (hp : ¬s.crtPrimes.all CrtPrime.valid = true) : s.rsadpStart rd ra = s.complete .keyInvalid := by
  rw [Bool.not_eq_true] at hp
  simp only [State.rsadpStart, hu.legal, ho, not_le.2 hx, hu.ne_zero, hp]
  rfl

theorem State.rsadpStart_of_blinds (hu : s.HasCrt) (ho : s.keyN % 2 = 1) (hx : s.opNat ra < s.keyN)
    (hp : s.crtPrimes.all CrtPrime.valid = true) (hb : s.blinds = true) :
    s.rsadpStart rd ra = s.requestDraw (minPrime s.crtPrimes - 1) := by
  simp only [State.rsadpStart, hu.legal, ho, not_le.2 hx, hu.ne_zero, hp, hb]
  rfl

theorem State.rsadpStart_of_no_blinding (hu : s.HasCrt) (ho : s.keyN % 2 = 1) (hx : s.opNat ra < s.keyN)
    (hp : s.crtPrimes.all CrtPrime.valid = true) (hb : s.blinds = false) :
    s.rsadpStart rd ra = s.crtFinish rd ra none := by
  simp only [State.rsadpStart, hu.legal, ho, not_le.2 hx, hu.ne_zero, hp, hb]
  rfl

theorem State.blinds_eq_false_iff : s.blinds = false ↔ s.keycfg.pubeV = false ∨ s.keycfg.noBlind = true := by
  unfold State.blinds
  cases s.keycfg.pubeV <;> cases s.keycfg.noBlind <;> decide

end Checks

/-- Settles O17: one rule per check, in order. -/
theorem rsadpChecksInOrder : Obligations.RsadpChecksInOrder := by
  intro rd ra s hseq hu
  have hexec := exec_rsadp_start rd ra hseq
  have hlegal := s.crtConfigBad_eq_false_iff.2 hu
  rw [hexec]
  refine ⟨fun he => ⟨_, rfl, ?even⟩, fun ho hx => ⟨_, rfl, ?range⟩, fun ho hx h0 hbad => ⟨_, rfl, ?primes⟩⟩
  case even =>
    rw [State.rsadpStart_of_even rd ra hlegal he]
    exact .of_complete _ _
  case range =>
    rw [State.rsadpStart_of_out_of_range rd ra hlegal ho hx]
    exact .of_complete _ _
  case primes =>
    obtain ⟨i, h1, hi, hp⟩ := hbad
    have hinvalid : ¬s.crtPrimes.all CrtPrime.valid = true := fun hall => by
      have := s.crtPrimes_valid_iff.1 hall i h1 hi
      omega
    rw [State.rsadpStart_of_bad_prime rd ra (State.hasCrt_of_legal hu h0) ho hx hinvalid]
    exact .of_complete _ _

/-- Settles O18: with U = 0 the value committed is a residue modulo KEY.N. -/
theorem rsadpWithoutCrtMaterial : Obligations.RsadpWithoutCrtMaterial := by
  intro rd ra s hseq hu ho hx
  rw [exec_rsadp_start rd ra hseq, State.rsadpStart_of_no_crt rd ra hu ho hx]
  exact ⟨fun ha => ⟨_, rfl, .of_finish _ ha⟩,
    fun ha => ⟨_, rfl, .of_finish rd ha (State.mod_keyN_lt_radix _ (Nat.zero_lt_of_lt hx))⟩⟩

/-- Settles O19: the least prime is one of P[1..U] and no larger than any. -/
theorem rsadpAsksForOneDraw : Obligations.RsadpAsksForOneDraw := by
  intro rd ra w s hseq hu ho hx hp hpube hblind
  have hcrt : s.HasCrt := hu
  have hblinds : s.blinds = true := by rw [State.blinds, hpube, hblind]; rfl
  have hne : s.crtPrimes ≠ [] := by
    rw [← List.length_pos_iff, s.crtPrimes_length]
    exact Nat.zero_lt_of_lt hcrt.two_le
  obtain ⟨c, hc, hmin⟩ := exists_minPrime hne
  obtain ⟨i, h1, hi, rfl⟩ := State.mem_crtPrimes.1 hc
  have hexec := exec_rsadp_start rd ra (s := s) (by rw [hseq]; exact fun _ => nofun)
  rw [State.rsadpStart_of_blinds rd ra hcrt ho hx (s.crtPrimes_valid_iff.2 hp) hblinds] at hexec
  refine ⟨_, minPrime s.crtPrimes, hexec, ?wait, rfl, rfl, ⟨i, h1, hi, hmin⟩, fun j h1 hj => ?least, fun _ => rfl,
    fun _ => rfl, (exec_inv hexec).restSame, ⟨rfl, rfl, rfl⟩, rfl, rfl⟩
  case wait => rw [State.requestDraw_seq, State.cmdWord, hseq]
  case least => exact minPrime_le (State.mem_crtPrimes.2 ⟨j, h1, hj, rfl⟩)

/-! ### How RSADP ends once its residues are known (rules R78, R79, R100) -/

/-- Every prime gives its residue. -/
theorem perPrimes_eq_map {x : Nat} {blind : Option (Nat × Nat)} {f : CrtPrime → Nat} : ∀ {cs : List CrtPrime},
    (∀ c ∈ cs, perPrime x blind c = some (f c)) → perPrimes x blind cs = some (cs.map fun c => (f c, c))
  | [], _ => rfl
  | c :: cs, h => by
    rw [perPrimes, h c List.mem_cons_self, perPrimes_eq_map fun d hd => h d (List.mem_cons_of_mem c hd)]
    rfl

/-- One prime without a residue is enough for none. -/
theorem perPrimes_eq_none {x : Nat} {blind : Option (Nat × Nat)} : ∀ {cs : List CrtPrime},
    (∃ c ∈ cs, perPrime x blind c = none) → perPrimes x blind cs = none
  | [], h => by simp at h
  | c :: cs, h => by
    rw [perPrimes]
    cases hc : perPrime x blind c with
    | none => rfl
    | some m =>
      have htail : ∃ d ∈ cs, perPrime x blind d = none := by
        obtain ⟨d, hd, hnone⟩ := h
        rcases List.mem_cons.1 hd with rfl | hd
        · cases hc.symm.trans hnone
        · exact ⟨d, hd, hnone⟩
      rw [perPrimes_eq_none htail]
      rfl

/-- The residue of one prime without blinding. -/
def residue (x : Nat) (c : CrtPrime) : Nat := x ^ c.dx % c.p

/-- The residue of one prime blinded with the factor r and the public exponent e. -/
def blindedResidue (x r e : Nat) (c : CrtPrime) : Nat := (x * (r ^ e % c.p) % c.p) ^ c.dx % c.p * inv r c.p % c.p

theorem perPrime_of_no_blinding (x : Nat) (c : CrtPrime) : perPrime x none c = some (residue x c) := by
  rw [perPrime, modPow_eq, residue]

theorem perPrime_of_coprime {r : Nat} {c : CrtPrime} (x e : Nat) (h : Nat.gcd r c.p = 1) :
    perPrime x (some (r, e)) c = some (blindedResidue x r e c) := by
  simp [perPrime, h, modPow_eq, blindedResidue]

theorem perPrime_of_not_coprime {r : Nat} {c : CrtPrime} (x e : Nat) (h : Nat.gcd r c.p ≠ 1) :
    perPrime x (some (r, e)) c = none := by
  simp [perPrime, h]

/-- A value the width check lets pass fits an integer register. -/
theorem toNat_lt_radix {m : Int} (h : m < 2 ^ 8192) : m.toNat < 2 ^ Config.rbits := by
  rw [Int.toNat_lt' (Nat.two_pow_pos _), Config.rbits]
  exact_mod_cast h

section CrtEnds
variable {s : State} {ra : RegIx} {blind : Option (Nat × Nat)}

theorem State.crtFinish_of_no_inverse (rd : RegIx) (h : ∃ c ∈ s.crtPrimes, perPrime (s.opNat ra) blind c = none) :
    s.crtFinish rd ra blind = s.complete .keyInvalid := by
  rw [State.crtFinish, perPrimes_eq_none h]

variable {f : CrtPrime → Nat} (hf : ∀ c ∈ s.crtPrimes, perPrime (s.opNat ra) blind c = some (f c))
  {m : Int} (hm : m = garner (s.crtPrimes.map fun c => (f c, c)))
include hf hm

theorem State.crtFinish_of_too_wide (rd : RegIx) (h : 2 ^ 8192 ≤ m) :
    s.crtFinish rd ra blind = s.complete .keyInvalid := by
  rw [State.crtFinish, perPrimes_eq_map hf]
  simp only [← hm]
  exact if_pos h

theorem State.crtFinish_of_fits (rd : RegIx) (h : m < 2 ^ 8192) :
    s.crtFinish rd ra blind = s.finish (·.setOp rd m.toNat) := by
  rw [State.crtFinish, perPrimes_eq_map hf]
  simp only [← hm]
  exact if_neg (not_le.2 h)

/-- The three ends of a command whose step is the recombination (rules R79, R92). -/
theorem exec_crt_ends {i : Instr} (rd : RegIx) (hexec : exec i s = .next (s.crtFinish rd ra blind)) :
    (2 ^ 8192 ≤ m → ∃ t, exec i s = .next t ∧ EndsWith .keyInvalid s t) ∧
    (m < 2 ^ 8192 → s.abortPending = true → ∃ t, exec i s = .next t ∧ EndsWith .aborted s t) ∧
    (m < 2 ^ 8192 → s.abortPending = false → ∃ t, exec i s = .next t ∧ CommitsOp rd m.toNat s t) := by
  rw [hexec]
  refine ⟨fun h => ⟨_, rfl, ?wide⟩, fun h ha => ⟨_, rfl, ?aborted⟩, fun h ha => ⟨_, rfl, ?commit⟩⟩
  case wide =>
    rw [State.crtFinish_of_too_wide hf hm rd h]
    exact .of_complete _ _
  case aborted =>
    rw [State.crtFinish_of_fits hf hm rd h]
    exact .of_finish _ ha
  case commit =>
    rw [State.crtFinish_of_fits hf hm rd h]
    exact .of_finish rd ha (toNat_lt_radix h)

end CrtEnds

/-- RSADP without blinding goes from its checks to the recombination. -/
theorem exec_rsadp_of_no_blinding {s : State} {ra : RegIx} (rd : RegIx) (hseq : ∀ w, s.seq ≠ .waitRng w) (hu : s.HasCrt)
    (ho : s.keyN % 2 = 1) (hx : s.opNat ra < s.keyN)
    (hp : ∀ i, 1 ≤ i → i ≤ s.keycfg.u.toNat → s.keyP i % 2 = 1 ∧ 3 ≤ s.keyP i)
    (hb : s.keycfg.pubeV = false ∨ s.keycfg.noBlind = true) : exec (.rsadp rd ra) s = .next (s.crtFinish rd ra none) := by
  rw [exec_rsadp_start rd ra hseq, State.rsadpStart_of_no_blinding rd ra hu ho hx (s.crtPrimes_valid_iff.2 hp)
    (State.blinds_eq_false_iff.2 hb)]

/-- Once the draw has come, RSADP goes on to the recombination. -/
theorem exec_rsadp_of_draw {s : State} {w : Word} {r : Nat} (rd ra : RegIx) (hseq : s.seq = .waitRng w)
    (hr : s.blind = some r) : exec (.rsadp rd ra) s = .next (s.crtFinish rd ra (some (r, s.keyPube))) := by
  simp [exec, execRsadp, State.rsadpResume, hseq, hr]

/-- Settles O20: the residues are the exact powers. -/
theorem rsadpWithoutBlindingCommitsGarner : Obligations.RsadpWithoutBlindingCommitsGarner := by
  intro rd ra s hseq hu ho hx hp hb m hm
  exact exec_crt_ends (fun c _ => perPrime_of_no_blinding _ c) hm rd (exec_rsadp_of_no_blinding rd hseq hu ho hx hp hb)

/-- A draw without an inverse modulo some prime ends the command (rule R78). -/
theorem exec_rsadp_of_no_inverse {s : State} {w : Word} {r : Nat} (rd ra : RegIx) (hseq : s.seq = .waitRng w)
    (hr : s.blind = some r) (h : ∃ c ∈ s.crtPrimes, Nat.gcd r c.p ≠ 1) :
    exec (.rsadp rd ra) s = .next (s.complete .keyInvalid) := by
  obtain ⟨c, hc, hgcd⟩ := h
  rw [exec_rsadp_of_draw rd ra hseq hr, State.crtFinish_of_no_inverse rd ⟨c, hc, perPrime_of_not_coprime _ _ hgcd⟩]

/-- Settles O21: with an inverse for every prime, the residues are the blinded ones. -/
theorem rsadpWithBlindingCommitsGarner : Obligations.RsadpWithBlindingCommitsGarner := by
  intro rd ra w r s hseq hr m hm
  have hends := fun hgcd : ∀ c ∈ s.crtPrimes, Nat.gcd r c.p = 1 =>
    exec_crt_ends (fun c hc => perPrime_of_coprime _ _ (hgcd c hc)) hm rd (exec_rsadp_of_draw rd ra hseq hr)
  exact ⟨fun h => ⟨_, exec_rsadp_of_no_inverse rd ra hseq hr h, .of_complete _ _⟩, fun hgcd => (hends hgcd).1,
    fun hgcd => (hends hgcd).2.1, fun hgcd => (hends hgcd).2.2⟩

/-- The check point of the last step, past the checks on the residues (rule R100). -/
theorem State.crtFinish_of_abort {s : State} {ra : RegIx} {blind : Option (Nat × Nat)} {f : CrtPrime → Nat}
    (hf : ∀ c ∈ s.crtPrimes, perPrime (s.opNat ra) blind c = some (f c)) {m : Int}
    (hm : m = garner (s.crtPrimes.map fun c => (f c, c))) (rd : RegIx) (ha : s.abortPending = true) :
    s.crtFinish rd ra blind = s.complete (if 2 ^ 8192 ≤ m then .keyInvalid else .aborted) := by
  split
  case isTrue h => exact State.crtFinish_of_too_wide hf hm rd h
  case isFalse h => rw [State.crtFinish_of_fits hf hm rd (not_le.1 h), State.finish_of_abort _ ha]

/-- With an abort pending the step after the draw makes the checks on r before it comes to the abort. -/
theorem exec_rsadp_of_aborted_draw {s : State} {w : Word} {r : Nat} (rd ra : RegIx) (hseq : s.seq = .waitRng w)
    (hr : s.blind = some r) (ha : s.abortPending = true) {m : Int}
    (hm : m = garner (s.crtPrimes.map fun c => (blindedResidue (s.opNat ra) r s.keyPube c, c))) :
    exec (.rsadp rd ra) s = .next (s.complete
      (if (∃ c ∈ s.crtPrimes, Nat.gcd r c.p ≠ 1) ∨ 2 ^ 8192 ≤ m then .keyInvalid else .aborted)) := by
  by_cases hgcd : ∃ c ∈ s.crtPrimes, Nat.gcd r c.p ≠ 1
  · rw [exec_rsadp_of_no_inverse rd ra hseq hr hgcd, if_pos (.inl hgcd)]
  · have hcoprime : ∀ c ∈ s.crtPrimes, Nat.gcd r c.p = 1 := by simpa using hgcd
    rw [exec_rsadp_of_draw rd ra hseq hr,
      State.crtFinish_of_abort (fun c hc => perPrime_of_coprime _ _ (hcoprime c hc)) hm rd ha]
    simp only [hgcd, false_or]

/-- The state once the RNG has answered with r (rule R73). -/
def State.drawn (s : State) (r : Nat) : State := { s with rngReq := none, blind := some r }

/-- Settles O25: the answer is taken, and completion changes nothing else of the state before it. -/
theorem abortedDrawIsDiscarded : Obligations.AbortedDrawIsDiscarded := by
  intro rd ra w r hi s hseq ha hstale hreq h1 hle m hm
  have hanswer : rngAnswer r s = s.drawn r := rngAnswer_of_in_range hstale hreq ⟨h1, hle⟩
  have hstep := exec_rsadp_of_aborted_draw (s := s.drawn r) rd ra hseq rfl ha hm
  exact ⟨_, _, moveStep_rng hanswer, hstep, rfl, EndsWith.of_complete _ s⟩

end Sys2Proof.Machine
end

section
/-! The Chinese remainder path of RSADP (41_rsa.md): Garner's value, the blinding that cancels, and the power a consistent key gives. -/

namespace Sys2Proof.Machine

/-! ### Garner recombination (rule R79) -/

/-- The product of the primes of some residues. -/
def primeProduct (ts : List (Nat × CrtPrime)) : Nat := (ts.map fun t => t.2.p).prod

@[simp] theorem primeProduct_append_singleton (ts : List (Nat × CrtPrime)) (t : Nat × CrtPrime) :
    primeProduct (ts ++ [t]) = primeProduct ts * t.2.p := by
  simp [primeProduct]

/-- m lies below the product of the primes and has every residue. -/
structure HasResidues (ts : List (Nat × CrtPrime)) (m : Int) : Prop where
  nonneg : 0 ≤ m
  lt : m < primeProduct ts
  residue : ∀ t ∈ ts, m ≡ (t.1 : Int) [ZMOD (t.2.p : Int)]

theorem HasResidues.perm {ts us : List (Nat × CrtPrime)} {m : Int} (h : HasResidues ts m) (hp : ts.Perm us) :
    HasResidues us m where
  nonneg := h.nonneg
  lt := h.lt.trans_eq (congrArg _ (hp.map _).prod_eq)
  residue t ht := h.residue t (hp.mem_iff.2 ht)

theorem HasResidues.singleton {r : Nat} {c : CrtPrime} (h : r < c.p) : HasResidues [(r, c)] r where
  nonneg := Int.natCast_nonneg r
  lt := by simpa [primeProduct] using h
  residue t ht := by rw [List.mem_singleton.1 ht]

theorem dvd_primeProduct {ts : List (Nat × CrtPrime)} {t : Nat × CrtPrime} (h : t ∈ ts) : t.2.p ∣ primeProduct ts :=
  List.dvd_prod (List.mem_map_of_mem h)

/-- The correction term gives the new residue: the coefficient undoes the product (rule R22). -/
theorem garner_correction {M cf p : Nat} (m r : Int) (hcf : cf * M ≡ 1 [MOD p]) :
    m + M * ((r - m) * cf % p) ≡ r [ZMOD p] := by
  have hcf' : (cf : Int) * M ≡ 1 [ZMOD p] := by exact_mod_cast (Int.natCast_modEq_iff.2 hcf)
  calc m + M * ((r - m) * cf % p)
    _ ≡ m + M * ((r - m) * cf) [ZMOD p] := ((Int.mod_modEq _ _).mul_left _).add_left _
    _ = m + (r - m) * (cf * M) := by ring
    _ ≡ m + (r - m) * 1 [ZMOD p] := (hcf'.mul_left _).add_left _
    _ = r := by ring

/-- One step of the recombination takes in one more residue. -/
theorem HasResidues.snoc {ts : List (Nat × CrtPrime)} {m : Int} (h : HasResidues ts m) {r cf : Nat} {c : CrtPrime}
    (hp : 0 < c.p) (hcf : cf * primeProduct ts ≡ 1 [MOD c.p]) :
    HasResidues (ts ++ [(r, c)]) (m + primeProduct ts * ((r - m) * cf % c.p)) := by
  have hp' : (0 : Int) < c.p := by exact_mod_cast hp
  have hq0 := Int.emod_nonneg ((r - m) * cf) hp'.ne'
  have hq1 := Int.emod_lt_of_pos ((r - m) * cf) hp'
  have hm0 := h.nonneg
  have hm1 := h.lt
  have hM : (0 : Int) ≤ primeProduct ts := Int.natCast_nonneg _
  refine ⟨add_nonneg hm0 (mul_nonneg hM hq0), ?lt, fun t ht => ?residue⟩
  case lt =>
    rw [primeProduct_append_singleton, Nat.cast_mul]
    nlinarith [mul_le_mul_of_nonneg_left (Int.add_one_le_of_lt hq1) hM]
  case residue =>
    rcases List.mem_append.1 ht with hold | hnew
    · have hdvd : (t.2.p : Int) ∣ primeProduct ts * ((r - m) * cf % c.p) :=
        (Int.natCast_dvd_natCast.2 (dvd_primeProduct hold)).mul_right _
      exact (Int.modEq_iff_dvd.2 (by simpa using hdvd)).symm.trans (h.residue t hold)
    · rw [List.mem_singleton.1 hnew]
      exact garner_correction m r hcf

/-- Each coefficient from place `n` on is the inverse of the product of the primes before it (rule R22). -/
def CoefficientsFrom (n : Nat) (all : List (Nat × CrtPrime)) : Prop :=
  ∀ (pre post : List (Nat × CrtPrime)) (t : Nat × CrtPrime), all = pre ++ t :: post → n ≤ pre.length →
    t.2.cf * primeProduct pre ≡ 1 [MOD t.2.p]

/-- The steps i = 3..u take in the residues one by one. -/
theorem garnerTail_hasResidues {done : List (Nat × CrtPrime)} {m : Int} {rc prev : Nat} (h : HasResidues done m)
    (hrc : rc * prev = primeProduct done) {ts : List (Nat × CrtPrime)} (hp : ∀ t ∈ ts, 0 < t.2.p)
    (hcf : CoefficientsFrom done.length (done ++ ts)) : HasResidues (done ++ ts) (garnerTail m rc prev ts) := by
  induction ts generalizing done m rc prev with
  | nil => simpa [garnerTail] using h
  | cons t ts ih =>
    obtain ⟨r, c⟩ := t
    have hnext := h.snoc (r := r) (hp _ List.mem_cons_self) (hcf done ts (r, c) rfl le_rfl)
    rw [← hrc] at hnext
    push_cast at hnext
    rw [List.append_cons] at hcf ⊢
    refine ih hnext ?_ (fun t ht => hp t (List.mem_cons_of_mem _ ht)) fun pre post t he hle => hcf pre post t he ?_
    · rw [hrc, primeProduct_append_singleton]
    · exact (by simp : done.length ≤ (done ++ [(r, c)]).length).trans hle

/-- Garner's value has every residue. -/
theorem garner_hasResidues {m1 m2 : Nat} {c1 c2 : CrtPrime} {ts : List (Nat × CrtPrime)}
    (hres : ∀ t ∈ (m1, c1) :: (m2, c2) :: ts, 0 < t.2.p ∧ t.1 < t.2.p) (h2 : c2.cf * c2.p ≡ 1 [MOD c1.p])
    (hcf : CoefficientsFrom 2 ((m1, c1) :: (m2, c2) :: ts)) :
    HasResidues ((m1, c1) :: (m2, c2) :: ts) (garner ((m1, c1) :: (m2, c2) :: ts)) := by
  simp only [List.forall_mem_cons] at hres
  obtain ⟨⟨hp1, -⟩, ⟨-, hm2⟩, hts⟩ := hres
  have hprod : primeProduct [(m2, c2)] = c2.p := by simp [primeProduct]
  have hpair := ((HasResidues.singleton hm2).snoc (r := m1) (cf := c2.cf) hp1 (by rwa [hprod])).perm
    (List.Perm.swap (m1, c1) (m2, c2) [])
  rw [hprod, mul_comm (c2.p : Int)] at hpair
  exact garnerTail_hasResidues hpair (by simp [primeProduct]) (fun t ht => (hts t ht).1) hcf

/-- Settles O22: the recombination takes in the residues one by one, each by its coefficient. -/
theorem garnerHasEveryResidue : Obligations.GarnerHasEveryResidue := by
  rintro m1 m2 c1 c2 ts all rfl hres h2 hcf
  have h := garner_hasResidues hres h2 hcf
  exact ⟨h.nonneg, h.lt, h.residue⟩

end Sys2Proof.Machine
end

section
/-! The blinding that cancels and the power a consistent key gives (rule R80). -/

namespace Sys2Proof.Machine

/-! ### Exponents modulo a prime -/

/-- Fermat: exponents count modulo p − 1 for a base coprime to p. -/
theorem pow_modEq_pow_of_coprime {p a m n : Nat} (hp : p.Prime) (ha : a.Coprime p) (h : m ≡ n [MOD p - 1]) :
    a ^ m ≡ a ^ n [MOD p] := by
  have hone : (a : ZMod p) ^ (p - 1) = 1 := by
    exact_mod_cast (ZMod.natCast_eq_natCast_iff _ _ _).2 (Nat.ModEq.pow_card_sub_one_eq_one hp ha)
  rw [← ZMod.natCast_eq_natCast_iff, Nat.cast_pow, Nat.cast_pow]
  exact pow_eq_pow_of_modEq h hone

/-- Positive exponents count modulo p − 1 for every base. -/
theorem pow_modEq_pow_of_pos {p a m n : Nat} (hp : p.Prime) (hm : 0 < m) (hn : 0 < n) (h : m ≡ n [MOD p - 1]) :
    a ^ m ≡ a ^ n [MOD p] := by
  by_cases hdvd : p ∣ a
  · have hzero : ∀ k, 0 < k → a ^ k ≡ 0 [MOD p] := fun k hk =>
      Nat.modEq_zero_iff_dvd.2 (hdvd.trans (dvd_pow_self a hk.ne'))
    exact (hzero m hm).trans (hzero n hn).symm
  · exact pow_modEq_pow_of_coprime hp ((Nat.Prime.coprime_iff_not_dvd hp).2 hdvd).symm h

/-! ### Blinding (rules R78, R80) -/

/-- The blinding factor's power comes out as the factor itself, and its inverse cancels it. -/
theorem blindedResidue_eq_residue {x r e : Nat} {c : CrtPrime} (hp : c.p.Prime) (he : e * c.dx ≡ 1 [MOD c.p - 1])
    (hr : r.Coprime c.p) : blindedResidue x r e c = residue x c := by
  have hfactor : r ^ (e * c.dx) ≡ r [MOD c.p] := by simpa using pow_modEq_pow_of_coprime hp hr he
  have hinv : r * inv r c.p ≡ 1 [MOD c.p] := by
    have h := inv_spec r c.p hp.one_lt hr
    rwa [← Nat.mod_eq_of_lt hp.one_lt] at h
  have hbase : x * (r ^ e % c.p) % c.p ≡ x * r ^ e [MOD c.p] :=
    (Nat.mod_modEq _ _).trans ((Nat.mod_modEq _ _).mul_left x)
  calc (x * (r ^ e % c.p) % c.p) ^ c.dx % c.p * inv r c.p
    _ ≡ (x * r ^ e) ^ c.dx * inv r c.p [MOD c.p] := ((Nat.mod_modEq _ _).trans (hbase.pow c.dx)).mul_right _
    _ = x ^ c.dx * r ^ (e * c.dx) * inv r c.p := by rw [mul_pow, pow_mul]
    _ ≡ x ^ c.dx * r * inv r c.p [MOD c.p] := (hfactor.mul_left _).mul_right _
    _ = x ^ c.dx * (r * inv r c.p) := mul_assoc _ _ _
    _ ≡ x ^ c.dx * 1 [MOD c.p] := hinv.mul_left _
    _ = x ^ c.dx := mul_one _

/-- Settles O23: a draw below a prime has an inverse modulo it. -/
theorem blindingCancels : Obligations.BlindingCancels := by
  intro x r e c hp he h1 hlt
  have hr : r.Coprime c.p := (Nat.coprime_of_lt_prime (Nat.ne_of_gt h1) hlt hp).symm
  rw [perPrime_of_coprime x e hr, blindedResidue_eq_residue hp he hr, residue]

/-! ### A consistent key (rule R80) -/

/-- A congruence modulo each number of a list is one modulo their product if each is coprime to those before it. -/
theorem modEq_prod_of_coprime {a b : Nat} {ps : List Nat}
    (hco : ∀ pre post p, ps = pre ++ p :: post → Nat.Coprime pre.prod p) (h : ∀ p ∈ ps, a ≡ b [MOD p]) :
    a ≡ b [MOD ps.prod] := by
  induction ps using List.reverseRecOn with
  | nil => exact Nat.modEq_one
  | append_singleton ps p ih =>
    have hps := ih (fun pre post q hq => hco pre (post ++ [p]) q (by simp [hq])) fun q hq => h q (by simp [hq])
    rw [List.prod_append, List.prod_singleton]
    exact (Nat.modEq_and_modEq_iff_modEq_mul (hco ps [] p rfl)).1 ⟨hps, h p (by simp)⟩

/-- The first two primes of the CRT material (rule R22). -/
theorem State.HasCrt.crtPrimes_eq_cons {s : State} (h : s.HasCrt) :
    ∃ cs, s.crtPrimes = ⟨s.keyP 1, s.keyDx 1, s.keyCf 1⟩ :: ⟨s.keyP 2, s.keyDx 2, s.keyCf 2⟩ :: cs := by
  obtain ⟨n, hn⟩ := Nat.exists_eq_add_of_le' h.two_le
  rw [State.crtPrimes, hn, List.range_succ_eq_map, List.range_succ_eq_map]
  exact ⟨_, rfl⟩

/-- Place k of the CRT material is prime k + 1. -/
theorem State.crtPrimes_split {s : State} {pre post : List CrtPrime} {c : CrtPrime} (h : s.crtPrimes = pre ++ c :: post) :
    pre.length < s.keycfg.u.toNat ∧ pre = s.crtPrimes.take pre.length ∧
      c = ⟨s.keyP (pre.length + 1), s.keyDx (pre.length + 1), s.keyCf (pre.length + 1)⟩ := by
  have hlt : pre.length < s.keycfg.u.toNat := by
    have hlen := congrArg List.length h
    rw [s.crtPrimes_length, List.length_append, List.length_cons] at hlen
    omega
  refine ⟨hlt, by rw [h, List.take_left], ?_⟩
  have hget : s.crtPrimes[pre.length]? = some c := by simp [h]
  simpa [State.crtPrimes, List.getElem?_range hlt] using hget.symm

section Consistent
variable {s : State} {e d : Nat}

/-- The coefficient of each prime from the third on (rule R22). -/
theorem State.KeyConsistent.coefficient (hk : s.KeyConsistent e d) {pre post : List CrtPrime} {c : CrtPrime}
    (h : s.crtPrimes = pre ++ c :: post) (h2 : 2 ≤ pre.length) :
    c.cf * (pre.map CrtPrime.p).prod ≡ 1 [MOD c.p] := by
  obtain ⟨-, -, -, hcf⟩ := hk
  obtain ⟨hlt, hpre, rfl⟩ := State.crtPrimes_split h
  have hi := hcf (pre.length + 1) (by omega) hlt
  rwa [Nat.add_sub_cancel, ← hpre] at hi

/-- Each prime is coprime to the product of those before it, since it has a coefficient. -/
theorem State.KeyConsistent.coprime (hk : s.KeyConsistent e d) (hu : s.HasCrt) {pre post : List CrtPrime} {c : CrtPrime}
    (h : s.crtPrimes = pre ++ c :: post) : Nat.Coprime (pre.map CrtPrime.p).prod c.p := by
  match pre with
  | [] => exact Nat.coprime_one_left _
  | [b] =>
    obtain ⟨-, -, h2, -⟩ := hk
    obtain ⟨cs, hcs⟩ := hu.crtPrimes_eq_cons
    rw [hcs] at h
    obtain ⟨rfl, rfl, -⟩ : _ = b ∧ _ = c ∧ _ = post := by simpa using h
    rw [mul_comm] at h2
    simpa using (Nat.coprime_of_mul_modEq_one _ h2).symm
  | a :: b :: pre =>
    have hcf := hk.coefficient h (by simp)
    rw [mul_comm] at hcf
    exact Nat.coprime_of_mul_modEq_one _ hcf

/-- The residue of a consistent key is that of the power x^d. -/
theorem State.KeyConsistent.residue_modEq (hk : s.KeyConsistent e d) (x : Nat) {c : CrtPrime} (hc : c ∈ s.crtPrimes) :
    residue x c ≡ x ^ d [MOD c.p] := by
  obtain ⟨hprimes, -⟩ := hk
  obtain ⟨hp, h3, he, hdx⟩ := hprimes c hc
  have hmod : c.dx ≡ d [MOD c.p - 1] := by rw [hdx]; exact Nat.mod_modEq d _
  have hzero : ¬0 ≡ 1 [MOD c.p - 1] := by
    rw [Nat.ModEq, Nat.zero_mod, Nat.mod_eq_of_lt (by omega)]
    exact Nat.zero_ne_one
  have hdx0 : 0 < c.dx := by
    refine Nat.pos_of_ne_zero fun h0 => hzero ?_
    rwa [h0, mul_zero] at he
  have hd0 : 0 < d := by
    refine Nat.pos_of_ne_zero fun h0 => hdx0.ne' ?_
    rw [hdx, h0, Nat.zero_mod]
  exact (Nat.mod_modEq _ _).trans (pow_modEq_pow_of_pos hp hdx0 hd0 hmod)

/-- The residues of a consistent key and their coefficients meet the conditions of the recombination. -/
theorem State.KeyConsistent.garner_hasResidues (hk : s.KeyConsistent e d) (hu : s.HasCrt) (x : Nat) :
    HasResidues (s.crtPrimes.map fun c => (residue x c, c)) (garner (s.crtPrimes.map fun c => (residue x c, c))) := by
  obtain ⟨hprimes, -, h2, -⟩ := id hk
  obtain ⟨cs, hcs⟩ := hu.crtPrimes_eq_cons
  have hres : ∀ t ∈ s.crtPrimes.map fun c => (residue x c, c), 0 < t.2.p ∧ t.1 < t.2.p := by
    intro t ht
    obtain ⟨c, hc, rfl⟩ := List.mem_map.1 ht
    obtain ⟨hp, -⟩ := hprimes c hc
    exact ⟨hp.pos, Nat.mod_lt _ hp.pos⟩
  have hcf : CoefficientsFrom 2 (s.crtPrimes.map fun c => (residue x c, c)) := by
    intro pre post t hsplit hlen
    have hsnd := congrArg (List.map Prod.snd) hsplit
    rw [List.map_map, List.map_append, List.map_cons] at hsnd
    have h := hk.coefficient ((List.map_id _).symm.trans hsnd) (by simpa using hlen)
    rwa [List.map_map] at h
  rw [hcs, List.map_cons, List.map_cons] at hres hcf ⊢
  exact Machine.garner_hasResidues hres h2 hcf

/-- Garner's value of a consistent key is the power modulo N. -/
theorem State.KeyConsistent.garner_eq (hk : s.KeyConsistent e d) (hu : s.HasCrt) (x : Nat) :
    garner (s.crtPrimes.map fun c => (residue x c, c)) = (x ^ d % s.keyN : Nat) := by
  obtain ⟨hnonneg, hlt, hres⟩ := hk.garner_hasResidues hu x
  obtain ⟨-, hN, -⟩ := id hk
  have hprod : primeProduct (s.crtPrimes.map fun c => (residue x c, c)) = s.keyN := by
    rw [hN, primeProduct, List.map_map]
    rfl
  rw [hprod] at hlt
  obtain ⟨m, hm⟩ := Int.eq_ofNat_of_zero_le hnonneg
  rw [hm] at hlt hres ⊢
  have hmod : m ≡ x ^ d [MOD s.keyN] := by
    rw [hN]
    refine modEq_prod_of_coprime (fun pre post p hsplit => ?_) fun p hp => ?_
    · obtain ⟨pre', rest, hcs, rfl, hrest⟩ := List.map_eq_append_iff.1 hsplit
      obtain ⟨c, post', rfl, rfl, -⟩ := List.map_eq_cons_iff.1 hrest
      exact hk.coprime hu hcs
    · obtain ⟨c, hc, rfl⟩ := List.mem_map.1 hp
      have h := hres (residue x c, c) (List.mem_map.2 ⟨c, hc, rfl⟩)
      exact (Int.natCast_modEq_iff.1 h).trans (hk.residue_modEq x hc)
  rw [← hmod, Nat.mod_eq_of_lt (by exact_mod_cast hlt)]

theorem odd_of_prime {p : Nat} (hp : p.Prime) (h3 : 3 ≤ p) : p % 2 = 1 :=
  hp.eq_two_or_odd.resolve_left (Nat.ne_of_gt h3)

/-- A product of odd primes is odd. -/
theorem State.KeyConsistent.keyN_odd (hk : s.KeyConsistent e d) : s.keyN % 2 = 1 := by
  obtain ⟨hprimes, hN, -⟩ := hk
  rw [← Nat.not_even_iff_odd.trans Nat.odd_iff, even_iff_two_dvd, hN, Nat.prime_two.prime.dvd_prod_iff]
  rintro ⟨p, hp, hdvd⟩
  obtain ⟨c, hc, rfl⟩ := List.mem_map.1 hp
  obtain ⟨hprime, h3, -⟩ := hprimes c hc
  have hodd := odd_of_prime hprime h3
  omega

/-- The recombination commits the power, whatever way the residues were computed. -/
theorem State.KeyConsistent.crtFinish_commits (hk : s.KeyConsistent e d) (hu : s.HasCrt) {ra : RegIx} (rd : RegIx)
    {blind : Option (Nat × Nat)} (hx : s.opNat ra < s.keyN)
    (hf : ∀ c ∈ s.crtPrimes, perPrime (s.opNat ra) blind c = some (residue (s.opNat ra) c)) :
    CommitsOrAborts rd (s.opNat ra ^ d % s.keyN) s (s.crtFinish rd ra blind) := by
  have hfits := State.mod_keyN_lt_radix (s := s) (s.opNat ra ^ d) (Nat.zero_lt_of_lt hx)
  rw [State.crtFinish_of_fits hf (hk.garner_eq hu _).symm rd (by exact_mod_cast hfits), Int.toNat_natCast]
  exact .of_finish rd hfits

end Consistent

/-- Settles O24: on the CRT paths the residues are those of a consistent key, since blinding cancels. -/
theorem consistentKeyGivesThePower : Obligations.ConsistentKeyGivesThePower := by
  intro rd ra s e d hx
  refine ⟨fun hseq hu ho hd => ?noCrt, fun hk hu => ⟨fun hseq hb => ?noBlinding, fun w r hseq hr he h1 hlt => ?blinding⟩⟩
  case noCrt =>
    rw [exec_rsadp_start rd ra hseq, State.rsadpStart_of_no_crt rd ra hu ho hx, hd]
    exact ⟨_, rfl, .of_finish rd (State.mod_keyN_lt_radix _ (Nat.zero_lt_of_lt hx))⟩
  case noBlinding =>
    have hodd : ∀ i, 1 ≤ i → i ≤ s.keycfg.u.toNat → s.keyP i % 2 = 1 ∧ 3 ≤ s.keyP i := by
      obtain ⟨hprimes, -⟩ := id hk
      intro i h1 hi
      obtain ⟨hp, h3, -⟩ := hprimes _ (State.mem_crtPrimes.2 ⟨i, h1, hi, rfl⟩)
      exact ⟨odd_of_prime hp h3, h3⟩
    exact ⟨_, exec_rsadp_of_no_blinding rd hseq hu hk.keyN_odd hx hodd hb,
      hk.crtFinish_commits hu rd hx fun c _ => perPrime_of_no_blinding _ c⟩
  case blinding =>
    obtain ⟨hprimes, -⟩ := id hk
    refine ⟨_, exec_rsadp_of_draw rd ra hseq hr, hk.crtFinish_commits hu rd hx fun c hc => ?_⟩
    obtain ⟨hp, -, hdx, -⟩ := hprimes c hc
    rw [he]
    exact blindingCancels _ r e c hp hdx h1 (hlt c hc)

end Sys2Proof.Machine
end

section
/-! CMP (43_compare.md): the accumulator of the constant-time comparison decides equality. -/

namespace Sys2Proof.Machine

/-! ### The accumulator (rule R84) -/

theorem foldl_or_eq_zero_iff (bs : List Byte) (acc : Byte) :
    bs.foldl (· ||| ·) acc = 0#8 ↔ acc = 0#8 ∧ ∀ b ∈ bs, b = 0#8 := by
  induction bs generalizing acc with
  | nil => simp
  | cons b bs ih => rw [List.foldl_cons, ih, BitVec.or_eq_zero_iff, List.forall_mem_cons, and_assoc]

theorem xorBytes_eq_zero_iff {bs ts : List Byte} (h : bs.length = ts.length) :
    (∀ b ∈ xorBytes bs ts, b = 0#8) ↔ bs = ts := by
  induction bs generalizing ts with
  | nil => simpa [xorBytes] using h.symm
  | cons b bs ih =>
    cases ts with
    | nil => cases h
    | cons t ts =>
      have htail := ih (Nat.succ.inj h)
      unfold xorBytes at htail ⊢
      rw [List.zipWith_cons_cons, List.forall_mem_cons, htail, BitVec.xor_eq_zero_iff, List.cons.injEq]

/-- The accumulator stays 0x00 exactly when no pair of bytes differs. -/
theorem diffAcc_eq_zero_iff {bs ts : List Byte} (h : bs.length = ts.length) : diffAcc bs ts = 0#8 ↔ bs = ts := by
  rw [diffAcc, foldl_or_eq_zero_iff, xorBytes_eq_zero_iff h]
  exact and_iff_right rfl

theorem Memory.readBytes_eq_iff (m : Memory) (a b l : Nat) :
    m.readBytes a l = m.readBytes b l ↔ ∀ j, j < l → m.read (a + j) = m.read (b + j) := by
  simp only [List.ext_getElem_iff, Memory.readBytes_length, Memory.readBytes_getElem, true_and]
  exact ⟨fun h j hj => h j hj hj, fun h j hj _ => h j hj⟩

theorem State.equalRanges_iff (s : State) : s.equalRanges = true ↔ s.args.lenA = s.args.lenB ∧
    ∀ j, j < s.args.lenA.toNat → s.buf.read (s.args.addrA.toNat + j) = s.buf.read (s.args.addrB.toNat + j) := by
  unfold State.equalRanges State.rangeA State.rangeB State.bytesOf
  dsimp only
  by_cases hlen : s.args.lenA = s.args.lenB
  · rw [if_neg (not_not.2 (congrArg BitVec.toNat hlen)), beq_iff_eq, diffAcc_eq_zero_iff (by simp [hlen]), ← hlen,
      Memory.readBytes_eq_iff]
    exact (and_iff_right rfl).symm
  · rw [if_pos fun h => hlen (BitVec.eq_of_toNat_eq h)]
    exact iff_of_false nofun fun h => hlen h.1

/-! ### CMP (rule R84) -/

/-- CMP's row of the encoding table masks no bit, so its word is the row's own. -/
theorem encode_cmp : encode .cmp = 0x00000018#32 :=
  BitVec.and_allOnes.symm.trans Laws.TableRow.cmp.1

theorem exec_cmp_of_out_of_bounds {s : State}
    (h : 4096 < s.args.addrA.toNat + s.args.lenA.toNat ∨ 4096 < s.args.addrB.toNat + s.args.lenB.toNat) :
    exec .cmp s = .next ((s.setEq false).complete .bufBounds) := by
  refine congrArg Host.Outcome.next (if_pos ?_)
  rcases h with h | h
  · simp [s.rangeA.inBounds_eq_false_iff.2 h]
  · simp [s.rangeB.inBounds_eq_false_iff.2 h]

theorem exec_cmp_of_in_bounds {s : State} (hA : s.args.addrA.toNat + s.args.lenA.toNat ≤ 4096)
    (hB : s.args.addrB.toNat + s.args.lenB.toNat ≤ 4096) :
    exec .cmp s = .next ((s.setEq false).finish (·.setEq s.equalRanges)) := by
  refine congrArg Host.Outcome.next (if_neg ?_)
  simp [s.rangeA.inBounds_iff.2 hA, s.rangeB.inBounds_iff.2 hB]

/-- What CMP leaves unchanged, whatever its end. -/
theorem setEq_complete_frame (s : State) (e e' : Bool) (c : ErrCode) :
    OpSame s (((s.setEq e).setEq e').complete c) ∧ BufSame s (((s.setEq e).setEq e').complete c) ∧
      RestSame s (((s.setEq e).setEq e').complete c) :=
  ⟨fun _ => rfl, fun _ => rfl, fun _ => rfl, rfl, rfl, rfl, rfl, rfl, rfl, rfl, rfl, rfl⟩

/-- An end of CMP that commits nothing leaves EQ 0. -/
theorem setEq_false_complete (s : State) (c : ErrCode) : Completed c s ((s.setEq false).complete c) ∧
    ((s.setEq false).complete c).status.eq = false ∧ OpSame s ((s.setEq false).complete c) ∧
      BufSame s ((s.setEq false).complete c) ∧ RestSame s ((s.setEq false).complete c) :=
  ⟨.of_complete c rfl, rfl, setEq_complete_frame s false false c⟩

/-- Settles O29: the comparison is the accumulator's, and the other ends clear EQ. -/
theorem cmpComparesAllBytes : Obligations.CmpComparesAllBytes := by
  intro s
  refine ⟨encode_cmp, fun h => ⟨_, exec_cmp_of_out_of_bounds h, setEq_false_complete s _⟩,
    fun hA hB ha => ⟨_, exec_cmp_of_in_bounds hA hB, ?aborted⟩, fun hA hB ha => ⟨_, exec_cmp_of_in_bounds hA hB, ?compared⟩⟩
  case aborted =>
    rw [(s.setEq false).finish_of_abort _ ha]
    exact setEq_false_complete s _
  case compared =>
    rw [(s.setEq false).finish_of_no_abort _ ha]
    obtain ⟨hop, hbuf, hrest⟩ := setEq_complete_frame s false s.equalRanges .noError
    exact ⟨.of_complete _ rfl, hop, hbuf, hrest, s.equalRanges_iff⟩

end Sys2Proof.Machine
end

section
/-! MGF1 (44_mgf1.md): its checks in order, one request, one block, and the whole mask over all its steps. -/

namespace Sys2Proof.Machine

/-! ### The checks (rules R87, R88, R98, R100) -/

theorem exec_mgf1_advance {s : State} (x : Bool) (h : ∀ w j, s.seq ≠ .waitHash w j) :
    exec (.mgf1 x) s = .next s.mgfAdvance := by
  change execMgf1 x s = _
  unfold execMgf1
  split
  case h_3 w j hw => exact absurd hw (h w j)
  all_goals rfl

theorem State.mgfAdvance_of_check {s : State} {c : ErrCode} (h : s.mgfCheck = some c) : s.mgfAdvance = s.complete c := by
  rw [State.mgfAdvance, h]

theorem State.mgfCheck_of_illegal_hlen {s : State} (h : s.hlen.toNat ∉ [16, 20, 28, 32, 48, 64]) :
    s.mgfCheck = some .hashConfig := by
  have hl : s.hlen.toNat ∉ Config.hashLengths := h
  simp [State.mgfCheck, hl]

theorem State.mgfCheck_of_out_of_bounds {s : State} (hl : s.hlen.toNat ∈ [16, 20, 28, 32, 48, 64])
    (h : 4096 < s.args.addrA.toNat + s.args.lenA.toNat ∨ 4096 < s.args.addrD.toNat + s.args.lenD.toNat) :
    s.mgfCheck = some .bufBounds := by
  have hmem : s.hlen.toNat ∈ Config.hashLengths := hl
  rcases h with h | h
  · simp [State.mgfCheck, hmem, s.rangeA.inBounds_eq_false_iff.2 h]
  · simp [State.mgfCheck, hmem, s.rangeD.inBounds_eq_false_iff.2 h]

theorem State.mgfCheck_of_overlap {s : State} (hl : s.hlen.toNat ∈ [16, 20, 28, 32, 48, 64])
    (hA : s.args.addrA.toNat + s.args.lenA.toNat ≤ 4096) (hD : s.args.addrD.toNat + s.args.lenD.toNat ≤ 4096)
    (h : s.rangeA.overlaps s.rangeD = true) : s.mgfCheck = some .bufOverlap := by
  have hmem : s.hlen.toNat ∈ Config.hashLengths := hl
  simp [State.mgfCheck, hmem, s.rangeA.inBounds_iff.2 hA, s.rangeD.inBounds_iff.2 hD, h]

/-- Settles O30: one rule per check, in order. -/
theorem mgf1ChecksInOrder : Obligations.Mgf1ChecksInOrder := by
  rintro x s hseq as ls ad L legal rfl rfl rfl rfl hlegal
  have ends : ∀ {c}, s.mgfCheck = some c → ∃ t, exec (.mgf1 x) s = .next t ∧ EndsWith c s t := fun hc =>
    ⟨_, (exec_mgf1_advance x hseq).trans (congrArg _ (State.mgfAdvance_of_check hc)), .of_complete _ s⟩
  refine ⟨(Laws.TableRow.mgf1 x).1, fun hl => ends (State.mgfCheck_of_illegal_hlen (mt hlegal.2 hl)),
    fun hl hb => ends (State.mgfCheck_of_out_of_bounds (hlegal.1 hl) hb), fun hl hA hD hls hL h1 h2 => ends ?_⟩
  exact State.mgfCheck_of_overlap (hlegal.1 hl) hA hD ((BufRange.overlaps_iff _ _).2 ⟨hls, hL, h1, h2⟩)

/-! ### One request (rules R86, R88) -/

/-- With no block left the command completes. -/
theorem State.mgfAdvance_of_no_block {s : State} (hc : s.mgfCheck = none)
    (h : s.args.lenD.toNat ≤ s.mgfBlock * s.hlen.toNat) : s.mgfAdvance = s.complete .noError := by
  have hblock : ¬s.mgfBlock < s.mgfBlocks := by
    rw [State.lt_mgfBlocks_iff _ (State.hlen_pos hc)]
    exact not_lt.2 h
  simp only [State.mgfAdvance, hc]
  rw [if_neg hblock]

/-- With a block left the command comes to the check point and then sends the request. -/
theorem State.mgfAdvance_of_block {s : State} (hc : s.mgfCheck = none)
    (h : s.mgfBlock * s.hlen.toNat < s.args.lenD.toNat) : s.mgfAdvance =
      if s.abortPending then s.complete .aborted else s.sendHash s.mgfBlock (s.mgfRequest s.mgfBlock) := by
  have hblock : s.mgfBlock < s.mgfBlocks := (State.lt_mgfBlocks_iff _ (State.hlen_pos hc)).2 h
  simp only [State.mgfAdvance, hc]
  rw [if_pos hblock]

theorem State.mgfAdvance_of_abort {s : State} (hc : s.mgfCheck = none)
    (h : s.mgfBlock * s.hlen.toNat < s.args.lenD.toNat) (ha : s.abortPending = true) :
    s.mgfAdvance = s.complete .aborted := by
  rw [State.mgfAdvance_of_block hc h, if_pos ha]

theorem State.mgfAdvance_of_request {s : State} (hc : s.mgfCheck = none)
    (h : s.mgfBlock * s.hlen.toNat < s.args.lenD.toNat) (ha : s.abortPending = false) :
    s.mgfAdvance = s.sendHash s.mgfBlock (s.mgfRequest s.mgfBlock) := by
  rw [State.mgfAdvance_of_block hc h, if_neg (Bool.eq_false_iff.1 ha)]

theorem exec_mgf1_run {s : State} {w : Word} (x : Bool) (hs : s.seq = .run w) :
    exec (.mgf1 x) s = .next s.mgfAdvance :=
  exec_mgf1_advance x (by rw [hs]; exact fun _ _ => nofun)

/-- The block counter fits the four bytes it is sent in (rule R86). -/
theorem State.block_lt {s : State} {j : Nat} (hl : 0 < s.hlen.toNat) (h : j * s.hlen.toNat < s.args.lenD.toNat) :
    j < 256 ^ 4 :=
  calc j ≤ j * s.hlen.toNat := Nat.le_mul_of_pos_right j hl
    _ < s.args.lenD.toNat := h
    _ < 256 ^ 4 := s.args.lenD.isLt.trans (by norm_num)

/-- Settles O31: the request is the source range followed by the counter. -/
theorem mgf1SendsTheNextRequest : Obligations.Mgf1SendsTheNextRequest := by
  intro x w s hs hc
  have hlen : (s.bytesOf s.rangeA).length = s.args.lenA.toNat := s.bytesOf_length s.rangeA
  have hexec := exec_mgf1_run x hs
  refine ⟨fun h => ⟨_, hexec, ?done⟩, fun h ha => ⟨_, hexec, ?aborted⟩,
    fun h ha => ⟨_, s.mgfRequest s.mgfBlock, hexec, ?request⟩⟩
  case done =>
    rw [State.mgfAdvance_of_no_block hc h]
    exact .of_complete _ _
  case aborted =>
    rw [State.mgfAdvance_of_abort hc h ha]
    exact .of_complete _ _
  case request =>
    have hrest := (exec_inv hexec).restSame
    rw [State.mgfAdvance_of_request hc h ha] at hrest ⊢
    refine ⟨?wait, rfl, rfl, ?length, fun j hj => ?source, ?counter, rfl, fun _ => rfl, fun _ => rfl, hrest,
      ⟨rfl, rfl, rfl⟩, rfl, rfl⟩
    case wait => rw [State.sendHash_seq, State.cmdWord, hs]
    case length => rw [State.mgfRequest, List.length_append, hlen, i2osp_length]
    case source =>
      rw [← hlen] at hj
      rw [State.mgfRequest, List.getElem?_append_left hj, List.getElem?_eq_getElem hj]
      exact congrArg some (s.buf.readBytes_getElem _ _ j hj)
    case counter =>
      rw [State.mgfRequest, ← hlen, List.drop_left, os2ip_i2osp _ 4 (State.block_lt (State.hlen_pos hc) h)]

/-! ### One block (rules R88, R89) -/

theorem exec_mgf1_of_digest {s : State} {w : Word} {j : Nat} {d : List Byte} (x : Bool) (hs : s.seq = .waitHash w j)
    (hd : s.digest = some d) :
    exec (.mgf1 x) s = .next (if s.abortPending then s.complete .aborted else s.storeBlock x j d) := by
  simp [exec, execMgf1, State.mgfResume, hs, hd]

/-- Byte k of a block: the digest's, or its XOR with the byte it replaces. -/
theorem State.mgfBlockBytes_getElem? (s : State) (x : Bool) {j k : Nat} (d : List Byte) (hk : k < s.mgfWidth j) :
    (s.mgfBlockBytes x j d)[k]? = d[k]?.map fun b => if x then b ^^^ s.buf.read (s.mgfAddr j + k) else b := by
  unfold State.mgfBlockBytes
  cases x with
  | false => simp [List.getElem?_take_of_lt hk]
  | true =>
    have hread : (s.buf.readBytes (s.mgfAddr j) (s.mgfWidth j))[k]? = some (s.buf.read (s.mgfAddr j + k)) := by
      rw [List.getElem?_eq_getElem (by simpa using hk), Memory.readBytes_getElem]
    simp only [if_true, xorBytes, List.getElem?_zipWith, List.getElem?_take_of_lt hk, hread]
    cases d[k]? <;> rfl

/-- Block j lies inside the destination range (rule R89). -/
theorem State.mgf_fits {s : State} {j : Nat} (hD : s.args.addrD.toNat + s.args.lenD.toNat ≤ 4096)
    (hj : j * s.hlen.toNat < s.args.lenD.toNat) : s.mgfAddr j + s.mgfWidth j ≤ 4096 := by
  unfold State.mgfAddr State.mgfWidth State.rangeD
  dsimp only
  omega

/-- What writing block j does to BUF: its own bytes change, and no other. -/
theorem State.storeBlock_buf_read {s : State} {j : Nat} {d : List Byte} (x : Bool) (hwf : s.buf.wf = true)
    (hlen : d.length = s.hlen.toNat) (hD : s.args.addrD.toNat + s.args.lenD.toNat ≤ 4096)
    (hj : j * s.hlen.toNat < s.args.lenD.toNat) :
    BufSameOutside (s.mgfAddr j) (s.mgfWidth j) s (s.storeBlock x j d) ∧
      ∀ k, k < s.mgfWidth j → some ((s.storeBlock x j d).buf.read (s.mgfAddr j + k)) =
        d[k]?.map fun b => if x then b ^^^ s.buf.read (s.mgfAddr j + k) else b := by
  have hbytes := s.mgfBlockBytes_length x j hlen
  have hfits : s.mgfAddr j + (s.mgfBlockBytes x j d).length ≤ Config.bufSize := by
    rw [hbytes]
    exact State.mgf_fits hD hj
  rw [BufSameOutside, State.storeBlock_buf]
  refine ⟨fun a ha => Memory.read_writeBytes_outside _ _ _ (by rwa [hbytes]), fun k hk => ?_⟩
  have hk' : k < (s.mgfBlockBytes x j d).length := by rwa [hbytes]
  rw [Memory.read_writeBytes _ _ hk' hfits hwf, ← s.mgfBlockBytes_getElem? x d hk, List.getElem?_eq_getElem hk']

/-- Settles O32: past the check point the step is `State.storeBlock`. -/
theorem mgf1WritesOneBlock : Obligations.Mgf1WritesOneBlock := by
  rintro x w j d s hs hd hlen hD hj hwf a n rfl rfl
  have hexec := exec_mgf1_of_digest x hs hd
  refine ⟨fun ha => ⟨_, hexec, ?aborted⟩, fun ha => ⟨_, hexec, ?written⟩⟩
  case aborted =>
    rw [if_pos ha]
    exact .of_complete _ _
  case written =>
    have hrest := (exec_inv hexec).restSame
    rw [if_neg (Bool.eq_false_iff.1 ha)] at hrest ⊢
    obtain ⟨hout, hin⟩ := State.storeBlock_buf_read x hwf hlen hD hj
    refine ⟨?run, rfl, rfl, hout, hin, fun _ => rfl, hrest, ⟨rfl, rfl, rfl⟩⟩
    case run => rw [State.storeBlock_seq, State.cmdWord, hs]

/-! ### The whole mask (rule R88) -/

/-- The byte MGF1 leaves at offset k of its destination: byte k of the digests in order, set or XORed with what stood there. -/
def maskByte (x : Bool) (D : Nat → List Byte) (s : State) (k : Nat) : Option Byte :=
  ((D (k / s.hlen.toNat))[k % s.hlen.toNat]?).map fun b => if x then b ^^^ s.buf.read (s.args.addrD.toNat + k) else b

/-- Byte i of block n of the mask is byte i of digest n. -/
theorem maskByte_of_block {x : Bool} {D : Nat → List Byte} {s : State} {n i : Nat} (hi : i < s.hlen.toNat) :
    maskByte x D s (n * s.hlen.toNat + i) =
      (D n)[i]?.map fun b => if x then b ^^^ s.buf.read (s.args.addrD.toNat + (n * s.hlen.toNat + i)) else b := by
  have hdiv : (n * s.hlen.toNat + i) / s.hlen.toNat = n := by
    rw [Nat.mul_comm, Nat.mul_add_div (Nat.zero_lt_of_lt hi), Nat.div_eq_of_lt hi, Nat.add_zero]
  have hmod : (n * s.hlen.toNat + i) % s.hlen.toNat = i := by
    rw [Nat.mul_comm, Nat.mul_add_mod, Nat.mod_eq_of_lt hi]
  rw [maskByte, hdiv, hmod]

/-- The state after `n` blocks: their bytes are written, and nothing else but the counter and the hash port has changed. -/
structure MgfProgress (x : Bool) (D : Nat → List Byte) (s : State) (n : Nat) (t : State) : Prop where
  rest : t = { s with buf := t.buf, mgfBlock := n, hashReq := t.hashReq, digest := t.digest }
  canonical : t.buf.wf = true
  outside : BufSameOutside s.args.addrD.toNat (min (n * s.hlen.toNat) s.args.lenD.toNat) s t
  written : ∀ k, k < min (n * s.hlen.toNat) s.args.lenD.toNat →
    some (t.buf.read (s.args.addrD.toNat + k)) = maskByte x D s k

section Mask
variable {x : Bool} {D : Nat → List Byte} {s t : State} {w : Word} {n : Nat}

theorem MgfProgress.start (hb : s.mgfBlock = 0) (hwf : s.buf.wf = true) : MgfProgress x D s 0 s where
  rest := by rw [← hb]
  canonical := hwf
  outside _ _ := rfl
  written k hk := absurd hk (by simp)

/-- The checks read the configuration alone. -/
theorem MgfProgress.mgfCheck_eq (h : MgfProgress x D s n t) : t.mgfCheck = s.mgfCheck := by
  rw [h.rest]
  rfl

theorem MgfProgress.seq_eq (h : MgfProgress x D s n t) : t.seq = s.seq := by
  rw [h.rest]

theorem MgfProgress.block_eq (h : MgfProgress x D s n t) : t.mgfBlock = n := by
  rw [h.rest]

theorem MgfProgress.config_eq (h : MgfProgress x D s n t) :
    t.hlen = s.hlen ∧ t.args = s.args ∧ t.abortPending = s.abortPending := by
  rw [h.rest]
  exact ⟨rfl, rfl, rfl⟩

/-- Ranges that passed the checks do not overlap, so the source is read unchanged (rule R98). -/
theorem MgfProgress.source_eq (h : MgfProgress x D s n t) (hc : s.mgfCheck = none) :
    t.bytesOf t.rangeA = s.bytesOf s.rangeA := by
  obtain ⟨-, hargs, -⟩ := h.config_eq
  obtain ⟨-, -, -, hoverlap⟩ := State.mgfCheck_none hc
  rw [← Bool.not_eq_true, BufRange.overlaps_iff] at hoverlap
  have hA : t.rangeA = s.rangeA := by rw [State.rangeA, State.rangeA, hargs]
  rw [hA]
  refine List.ext_getElem (by simp) fun j h1 h2 => ?_
  have hj : j < s.rangeA.len := by simpa using h2
  refine ((t.buf.readBytes_getElem _ _ j h1).trans (h.outside _ ?_)).trans (s.buf.readBytes_getElem _ _ j h2).symm
  unfold State.rangeA State.rangeD at *
  dsimp only at *
  omega

/-- Progress but for the fields a block changes. -/
theorem MgfProgress.rest_of (h : MgfProgress x D s n t) {q : Seq} (hq : q = s.seq) (m : Memory) (k : Nat)
    (r g : Option (List Byte)) :
    ({ t with seq := q, buf := m, mgfBlock := k, hashReq := r, digest := g } : State) =
      { s with buf := m, mgfBlock := k, hashReq := r, digest := g } := by
  rw [h.rest, hq]

/-- The state in which MGF1 writes block n: its request has been sent and answered. -/
def State.blockAnswered (t : State) (n : Nat) (d : List Byte) : State := (t.sendHash n (t.mgfRequest n)).respond d

/-- Where block n goes and what its bytes become, in terms of the state MGF1 began in. -/
theorem MgfProgress.block_written (h : MgfProgress x D s n t) (hD : s.args.addrD.toNat + s.args.lenD.toNat ≤ 4096)
    (hlen : (D n).length = s.hlen.toNat) (hn : n * s.hlen.toNat < s.args.lenD.toNat) :
    BufSameOutside (s.mgfAddr n) (s.mgfWidth n) t ((t.blockAnswered n (D n)).storeBlock x n (D n)) ∧
      ∀ k, k < s.mgfWidth n →
        some (((t.blockAnswered n (D n)).storeBlock x n (D n)).buf.read (s.mgfAddr n + k)) =
          (D n)[k]?.map fun b => if x then b ^^^ t.buf.read (s.mgfAddr n + k) else b := by
  obtain ⟨hhlen, hargs, -⟩ := h.config_eq
  obtain ⟨haddr, hwidth⟩ : s.mgfAddr n = t.mgfAddr n ∧ s.mgfWidth n = t.mgfWidth n := by
    unfold State.mgfAddr State.mgfWidth State.rangeD
    rw [hhlen, hargs]
    exact ⟨rfl, rfl⟩
  rw [← hargs] at hD hn
  rw [← hhlen] at hlen hn
  rw [haddr, hwidth]
  exact State.storeBlock_buf_read (s := t.blockAnswered n (D n)) x h.canonical hlen hD hn

/-- Writing block n is progress: its bytes are next in the mask, and those before it stay. -/
theorem MgfProgress.store (h : MgfProgress x D s n t) (hs : s.seq = .run w)
    (hD : s.args.addrD.toNat + s.args.lenD.toNat ≤ 4096) (hlen : (D n).length = s.hlen.toNat)
    (hn : n * s.hlen.toNat < s.args.lenD.toNat) :
    MgfProgress x D s (n + 1) ((t.blockAnswered n (D n)).storeBlock x n (D n)) := by
  have hrun : Seq.run (t.blockAnswered n (D n)).cmdWord = s.seq := by
    have hword : t.cmdWord = w := by rw [State.cmdWord, h.seq_eq, hs]
    rw [hs]
    exact congrArg Seq.run hword
  obtain ⟨hout, hin⟩ := h.block_written hD hlen hn
  unfold State.mgfAddr State.mgfWidth State.rangeD at hout hin
  dsimp only at hout hin
  have hsucc : (n + 1) * s.hlen.toNat = n * s.hlen.toNat + s.hlen.toNat := Nat.succ_mul _ _
  refine ⟨?rest, Memory.writeBytes_wf _ _ h.canonical, fun a ha => ?outside, fun k hk => ?written⟩
  case rest => exact h.rest_of hrun _ (n + 1) none none
  case outside => exact (hout a (by omega)).trans (h.outside a (by omega))
  case written =>
    by_cases hold : k < n * s.hlen.toNat
    · rw [hout _ (by omega)]
      exact h.written k (by omega)
    · obtain ⟨i, rfl⟩ := Nat.exists_eq_add_of_le (not_lt.1 hold)
      have hi : i < s.hlen.toNat := by omega
      have hbyte := hin i (by omega)
      have hprev : t.buf.read (s.args.addrD.toNat + n * s.hlen.toNat + i) =
          s.buf.read (s.args.addrD.toNat + n * s.hlen.toNat + i) := h.outside _ (by omega)
      rw [hprev, Nat.add_assoc] at hbyte
      rw [hbyte, maskByte_of_block hi]

/-- One round: the request for block n, its answer, and the block. -/
theorem MgfProgress.round (h : MgfProgress x D s n t) (hs : s.seq = .run w) (hc : s.mgfCheck = none)
    (ha : s.abortPending = false) (hn : n * s.hlen.toNat < s.args.lenD.toNat) :
    exec (.mgf1 x) t = .next (t.sendHash n (t.mgfRequest n)) ∧
      (t.sendHash n (t.mgfRequest n)).hashReq = some (s.bytesOf s.rangeA ++ i2osp n 4) ∧
        exec (.mgf1 x) (t.blockAnswered n (D n)) = .next ((t.blockAnswered n (D n)).storeBlock x n (D n)) := by
  obtain ⟨hhlen, hargs, habort⟩ := h.config_eq
  refine ⟨?request, ?source, ?store⟩
  case request =>
    have hsend := State.mgfAdvance_of_request (s := t) (h.mgfCheck_eq.trans hc) (by rwa [h.block_eq, hhlen, hargs])
      (habort.trans ha)
    rw [h.block_eq] at hsend
    rw [exec_mgf1_run x (h.seq_eq.trans hs), hsend]
  case source => rw [State.sendHash_hashReq, State.mgfRequest, h.source_eq hc]
  case store =>
    have hno : ¬(t.blockAnswered n (D n)).abortPending = true := Bool.eq_false_iff.1 (habort.trans ha)
    rw [exec_mgf1_of_digest (s := t.blockAnswered n (D n)) x rfl rfl, if_neg hno]

/-- As many rounds as there are blocks to write lead to as much of the mask. -/
theorem exists_mgfRounds (hs : s.seq = .run w) (hb : s.mgfBlock = 0) (hc : s.mgfCheck = none)
    (ha : s.abortPending = false) (hwf : s.buf.wf = true) (hD : ∀ j, (D j).length = s.hlen.toNat) (n : Nat)
    (hn : ∀ j, j < n → j * s.hlen.toNat < s.args.lenD.toNat) : ∃ t, MgfRounds x D s n t ∧ MgfProgress x D s n t := by
  induction n with
  | zero => exact ⟨s, rfl, .start hb hwf⟩
  | succ n ih =>
    obtain ⟨t, hrounds, hprogress⟩ := ih fun j hj => hn j (hj.trans (Nat.lt_succ_self n))
    have hlast := hn n (Nat.lt_succ_self n)
    obtain ⟨-, -, hin, -⟩ := State.mgfCheck_none hc
    obtain ⟨hrequest, hsource, hstore⟩ := hprogress.round hs hc ha hlast
    exact ⟨_, ⟨t, _, hrounds, hrequest, hsource, hstore⟩,
      hprogress.store hs ((BufRange.inBounds_iff _).1 hin) (hD n) hlast⟩

/-- With the whole mask written the command completes, and what it leaves is the progress made. -/
theorem MgfProgress.completes (h : MgfProgress x D s n t) (hs : s.seq = .run w)
    (hc : s.mgfCheck = none) (hn : s.args.lenD.toNat ≤ n * s.hlen.toNat) :
    exec (.mgf1 x) t = .next (t.complete .noError) ∧ Completed .noError s (t.complete .noError) ∧
      OpSame s (t.complete .noError) ∧ RestSame s (t.complete .noError) ∧
        (t.complete .noError).status.eq = s.status.eq := by
  obtain ⟨hhlen, hargs, -⟩ := h.config_eq
  refine ⟨?step, ?frame⟩
  case step =>
    rw [exec_mgf1_run x (h.seq_eq.trans hs), State.mgfAdvance_of_no_block (h.mgfCheck_eq.trans hc)]
    rwa [h.block_eq, hhlen, hargs]
  case frame =>
    rw [h.rest]
    exact ⟨.of_complete _ rfl, fun _ => rfl, ⟨fun _ => rfl, rfl, rfl, rfl, rfl, rfl, rfl, rfl, rfl, rfl⟩, rfl⟩

end Mask

/-- Settles O33: round by round the mask is written, and a last step completes. -/
theorem mgf1WritesTheWholeMask : Obligations.Mgf1WritesTheWholeMask := by
  intro x w D s hs hb hc ha hwf hD
  have hpos := State.hlen_pos hc
  have hblocks : ∀ j, j < s.mgfBlocks ↔ j * s.hlen.toNat < s.args.lenD.toNat := fun j => State.lt_mgfBlocks_iff j hpos
  have hall : s.args.lenD.toNat ≤ s.mgfBlocks * s.hlen.toNat := not_lt.1 fun h => lt_irrefl _ ((hblocks _).2 h)
  obtain ⟨t, hrounds, hprogress⟩ := exists_mgfRounds (x := x) hs hb hc ha hwf hD s.mgfBlocks fun j => (hblocks j).1
  obtain ⟨hstep, hdone, hop, hrest, heq⟩ := hprogress.completes hs hc hall
  have hout := hprogress.outside
  have hin := hprogress.written
  rw [min_eq_right hall] at hout hin
  exact ⟨t, _, hrounds, hstep, hdone, hop, hrest, heq, hout, hin⟩

end Sys2Proof.Machine
end
